-- ==== Sys2Proof/Word.lean ====
section
/-!
DEFINITION. The word types of the block (00_scope R4, R5, R10): plain bit vectors, and their plainest views.
-/
namespace Sys2Proof

/-- A register or host-bus word: 32 bits, bit 0 least significant (R4). -/
abbrev Word := BitVec 32

/-- One byte of a buffer. -/
abbrev Byte := BitVec 8

/-- The IEEE 754 binary64 encoding of an `f64` value (R10). -/
abbrev F64 := BitVec 64

/-- A 24-bit CRC, parity field or ICAO address. -/
abbrev Word24 := BitVec 24

/-- A 14-byte frame buffer (R2) as its 112 frame bits: frame bit 0 (the first on the air, R5) is the most significant, so
byte `k` is the `k`-th group of eight bits from the top. -/
abbrev Frame := BitVec 112

end Sys2Proof
end

