-- ==== Sys2Proof/Config.lean ====
section
/-!
DEFINITION. What is fixed for the machine: the implementation parameters of 00_scope R1, the fixed ones as constants and
the others as the record `Params` a state carries (log 10); and the free values, constants without a body that no proof can
evaluate (logs 3, 4, 8, 9, 10).
-/
namespace Sys2Proof

/-- `PRE`, samples of the preamble (R1, D17). -/
def Config.pre : Nat := 16

/-- `WIN = PRE + 2·112`, samples of a candidate's window (R1). -/
def Config.win : Nat := Config.pre + 2 * 112

/-- `MAG_TAIL = WIN − 1`, samples carried to the next block (R1, D15). -/
def Config.magTail : Nat := Config.win - 1

/-- `ICAO_SLOTS` (R1). -/
def Config.icaoSlots : Nat := 1024

/-- `ICAO_TTL`, in units of NOW (R1). -/
def Config.icaoTtl : Nat := 60

/-- `AMBIG_MAX_NORMAL` (R1). -/
def Config.ambigMaxNormal : Nat := 0

/-- `AMBIG_MAX_AGGR` (R1). -/
def Config.ambigMaxAggr : Nat := 2

/-- Which slot function ICAO_HASH is (R1, 44_decoder R150): the default, or another one, about which nothing is known. -/
inductive SlotFunction where
  | default
  | other
deriving DecidableEq, Repr

/-- The parameters of R1 that are not fixed: arguments of the model, constant while it runs. COS, SIN and ATAN2 are the free
functions below. -/
structure Params where
  /-- `IQ_CAP`, bytes. -/
  iqCap : Nat
  /-- `FFT_NMAX`, complex elements. -/
  fftNmax : Nat
  /-- `MSG_DEPTH`, records. -/
  msgDepth : Nat
  /-- `MAG_CENTER`. -/
  magCenter : Nat
  /-- `MAG_SCALE`. -/
  magScale : Nat
  /-- `HIGH_DIV`. -/
  highDiv : Nat
  /-- `OOP_DIV`. -/
  oopDiv : Nat
  /-- `ICAO_HASH`. -/
  slotFunction : SlotFunction
deriving DecidableEq, Repr

/-- The values R1 gives (D8, D14, D16, D18, D29, D30). -/
def Params.given : Params where
  iqCap := 262144
  fftNmax := 8192
  msgDepth := 64
  magCenter := 127
  magScale := 360
  highDiv := 6
  oopDiv := 3
  slotFunction := .default

/-- `AUDIO_CAP = IQ_CAP/2`, samples (R1). -/
def Params.audioCap (p : Params) : Nat := p.iqCap / 2

/-- `MAG_CAP = MAG_TAIL + IQ_CAP/2`, samples (R1). -/
def Params.magCap (p : Params) : Nat := Config.magTail + p.iqCap / 2

/-- The bounds R1 sets. That the two divisors are not 0 is DEDUCED: they divide (log 10). -/
def Params.legal (p : Params) : Prop :=
  (p.iqCap % 2 = 0 ∧ p.iqCap ≤ 2 ^ 20) ∧ (∃ r, 1 ≤ r ∧ r ≤ 16 ∧ p.fftNmax = 2 ^ r) ∧ 1 ≤ p.msgDepth
    ∧ (p.magCenter = 127 ∨ p.magCenter = 128) ∧ (1 ≤ p.magScale ∧ p.magScale ≤ 362) ∧ 1 ≤ p.highDiv ∧ 1 ≤ p.oopDiv

/-- The four binary64 operations of R10, to name the one that made a NaN. -/
inductive F64Op where
  | add
  | sub
  | mul
  | div
deriving DecidableEq, Repr

/-- FREE VALUE (log 3). The byte that buffer address `a` holds when nothing has written it since reset number `epoch`:
10_state R43 leaves it unspecified. -/
opaque Config.powerOnByte (epoch a : Nat) : Byte

/-- FREE VALUE (log 4). The word a host read of `offset` returns where 20_memory R60, R62, R64 (d) leave it unspecified,
drawn afresh by the counter `draw`. -/
opaque Config.freeWord (draw offset : Nat) : Word

/-- FREE VALUE (log 8). The bits an operation with a NaN result leaves in the NaN's sign and payload (40_spectral R95 (b)). -/
opaque Config.nanBits (op : F64Op) (a b : F64) : F64

/-- FREE VALUE (log 10). A slot function other than the default, before its range is imposed (44_decoder R150). -/
opaque Config.otherSlot (a : Word24) : Nat

/-- FREE VALUE (log 9). `COS` before its range is imposed (R10). -/
opaque Config.cosRaw (a : F64) : F64

/-- FREE VALUE (log 9). `SIN` before its range is imposed (R10). -/
opaque Config.sinRaw (a : F64) : F64

/-- FREE VALUE (log 9). `ATAN2(y, x)` before its range is imposed (R10). -/
opaque Config.atan2Raw (y x : F64) : F64

end Sys2Proof
end

