-- ==== Sys2Proof/Machine/F64.lean ====
section
/-!
DEFINITION. Binary64 arithmetic (00_scope R10): `+`, `−`, `·`, `/` rounded to nearest, ties to even, on 64-bit encodings;
each is computed exactly on integers and rounded once. Also COS, SIN and ATAN2 with the ranges R10 gives them.
-/
namespace Sys2Proof.Machine

/-- `PI` (R10). -/
def f64Pi : F64 := 0x400921FB54442D18

/-- `TWO_PI` (R10). -/
def f64TwoPi : F64 := 0x401921FB54442D18

/-- `1.0`. -/
def f64One : F64 := 0x3FF0000000000000

/-- `127.5`, the centre FMDEMOD subtracts (41_demod R101). -/
def f64Center : F64 := 0x405FE00000000000

/-- The sign bit. -/
def f64Sign (a : F64) : Bool := a.msb

/-- The encoding without its sign bit, as a number: the order of magnitudes. -/
def f64Mag (a : F64) : Nat := (a.extractLsb' 0 63).toNat

/-- The biased exponent field. -/
def f64ExpField (a : F64) : Nat := (a.extractLsb' 52 11).toNat

/-- The fraction field. -/
def f64Frac (a : F64) : Nat := (a.extractLsb' 0 52).toNat

/-- A NaN encoding. -/
def f64IsNaN (a : F64) : Bool := f64ExpField a == 2047 && f64Frac a != 0

/-- An infinity. -/
def f64IsInf (a : F64) : Bool := f64ExpField a == 2047 && f64Frac a == 0

/-- A zero of either sign. -/
def f64IsZero (a : F64) : Bool := f64Mag a == 0

/-- Neither infinite nor NaN. -/
def f64IsFinite (a : F64) : Bool := f64ExpField a != 2047

/-- The integer significand of a finite value: the value is `± f64Sig a · 2 ^ (f64Scale a − 1075)`. -/
def f64Sig (a : F64) : Nat := if f64ExpField a = 0 then f64Frac a else f64Frac a + 2 ^ 52

/-- The scale of a finite value, subnormals at 1. -/
def f64Scale (a : F64) : Nat := if f64ExpField a = 0 then 1 else f64ExpField a

/-- `a` with its sign inverted. -/
def f64Neg (a : F64) : F64 := a ^^^ (1#1 ++ 0#63)

/-- The encoding with sign `sign` and magnitude bits `mag`. -/
def f64Pack (sign : Bool) (mag : Nat) : F64 := BitVec.ofBool sign ++ BitVec.ofNat 63 mag

/-- A zero of the given sign. -/
def f64Zero (sign : Bool) : F64 := f64Pack sign 0

/-- An infinity of the given sign. -/
def f64Inf (sign : Bool) : F64 := f64Pack sign (2047 * 2 ^ 52)

/-- The NaN an operation gives: its sign and payload are free (log 8), its encoding is always a NaN's. -/
def f64NaN (op : F64Op) (a b : F64) : F64 :=
  let free := Config.nanBits op a b
  f64Pack (f64Sign free) (2047 * 2 ^ 52 + (if f64Frac free = 0 then 2 ^ 51 else f64Frac free))

/-- `m / 2 ^ k` rounded to the nearest integer, ties to even. -/
def roundShift (m k : Nat) : Nat :=
  let q := m >>> k
  let r := m % 2 ^ k
  if k = 0 then q
  else if 2 ^ (k - 1) < r || (r == 2 ^ (k - 1) && q % 2 == 1) then q + 1
  else q

/-- The binary64 nearest to `± m · 2 ^ (x − 2200)`, ties to even. The last place kept is `2 ^ (p − 2200)`: 53 significant
bits, or the subnormals' `2 ^ −1074` (`p = 1126`). A carry out of the significand moves into the exponent field by itself,
and what reaches the infinities' encoding is an infinity. -/
def f64Round (sign : Bool) (m x : Nat) : F64 :=
  if m = 0 then f64Zero sign
  else
    let p := max (x + m.log2 - 52) 1126
    let sig := if p ≤ x then m <<< (x - p) else roundShift m (p - x)
    f64Pack sign (min ((p - 1126) * 2 ^ 52 + sig) (2047 * 2 ^ 52))

/-- A finite value's signed significand at the scale `e`, which is at most its own. -/
def f64SigAt (a : F64) (e : Nat) : Int :=
  let m : Int := ((f64Sig a <<< (f64Scale a - e) : Nat) : Int)
  if f64Sign a then -m else m

/-- Addition, naming `op` in a NaN result (subtraction adds the negated operand). -/
def f64AddAs (op : F64Op) (a b : F64) : F64 :=
  if f64IsNaN a || f64IsNaN b then f64NaN op a b
  else if f64IsInf a then
    if f64IsInf b && f64Sign a != f64Sign b then f64NaN op a b else a
  else if f64IsInf b then b
  else
    let e := min (f64Scale a) (f64Scale b)
    let sum := f64SigAt a e + f64SigAt b e
    if sum = 0 then f64Zero (f64Sign a && f64Sign b)
    else f64Round (decide (sum < 0)) sum.natAbs (e + 1125)

/-- `a + b`. -/
def f64Add (a b : F64) : F64 := f64AddAs .add a b

/-- `a − b`. -/
def f64Sub (a b : F64) : F64 := f64AddAs .sub a (f64Neg b)

/-- `a · b`. -/
def f64Mul (a b : F64) : F64 :=
  let sign := f64Sign a != f64Sign b
  if f64IsNaN a || f64IsNaN b then f64NaN .mul a b
  else if f64IsInf a || f64IsInf b then
    if f64IsZero a || f64IsZero b then f64NaN .mul a b else f64Inf sign
  else f64Round sign (f64Sig a * f64Sig b) (f64Scale a + f64Scale b + 50)

/-- `a / b`: the quotient to 67 bits or more with a last bit that says whether anything was left, rounded once. -/
def f64Div (a b : F64) : F64 :=
  let sign := f64Sign a != f64Sign b
  if f64IsNaN a || f64IsNaN b then f64NaN .div a b
  else if f64IsInf a then if f64IsInf b then f64NaN .div a b else f64Inf sign
  else if f64IsInf b then f64Zero sign
  else if f64IsZero b then if f64IsZero a then f64NaN .div a b else f64Inf sign
  else
    let n := f64Sig a <<< 120
    let q := n / f64Sig b
    let sticky := if n % f64Sig b = 0 then 0 else 1
    f64Round sign (2 * q + sticky) (f64Scale a + 2079 - f64Scale b)

/-- The exact binary64 of an integer below 2^53 (R10). -/
def f64OfNat (n : Nat) : F64 := f64Round false n 2200

/-- A non-NaN value's place in the numeric order; both zeros at 0. -/
def f64Key (a : F64) : Int := if f64Sign a then -(f64Mag a : Int) else (f64Mag a : Int)

/-- `a < b`, false when either is a NaN. -/
def f64Lt (a b : F64) : Bool := !f64IsNaN a && !f64IsNaN b && decide (f64Key a < f64Key b)

/-- `a ≤ b`, false when either is a NaN. -/
def f64Le (a b : F64) : Bool := !f64IsNaN a && !f64IsNaN b && decide (f64Key a ≤ f64Key b)

/-- `v` when it lies in `[−bound, bound]`, else `+0.0`: any function into that interval passes through unchanged, so this
imposes the range and nothing more (log 9). -/
def f64InRange (bound v : F64) : F64 := if f64Mag v ≤ f64Mag bound then v else 0

/-- `COS(a)`: a free function with values in `[−1, 1]` (R10), and no more is asked of it; so 40_spectral R95 (d) is not
imposed (DESIGN CHOICE, log 14). -/
def f64Cos (a : F64) : F64 := f64InRange f64One (Config.cosRaw a)

/-- `SIN(a)`: a free function with values in `[−1, 1]` (R10), and no more, as `f64Cos` (log 14). -/
def f64Sin (a : F64) : F64 := f64InRange f64One (Config.sinRaw a)

/-- `ATAN2(y, x)`: a free function, in `[−PI, PI]` for finite arguments (R10). -/
def f64Atan2 (y x : F64) : F64 :=
  if f64IsFinite y && f64IsFinite x then f64InRange f64Pi (Config.atan2Raw y x) else Config.atan2Raw y x

end Sys2Proof.Machine
end

