-- ==== Sys2Proof/Syntax.lean ====
section
/-!
DEFINITION. The commands of the block: one constructor per row of spec/opcode_table.json (30_encoding R71), each with its
operand field at the width of its format (R72).
-/
namespace Sys2Proof

/-- The eight commands. Every operand is unsigned (R72). -/
inductive Instr where
  /-- NOP (45_system R172). -/
  | nop
  /-- FFT N: the length operand `v[23:0]` (40_spectral R90). -/
  | fft (n : BitVec 24)
  /-- FMDEMOD F: the decimation factor `v[15:0]` (41_demod R100). -/
  | fmdemod (f : BitVec 16)
  /-- MAG (42_magnitude R112). -/
  | mag
  /-- SCAN (43_detector R120). -/
  | scan
  /-- CRC LSEL: the length selection `v[1:0]`, 3 illegal (44_decoder R144). -/
  | crc (lsel : BitVec 2)
  /-- DECODE (44_decoder R154). -/
  | decode
  /-- PROBE A: the 24-bit address `v[23:0]` (44_decoder R155). -/
  | probe (a : BitVec 24)
deriving DecidableEq, Repr

end Sys2Proof
end

