-- ==== Sys2Proof/WellFormed.lean ====
section
/-!
DEFINITION. Which terms of `Instr` are commands of the block (30_encoding R73–R75).
-/
namespace Sys2Proof

/-- A term is a command unless it is CRC with `LSEL = 3`, which R74 calls illegal. The range checks of N and F are made at
issue, not here (R72). -/
def Instr.wellFormed : Instr → Bool
  | .nop => true
  | .fft _ => true
  | .fmdemod _ => true
  | .mag => true
  | .scan => true
  | .crc lsel => lsel != 3#2
  | .decode => true
  | .probe _ => true

end Sys2Proof
end

