-- ==== Sys2Proof/Decode.lean ====
section
/-!
DEFINITION. The command word (30_encoding R70–R75): the decoder, total on every word and rejecting by name, and the encoder
(the words of R76).
-/
namespace Sys2Proof

/-- Why a word is no command. The block raises E_ILLEGAL for each (R73, R74). -/
inductive DecodeError where
  /-- OPC in 0x08–0xFF (R73). -/
  | reservedOpcode
  /-- A must-be-0 operand bit is set (R74). -/
  | mustBeZero
  /-- CRC with LSEL = 3 (R74). -/
  | reservedLength
deriving DecidableEq, Repr

/-- `OPC = v[31:24]` (R70). -/
def wordOpcode (v : Word) : BitVec 8 := v.extractLsb' 24 8

/-- `OPND = v[23:0]` (R70). -/
def wordOperand (v : Word) : BitVec 24 := v.extractLsb' 0 24

/-- A format Z word: `i` when the operand field is zero (R72, R74). -/
def decodeZ (i : Instr) (v : Word) : Except DecodeError Instr :=
  if wordOperand v = 0 then .ok i else .error .mustBeZero

/-- A format F word (R72, R74). -/
def decodeF (v : Word) : Except DecodeError Instr :=
  if v.extractLsb' 16 8 = 0 then .ok (.fmdemod (v.extractLsb' 0 16)) else .error .mustBeZero

/-- A format L word (R72, R74). -/
def decodeL (v : Word) : Except DecodeError Instr :=
  if v.extractLsb' 2 22 ≠ 0 then .error .mustBeZero
  else if v.extractLsb' 0 2 = 3 then .error .reservedLength
  else .ok (.crc (v.extractLsb' 0 2))

/-- The decoder: the opcode first, then the operand against the opcode's format (R70, R71). -/
def decode (v : Word) : Except DecodeError Instr :=
  match (wordOpcode v).toNat with
  | 0 => decodeZ .nop v
  | 1 => .ok (.fft (wordOperand v))
  | 2 => decodeF v
  | 3 => decodeZ .mag v
  | 4 => decodeZ .scan v
  | 5 => decodeL v
  | 6 => decodeZ .decode v
  | 7 => .ok (.probe (wordOperand v))
  | _ => .error .reservedOpcode

/-- The word of a command: opcode in 31:24, operand zero-extended to 23:0 (R72, R76). -/
def encode : Instr → Word
  | .nop => 0x00#8 ++ 0#24
  | .fft n => 0x01#8 ++ n
  | .fmdemod f => 0x02#8 ++ 0#8 ++ f
  | .mag => 0x03#8 ++ 0#24
  | .scan => 0x04#8 ++ 0#24
  | .crc lsel => 0x05#8 ++ 0#22 ++ lsel
  | .decode => 0x06#8 ++ 0#24
  | .probe a => 0x07#8 ++ a

/-- What the decoder reads from the table's numbering of an instruction: a command is ONE 32-bit word, numbered from bit 0
as the table numbers it; bits above `nbits` are 0. -/
def decodeTableWord (nbits w : Nat) : Option Instr :=
  (decode (BitVec.ofNat 32 (w % 2 ^ nbits))).toOption

end Sys2Proof
end

