-- ==== Sys2Proof/Machine/State.lean ====
section
/-!
DEFINITION. The state of the block as plain data (10_state), the reasons a step can stop, and the state after reset
(10_state R43, 70_reset R200).
-/
namespace Sys2Proof.Machine

/-- The legal values of MODE (10_state R17). -/
inductive Mode where
  | idle
  | fm
  | surv
deriving DecidableEq, Repr

/-- The error codes that are ever raised, and 0 (60_exceptions R180). -/
inductive ErrCode where
  | noError
  | illegal
  | fftSize
  | iqLen
  | decim
  | mode
  | busy
  | bus
deriving DecidableEq, Repr

/-- The stored bits of CTRL (10_state R16). -/
structure Ctrl where
  fix : Bool
  aggr : Bool
  ieDone : Bool
  ieErr : Bool
  ieMsg : Bool
deriving DecidableEq, Repr

/-- CRC_CALC, CRC_FIELD and the fields MATCH, LONG, DF of CRC_RES (10_state R27). -/
structure CrcResult where
  computed : Word24
  parity : Word24
  ok : Bool
  long : Bool
  df : BitVec 5
deriving DecidableEq, Repr

/-- The fields of PROBE_RES (10_state R28). -/
structure ProbeResult where
  recent : Bool
  slot : BitVec 10
deriving DecidableEq, Repr

/-- The fields of a decode status word (10_state R29). -/
structure DecodeStatus where
  df : BitVec 5
  long : Bool
  ok : Bool
  ncorr : BitVec 2
  ap : Bool
  pc : Bool
  cw : Bool
  valid : Bool
deriving DecidableEq, Repr

/-- A decode's result: what DEC_STATUS .. DEC_FRAME show, and a record's part of the same shape (10_state R30, R31, R37). -/
structure Decoded where
  status : DecodeStatus
  aa : Word24
  e0 : Byte
  e1 : Byte
  crcf : Word24
  crcc : Word24
  frame : Frame
deriving DecidableEq, Repr

/-- One entry of the message FIFO (10_state R37). -/
structure Record where
  decoded : Decoded
  offset : Word
deriving DecidableEq, Repr

/-- ADDR and TS of a cache slot whose VALID is 1 (10_state R40). -/
structure CacheEntry where
  addr : Word24
  ts : Word
deriving DecidableEq, Repr

/-- The two host-bus primitives (00_scope R7). -/
inductive AccessKind where
  | read
  | write
deriving DecidableEq, Repr

/-- One host access: its byte offset, its width in bits, the byte lanes a write enables and the word a write carries.
Accesses the block refuses (20_memory R53, R54) are accesses too. -/
structure Access where
  kind : AccessKind
  offset : Word
  width : Nat
  lanes : BitVec 4
  data : Word
deriving DecidableEq, Repr

/-- What moves next (log 1, log 2). -/
inductive Turn where
  /-- The host makes an access; a command it issues completes in the same step (45_system R173). -/
  | host (a : Access)
  /-- The host makes an access; a command it issues stays in flight, STATUS.BUSY = 1. -/
  | hostHeld (a : Access)
  /-- The sequencer executes and completes the command in flight. -/
  | sequencer
  /-- The external reset input (70_reset R200). -/
  | reset
deriving DecidableEq, Repr

/-- The answer of the bus to a host access: the word returned and whether it is an error response (20_memory R56). -/
structure Response where
  data : Word
  error : Bool
deriving DecidableEq, Repr

/-- The buffers of the register space as written since reset: (bus offset, byte) pairs, offsets strictly rising. An
unlisted offset holds no written byte. -/
abbrev Memory := List Host.Cell

/-- The ICAO cache's slots with VALID = 1, by strictly rising slot number; every other slot has VALID = 0. -/
abbrev Cache := List (Nat × CacheEntry)

/-- The state of the block. -/
structure State where
  /-- The parameters the block is built with (00_scope R1): no step changes them. -/
  params : Params
  /-- CTRL (R16). -/
  ctrl : Ctrl
  /-- MODE (R17). -/
  mode : Mode
  /-- STATUS.DONE (R18). -/
  done : Bool
  /-- STATUS.ERR (R18). -/
  err : Bool
  /-- STATUS.ERRCODE (R18). -/
  errCode : ErrCode
  /-- STATUS.MSG_OVF (R18). -/
  msgOvf : Bool
  /-- PENDING (R42); STATUS.BUSY is 1 exactly while it holds a word. -/
  pending : Option Word
  /-- NOW (R20). -/
  now : Word
  /-- IQ_LEN (R21). -/
  iqLen : Word
  /-- MAG_LEN (R22). -/
  magLen : Word
  /-- SCAN_POS (R23). -/
  scanPos : Word
  /-- AUDIO_LEN (R24). -/
  audioLen : Word
  /-- LAST_PHASE (R25). -/
  lastPhase : F64
  /-- FRAME_IN (R26). -/
  frameIn : Frame
  /-- CRC_CALC, CRC_FIELD, CRC_RES (R27). -/
  crc : CrcResult
  /-- PROBE_RES (R28). -/
  probe : ProbeResult
  /-- DEC_STATUS .. DEC_FRAME (R29–R31). -/
  dec : Decoded
  /-- MQ, oldest first (R37). -/
  mq : List Record
  /-- MSG_DROPS (R32). -/
  msgDrops : Word
  /-- C (R40). -/
  cache : Cache
  /-- IQ, W, FX and AU at their bus offsets (R35, R36, R38, R39). -/
  mem : Memory
  /-- The model's own: the last bus response (log 6). -/
  resp : Option Response
  /-- The model's own: the turns still to come, oldest first (log 1). -/
  agenda : List Turn
  /-- The model's own: counter of the free words of host reads (log 4). -/
  draw : Nat
  /-- The model's own: number of resets, picks the unspecified buffer contents (log 3). -/
  epoch : Nat
deriving DecidableEq, Repr

/-- Why a step stops with a fault. -/
inductive Fault where
  /-- Raised by the sequencer's turn (`finish`) when PENDING holds a word that is no command. No run reaches such a state
  (a command is checked before PENDING takes it, 45_system R170), so stopping there is SAFE (log 7). -/
  | pendingIllegal
deriving DecidableEq, Repr

/-- Why a step is refused. -/
inductive Refusal where
  /-- Raised by an arm of `exec` that has no meaning yet; no arm raises it now. SAFE: nothing is claimed of such a step. -/
  | notModelled (mnemonic : String)
deriving DecidableEq, Repr

/-- The DEC registers at reset: all 0 but DEC_ERRBITS = 0xFFFF (R43). -/
def Decoded.reset : Decoded where
  status := { df := 0, long := false, ok := false, ncorr := 0, ap := false, pc := false, cw := false, valid := false }
  aa := 0
  e0 := 0xFF
  e1 := 0xFF
  crcf := 0
  crcc := 0
  frame := 0

/-- The state after reset (R43, R200) of a block with the parameters R1 gives. -/
def State.reset : State where
  params := Params.given
  ctrl := { fix := true, aggr := false, ieDone := false, ieErr := false, ieMsg := false }
  mode := .idle
  done := false
  err := false
  errCode := .noError
  msgOvf := false
  pending := none
  now := 0
  iqLen := 0
  magLen := 0
  scanPos := 0
  audioLen := 0
  lastPhase := 0
  frameIn := 0
  crc := { computed := 0, parity := 0, ok := false, long := false, df := 0 }
  probe := { recent := false, slot := 0 }
  dec := Decoded.reset
  mq := []
  msgDrops := 0
  cache := []
  mem := []
  resp := none
  agenda := []
  draw := 0
  epoch := 0

end Sys2Proof.Machine
end

