-- ==== Sys2Proof/Machine/Flags.lean ====
section
/-!
DEFINITION. The status flags and the words that show them (10_state R16–R18, R27–R30, R34; 60_exceptions R180, R186), and
which commands a mode permits (45_system R171).
-/
namespace Sys2Proof.Machine

/-- STATUS.BUSY: a command is in flight (R18, R42). -/
def State.busy (s : State) : Bool := s.pending.isSome

/-- STATUS.MSGAV: `len(MQ) > 0` (R18). -/
def State.msgav (s : State) : Bool := !s.mq.isEmpty

/-- The interrupt output IRQ, and STATUS.IRQ (R44, R186). -/
def State.irq (s : State) : Bool :=
  (s.done && s.ctrl.ieDone) || (s.err && s.ctrl.ieErr) || (s.msgav && s.ctrl.ieMsg)

/-- The code of an error as ERRCODE holds it (R180). -/
def errCodeBits : ErrCode → BitVec 4
  | .noError => 0
  | .illegal => 1
  | .fftSize => 2
  | .iqLen => 3
  | .decim => 4
  | .mode => 5
  | .busy => 6
  | .bus => 7

/-- The word STATUS reads (R18). -/
def State.statusWord (s : State) : Word :=
  0#20 ++ errCodeBits s.errCode ++ 0#2 ++ BitVec.ofBool s.irq ++ BitVec.ofBool s.msgav ++ BitVec.ofBool s.msgOvf
    ++ BitVec.ofBool s.err ++ BitVec.ofBool s.done ++ BitVec.ofBool s.busy

/-- The word CTRL reads (R16). -/
def ctrlWord (c : Ctrl) : Word :=
  0#21 ++ BitVec.ofBool c.ieMsg ++ BitVec.ofBool c.ieErr ++ BitVec.ofBool c.ieDone ++ 0#6 ++ BitVec.ofBool c.aggr
    ++ BitVec.ofBool c.fix

/-- What a CTRL write stores of its word (R16, R58). -/
def ctrlOfWord (v : Word) : Ctrl where
  fix := v.getLsbD 0
  aggr := v.getLsbD 1
  ieDone := v.getLsbD 8
  ieErr := v.getLsbD 9
  ieMsg := v.getLsbD 10

/-- The word MODE reads (R17). -/
def modeWord : Mode → Word
  | .idle => 0
  | .fm => 1
  | .surv => 3

/-- The mode a word names; the other words are refused (R17). -/
def modeOfWord (v : Word) : Option Mode :=
  match v.toNat with
  | 0 => some .idle
  | 1 => some .fm
  | 3 => some .surv
  | _ => none

/-- A decode status word (R29). -/
def decodeStatusWord (d : DecodeStatus) : Word :=
  0#19 ++ BitVec.ofBool d.valid ++ BitVec.ofBool d.cw ++ BitVec.ofBool d.pc ++ BitVec.ofBool d.ap ++ d.ncorr
    ++ BitVec.ofBool d.ok ++ BitVec.ofBool d.long ++ d.df

/-- The word CRC_RES reads (R27). -/
def crcResWord (c : CrcResult) : Word :=
  0#19 ++ c.df ++ 0#6 ++ BitVec.ofBool c.long ++ BitVec.ofBool c.ok

/-- The word PROBE_RES reads (R28). -/
def probeResWord (p : ProbeResult) : Word := 0#6 ++ p.slot ++ 0#15 ++ BitVec.ofBool p.recent

/-- The word DEC_ERRBITS or MSG_ERRBITS reads (R30, R34). -/
def errbitsWord (d : Decoded) : Word := 0#16 ++ d.e1 ++ d.e0

/-- A 24-bit result with its unused high bits 0 (R58). -/
def word24 (v : Word24) : Word := 0#8 ++ v

/-- Which modes a command may run in (R171). -/
def permitted : Instr → Mode → Bool
  | .nop, _ => true
  | .fft _, _ => true
  | .fmdemod _, m => m == .fm
  | .mag, m => m == .surv
  | .scan, m => m == .surv
  | .crc _, _ => true
  | .decode, m => m == .surv
  | .probe _, _ => true

end Sys2Proof.Machine
end

