-- ==== Sys2Proof/Machine/Ops.lean ====
section
/-!
DEFINITION. The named operations of the block: its buffers as bytes of the register space (20_memory R50–R52), the ICAO
cache (44_decoder R150–R152), the message FIFO (43_detector R130, 45_system R176), raising an error and clearing it
(60_exceptions R181, R185), and the steps every command shares (45_system R170, R173).
-/
namespace Sys2Proof.Machine

/-! ### Buffers as bytes -/

/-- Base offset of the IQ window (20_memory R50). -/
def iqBase : Nat := 0x0400000

/-- Base offset of the MAG window (20_memory R50). -/
def magBase : Nat := 0x0800000

/-- Base offset of the FFT window (20_memory R50). -/
def fftBase : Nat := 0x0C00000

/-- Base offset of the AUDIO window (20_memory R50). -/
def audioBase : Nat := 0x1000000

/-- The canonical form: offsets strictly rising. Every listed cell was written since reset; an unlisted one reads as
`none` here, so no entry equals what an unlisted offset reads as (log 3). -/
abbrev Memory.wf (m : Memory) : Prop := m.Pairwise (fun c d => c.1 < d.1)

/-- The byte written at offset `a` since reset, if any. -/
def Memory.get (m : Memory) (a : Nat) : Option Byte := (m.find? (fun c => c.1 == a)).map (·.2)

/-- The byte of buffer offset `a`: what was written there, else the unspecified contents after reset (20_memory R59). -/
def memByte (epoch : Nat) (m : Memory) (a : Nat) : Byte := (m.get a).getD (Config.powerOnByte epoch a)

/-- The byte of buffer offset `a` in a state. -/
def State.byte (s : State) (a : Nat) : Byte := memByte s.epoch s.mem a

/-- The byte at offset `a` of a memory in canonical form that lists nothing below `a`. -/
def headByte (epoch : Nat) (m : Memory) (a : Nat) : Byte :=
  match m with
  | [] => Config.powerOnByte epoch a
  | c :: _ => if c.1 = a then c.2 else Config.powerOnByte epoch a

/-- The `n` bytes from offset `a` on, in one walk over a memory in canonical form. -/
def memBytes (epoch : Nat) : Memory → Nat → Nat → List Byte
  | _, _, 0 => []
  | m, a, n + 1 =>
    let rest := m.dropWhile (fun c => c.1 < a)
    headByte epoch rest a :: memBytes epoch rest (a + 1) n

/-- The `n` bytes of a state's buffers from offset `a` on. -/
def State.bytes (s : State) (a n : Nat) : List Byte := memBytes s.epoch s.mem a n

/-- The cells of `bs` stored from offset `a` on. -/
def cellsFrom (a : Nat) : List Byte → Memory
  | [] => []
  | b :: bs => (a, b) :: cellsFrom (a + 1) bs

/-- `m` with the bytes `bs` stored from offset `a` on: the one write of the buffers. -/
def Memory.put (m : Memory) (a : Nat) (bs : List Byte) : Memory :=
  m.filter (fun c => c.1 < a) ++ (cellsFrom a bs ++ m.filter (fun c => a + bs.length ≤ c.1))

/-- Store bytes in a state's buffers. -/
def State.putBytes (s : State) (a : Nat) (bs : List Byte) : State := { s with mem := s.mem.put a bs }

/-- The four bytes of a word, lowest offset first (20_memory R52). -/
def bytesOfWord (v : Word) : List Byte :=
  [v.extractLsb' 0 8, v.extractLsb' 8 8, v.extractLsb' 16 8, v.extractLsb' 24 8]

/-- The word at buffer offset `a` (20_memory R52). -/
def State.word (s : State) (a : Nat) : Word := s.byte (a + 3) ++ s.byte (a + 2) ++ s.byte (a + 1) ++ s.byte a

/-! ### Frames -/

/-- Byte `k` of a frame buffer; 0 past its 14 bytes. -/
def frameByte (f : Frame) (k : Nat) : Byte := if k < 14 then f.extractLsb' (8 * (13 - k)) 8 else 0

/-- The register word `k` of a frame (10_state R26): byte `4k+i` in bits `8i+7:8i`, the bits past byte 13 reading 0. -/
def frameWord (f : Frame) (k : Nat) : Word :=
  frameByte f (4 * k + 3) ++ frameByte f (4 * k + 2) ++ frameByte f (4 * k + 1) ++ frameByte f (4 * k)

/-- A frame with byte `k` replaced; no effect past its 14 bytes. -/
def setFrameByte (f : Frame) (k : Nat) (b : Byte) : Frame :=
  if k < 14 then
    (f &&& ~~~(BitVec.ofNat 112 0xFF <<< (8 * (13 - k)))) ||| (b.setWidth 112 <<< (8 * (13 - k)))
  else f

/-- A frame with register word `k` written (10_state R26; bits 31:16 of word 3 are ignored). -/
def setFrameWord (f : Frame) (k : Nat) (v : Word) : Frame :=
  setFrameByte (setFrameByte (setFrameByte (setFrameByte f (4 * k) (v.extractLsb' 0 8)) (4 * k + 1) (v.extractLsb' 8 8))
    (4 * k + 2) (v.extractLsb' 16 8)) (4 * k + 3) (v.extractLsb' 24 8)

/-! ### The ICAO cache -/

/-- One mixing round of the default slot function, modulo 2^32 (44_decoder R150). -/
def hashRound (h : Word) : Word := ((h >>> 16) ^^^ h) * 0x045D9F3B

/-- The default slot function (44_decoder R150). -/
def icaoHash (a : Word24) : Nat :=
  let h := hashRound (hashRound (a.setWidth 32))
  ((h >>> 16) ^^^ h).toNat % Config.icaoSlots

/-- `ICAO_HASH` (44_decoder R150): the default, or some other function into the slot numbers (log 10). -/
def slotOf (p : Params) (a : Word24) : Nat :=
  match p.slotFunction with
  | .default => icaoHash a
  | .other => Config.otherSlot a % Config.icaoSlots

/-- The canonical form of the cache: slots strictly rising, each a slot number. -/
abbrev Cache.wf (c : Cache) : Prop := c.Pairwise (fun x y => x.1 < y.1) ∧ ∀ x ∈ c, x.1 < Config.icaoSlots

/-- Slot `i`, if its VALID is 1. -/
def Cache.slot (c : Cache) (i : Nat) : Option CacheEntry := (c.find? (fun x => x.1 == i)).map (·.2)

/-- Lookup (44_decoder R151): the slot holds this address and its age modulo 2^32 is at most `ICAO_TTL`. -/
def Cache.recent (c : Cache) (p : Params) (now : Word) (a : Word24) : Bool :=
  match c.slot (slotOf p a) with
  | none => false
  | some e => e.addr == a && decide ((now - e.ts).toNat ≤ Config.icaoTtl)

/-- Insert (44_decoder R152): the address's slot takes it and the time, whatever it held. -/
def Cache.insert (c : Cache) (p : Params) (now : Word) (a : Word24) : Cache :=
  let i := slotOf p a
  c.filter (fun x => x.1 < i) ++ (i, { addr := a, ts := now }) :: c.filter (fun x => i < x.1)

/-! ### The message FIFO -/

/-- Append a record, dropping and counting the oldest when the FIFO is full (43_detector R130). -/
def State.pushRecord (s : State) (r : Record) : State :=
  if s.mq.length = s.params.msgDepth then
    { s with mq := s.mq.tail ++ [r], msgDrops := s.msgDrops + 1, msgOvf := true }
  else { s with mq := s.mq ++ [r] }

/-- MSG_POP (45_system R176): remove the oldest record, if there is one. -/
def State.popRecord (s : State) : State := { s with mq := s.mq.tail }

/-! ### Errors: raising one, and the host's clearing of it -/

/-- `raise E` (60_exceptions R181): the block's one "exception". ERRCODE takes the code if ERR was clear, ERR becomes 1,
and nothing else changes; control goes nowhere, since the block has no trap (R184). -/
def State.raise (s : State) (e : ErrCode) : State :=
  { s with errCode := if s.err then s.errCode else e, err := true }

/-- A refused access (20_memory R56): the error is raised and the bus answers the word 0 with an error response. -/
def State.busError (s : State) (e : ErrCode) : State :=
  { s.raise e with resp := some { data := 0, error := true } }

/-- A STATUS write (45_system R175), which is also how the host returns from an error (60_exceptions R185): each of bits
1, 2, 3 set clears DONE, ERR with ERRCODE, MSG_OVF. -/
def State.writeStatus (s : State) (v : Word) : State :=
  { s with
    done := s.done && !v.getLsbD 1
    err := s.err && !v.getLsbD 2
    errCode := if v.getLsbD 2 then .noError else s.errCode
    msgOvf := s.msgOvf && !v.getLsbD 3 }

/-! ### What every command shares -/

/-- A command taken up: BUSY rises and PENDING holds its word (45_system R170). -/
def State.start (s : State) (w : Word) : State := { s with pending := some w }

/-- Completion (45_system R173): PENDING is none, BUSY falls, DONE is set. -/
def State.complete (s : State) : State := { s with pending := none, done := true }

/-- The first issue check a command fails, if any, in the order of R170: illegal, then mode, then the command's own
check `own`. -/
def issueError (i : Instr) (own : Option ErrCode) (s : State) : Option ErrCode :=
  if !i.wellFormed then some .illegal
  else if !permitted i s.mode then some .mode
  else own

/-- A command as R170 and R173 give it, issue to completion in one step: refused with E_BUSY while one is in flight;
refused with its first failed check; else taken up, executed and completed. -/
def runCommand (i : Instr) (own : Option ErrCode) (effect : State → State) (s : State) :
    Host.Outcome State Fault Refusal :=
  if s.busy then .next (s.busError .busy)
  else match issueError i own s with
    | some e => .next (s.raise e)
    | none => .next (effect (s.start (encode i))).complete

end Sys2Proof.Machine
end

