-- ==== Sys2Proof/Machine/Operands.lean ====
section
/-!
DEFINITION. The operand forms of the commands: the checks made at issue (45_system R170) and the buffers as the commands
see them: I/Q pairs, magnitude samples, complex elements, audio samples (10_state R35, R36, R38, R39).
-/
namespace Sys2Proof.Machine

/-- `n` is a power of two. -/
def isPow2 (n : Nat) : Bool := n != 0 && n &&& (n - 1) == 0

/-- The FFT length check (40_spectral R90). -/
def checkFftSize (p : Params) (n : Nat) : Option ErrCode :=
  if n < 2 || !isPow2 n || p.fftNmax < n then some .fftSize else none

/-- The block length check: even and at most IQ_CAP (41_demod R100, 42_magnitude R112). -/
def checkIqLen (s : State) : Option ErrCode :=
  if s.iqLen.toNat % 2 = 1 || s.params.iqCap < s.iqLen.toNat then some .iqLen else none

/-- FMDEMOD's checks: the block length first, then the decimation factor (41_demod R100). -/
def checkFmdemod (f : BitVec 16) (s : State) : Option ErrCode :=
  match checkIqLen s with
  | some e => some e
  | none => if f = 0 then some .decim else none

/-- The frame length CRC uses: `true` for 112 bits (44_decoder R144). -/
def crcLong (lsel : BitVec 2) (df : BitVec 5) : Bool :=
  match lsel.toNat with
  | 0 => df.getLsbD 4
  | 1 => false
  | _ => true

/-- Bytes taken two by two: in-phase, quadrature (10_state R35). -/
def pairsOfBytes : List Byte → List (Byte × Byte)
  | i :: q :: rest => (i, q) :: pairsOfBytes rest
  | _ => []

/-- The I/Q pairs of the current block, `IQ[0 .. IQ_LEN−1]`. -/
def State.iqPairs (s : State) : List (Byte × Byte) := pairsOfBytes (s.bytes iqBase s.iqLen.toNat)

/-- Words of the MAG window as samples: the low 16 bits of each (20_memory R60). -/
def samplesOfBytes : List Byte → List Nat
  | b0 :: b1 :: _ :: _ :: rest => (b1 ++ b0).toNat :: samplesOfBytes rest
  | _ => []

/-- The valid samples of the window, `W[0 .. MAG_LEN−1]` (10_state R36). -/
def State.samples (s : State) : List Nat := samplesOfBytes (s.bytes magBase (4 * s.magLen.toNat))

/-- One sample `W[k]`. -/
def State.sample (s : State) (k : Nat) : BitVec 16 := s.byte (magBase + 4 * k + 1) ++ s.byte (magBase + 4 * k)

/-- The bytes that hold samples from one index on, one word each. -/
def bytesOfSamples : List Nat → List Byte
  | [] => []
  | x :: xs => bytesOfWord (BitVec.ofNat 32 x) ++ bytesOfSamples xs

/-- The eight bytes of a binary64 value, low word first (20_memory R52). -/
def bytesOfF64 (v : F64) : List Byte := bytesOfWord (v.extractLsb' 0 32) ++ bytesOfWord (v.extractLsb' 32 32)

/-- The bytes of consecutive binary64 values. -/
def bytesOfF64s : List F64 → List Byte
  | [] => []
  | v :: vs => bytesOfF64 v ++ bytesOfF64s vs

/-- Bytes taken eight by eight as binary64 values. -/
def f64sOfBytes : List Byte → List F64
  | b0 :: b1 :: b2 :: b3 :: b4 :: b5 :: b6 :: b7 :: rest =>
    (b7 ++ b6 ++ b5 ++ b4 ++ b3 ++ b2 ++ b1 ++ b0) :: f64sOfBytes rest
  | _ => []

/-- A complex element of FX (10_state R38). -/
structure Cplx where
  re : F64
  im : F64
deriving DecidableEq, Repr

/-- Binary64 values taken two by two as complex elements (20_memory R61). -/
def cplxOfF64s : List F64 → List Cplx
  | re :: im :: rest => { re := re, im := im } :: cplxOfF64s rest
  | _ => []

/-- Complex elements as binary64 values. -/
def f64sOfCplx : List Cplx → List F64
  | [] => []
  | x :: xs => x.re :: x.im :: f64sOfCplx xs

/-- `FX[0 .. n−1]`. -/
def State.fx (s : State) (n : Nat) : List Cplx := cplxOfF64s (f64sOfBytes (s.bytes fftBase (16 * n)))

/-- `FX[0 ..]` replaced by `xs` (20_memory R61). -/
def State.putFx (s : State) (xs : List Cplx) : State := s.putBytes fftBase (bytesOfF64s (f64sOfCplx xs))

/-- `AU[0 .. n−1]`. -/
def State.audio (s : State) (n : Nat) : List F64 := f64sOfBytes (s.bytes audioBase (8 * n))

/-- `AU[0 ..]` replaced by `vs` (20_memory R62). -/
def State.putAudio (s : State) (vs : List F64) : State := s.putBytes audioBase (bytesOfF64s vs)

/-- `W[0 ..]` replaced by `xs` (20_memory R60). -/
def State.putSamples (s : State) (xs : List Nat) : State := s.putBytes magBase (bytesOfSamples xs)

end Sys2Proof.Machine
end

