-- ==== Sys2Proof/Machine/Demod.lean ====
section
/-!
DEFINITION. The demodulation family: FMDEMOD (41_demod R100–R106). The discriminator takes ATAN2 as an argument
(00_scope R10).
-/
namespace Sys2Proof.Machine

/-- A byte less the centre 127.5, exact (R101). -/
def debias (b : Byte) : F64 := f64Sub (f64OfNat b.toNat) f64Center

/-- The phase of a pair, `ATAN2(Q, I)` of its de-biased bytes (R101). -/
def pairPhase (atan2 : F64 → F64 → F64) (p : Byte × Byte) : F64 := atan2 (debias p.2) (debias p.1)

/-- The phase difference wrapped at most once towards `(−PI, PI]` (R102). -/
def wrapPhase (d : F64) : F64 :=
  if f64Lt f64Pi d then f64Sub d f64TwoPi
  else if f64Le d (f64Neg f64Pi) then f64Add d f64TwoPi
  else d

/-- The differences `D` of a block and the last phase after it, from the last phase before it (R102, R103). -/
def phaseDiffs (atan2 : F64 → F64 → F64) : F64 → List (Byte × Byte) → List F64 × F64
  | last, [] => ([], last)
  | last, p :: ps =>
    let ph := pairPhase atan2 p
    let rest := phaseDiffs atan2 ph ps
    (wrapPhase (f64Sub ph last) :: rest.1, rest.2)

/-- The boxcar decimator: `n` means of `f` consecutive differences, summed in ascending order from `+0.0` and divided once;
what is left over is dropped (R104). -/
def boxcar (f : Nat) : Nat → List F64 → List F64
  | 0, _ => []
  | n + 1, ds => f64Div ((ds.take f).foldl f64Add 0) (f64OfNat f) :: boxcar f n (ds.drop f)

/-- FMDEMOD's effect (R101–R105): the audio, its length and the last phase. -/
def effectFmdemod (f : BitVec 16) (s : State) : State :=
  let pairs := s.iqPairs
  let d := phaseDiffs f64Atan2 s.lastPhase pairs
  let n := pairs.length / f.toNat
  let t := s.putAudio (boxcar f.toNat n d.1)
  { t with audioLen := BitVec.ofNat 32 n, lastPhase := d.2 }

/-- FMDEMOD (R100). -/
def execFmdemod (f : BitVec 16) (s : State) : Host.Outcome State Fault Refusal :=
  runCommand (.fmdemod f) (checkFmdemod f s) (effectFmdemod f) s

end Sys2Proof.Machine
end

