-- ==== Sys2Proof/Machine/Decoder.lean ====
section
/-!
DEFINITION. The decoder family: the CRC-24, the decode function, and the commands CRC, DECODE and PROBE
(44_decoder R140–R158).
-/
namespace Sys2Proof.Machine

/-! ### The CRC-24 -/

/-- `CRCT`, the table of R140, row by row. -/
def crcTable : List Word24 :=
  [0x3935EA, 0x1C9AF5, 0xF1B77E, 0x78DBBF, 0xC397DB, 0x9E31E9, 0xB0E2F0, 0x587178]
  ++ [0x2C38BC, 0x161C5E, 0x0B0E2F, 0xFA7D13, 0x82C48D, 0xBE9842, 0x5F4C21, 0xD05C14]
  ++ [0x682E0A, 0x341705, 0xE5F186, 0x72F8C3, 0xC68665, 0x9CB936, 0x4E5C9B, 0xD8D449]
  ++ [0x939020, 0x49C810, 0x24E408, 0x127204, 0x093902, 0x049C81, 0xFDB444, 0x7EDA22]
  ++ [0x3F6D11, 0xE04C8C, 0x702646, 0x381323, 0xE3F395, 0x8E03CE, 0x4701E7, 0xDC7AF7]
  ++ [0x91C77F, 0xB719BB, 0xA476D9, 0xADC168, 0x56E0B4, 0x2B705A, 0x15B82D, 0xF52612]
  ++ [0x7A9309, 0xC2B380, 0x6159C0, 0x30ACE0, 0x185670, 0x0C2B38, 0x06159C, 0x030ACE]
  ++ [0x018567, 0xFF38B7, 0x80665F, 0xBFC92B, 0xA01E91, 0xAFF54C, 0x57FAA6, 0x2BFD53]
  ++ [0xEA04AD, 0x8AF852, 0x457C29, 0xDD4410, 0x6EA208, 0x375104, 0x1BA882, 0x0DD441]
  ++ [0xF91024, 0x7C8812, 0x3E4409, 0xE0D800, 0x706C00, 0x383600, 0x1C1B00, 0x0E0D80]
  ++ [0x0706C0, 0x038360, 0x01C1B0, 0x00E0D8, 0x00706C, 0x003836, 0x001C1B, 0xFFF409]
  ++ List.replicate 24 0

/-- The number of bits of a frame: `long` is 112 bits, else 56 (R142). -/
def frameBits (long : Bool) : Nat := if long then 112 else 56

/-- Frame bit `p`, the first on the air being bit 0 (00_scope R5). -/
def fbit (f : Frame) (p : Nat) : Bool := f.getMsbD p

/-- A frame with bit `p` inverted (00_scope R5). -/
def flip (f : Frame) (p : Nat) : Frame := f ^^^ (1#112 <<< (111 - p))

/-- The XOR of the table entries of the frame bits that are 1, from frame bit `p` on (R141). -/
def crcFrom (f : Frame) : Nat → List Word24 → Word24
  | _, [] => 0
  | p, t :: ts => (if fbit f p then t else 0) ^^^ crcFrom f (p + 1) ts

/-- `crc(f, bits)`: a short frame's bit `p` uses entry `p + 56` (R141). -/
def crc24 (f : Frame) (long : Bool) : Word24 := crcFrom f 0 (if long then crcTable else crcTable.drop 56)

/-- `field(f, bits)`: the frame's last three bytes (R143). -/
def parityField (f : Frame) (long : Bool) : Word24 := if long then f.extractLsb' 0 24 else f.extractLsb' 56 24

/-- The syndrome: field ⊕ CRC (R143). -/
def syndrome (f : Frame) (long : Bool) : Word24 := parityField f long ^^^ crc24 f long

/-- The CRC matches: `field(f, bits) = crc(f, bits)`. -/
def crcMatches (f : Frame) (long : Bool) : Bool := parityField f long == crc24 f long

/-! ### The decode function -/

/-- The downlink format of a buffer: the top five bits of byte 0 (R142). -/
def downlinkFormat (f : Frame) : BitVec 5 := f.extractLsb' 107 5

/-- The length the downlink format gives: 112 bits when its bit of value 16 is 1 (R142). -/
def longFormat (df : BitVec 5) : Bool := df.getLsbD 4

/-- The buffer's first `nb` bytes followed by zeros (R145, R156). -/
def frameOf (cf : Frame) (long : Bool) : Frame := if long then cf else (cf >>> 56) <<< 56

/-- Formats 11 and 17 (R145). -/
def selfIdentifying (df : BitVec 5) : Bool := df == 11 || df == 17

/-- The address-parity formats (R148). -/
def addressParity (df : BitVec 5) : Bool :=
  df == 0 || df == 4 || df == 5 || df == 16 || df == 20 || df == 21 || df == 24

/-- Single-bit search: the lowest position whose flip makes the CRC match (R146). -/
def singleSearch (f : Frame) (long : Bool) : Option Nat :=
  (List.range (frameBits long)).find? (fun p => crcMatches (flip f p) long)

/-- Pair search: the first matching pair, outer index below inner index, both ascending (R147). -/
def pairSearch (f : Frame) (long : Bool) : Option (Nat × Nat) :=
  (List.range (frameBits long - 1)).findSome? (fun p =>
    ((List.range' (p + 1) (frameBits long - 1 - p)).find? (fun q => crcMatches (flip (flip f p) q) long)).map
      (fun q => (p, q)))

/-- What matching and correcting a frame found: whether it matches now, the frame, and what was corrected (R145). -/
structure Corrected where
  ok : Bool
  frame : Frame
  ncorr : BitVec 2
  e0 : Byte
  e1 : Byte
deriving DecidableEq, Repr

/-- A frame left as received. -/
def uncorrected (ok : Bool) (f : Frame) : Corrected := { ok := ok, frame := f, ncorr := 0, e0 := 0xFF, e1 := 0xFF }

/-- The match, else the searches that CTRL and the downlink format allow (R145–R147). -/
def correctFrame (c : Ctrl) (df : BitVec 5) (long : Bool) (f : Frame) : Corrected :=
  if crcMatches f long then uncorrected true f
  else if c.fix && selfIdentifying df then
    match singleSearch f long with
    | some p => { ok := true, frame := flip f p, ncorr := 1, e0 := BitVec.ofNat 8 p, e1 := 0xFF }
    | none =>
      if c.aggr && df == 17 then
        match pairSearch f long with
        | some (p, q) =>
          { ok := true, frame := flip (flip f p) q, ncorr := 2, e0 := BitVec.ofNat 8 p, e1 := BitVec.ofNat 8 q }
        | none => uncorrected false f
      else uncorrected false f
  else uncorrected false f

/-- The address (R149): field ⊕ CRC for the address-parity formats, else bytes 1..3 of the final frame. -/
def frameAddress (df : BitVec 5) (long : Bool) (f : Frame) : Word24 :=
  if addressParity df then syndrome f long else f.extractLsb' 80 24

/-- `decode(cf)` (R145): the result. Its cache write is `cacheAfter`. PC is 0 here; SCAN sets it (43_detector R130). -/
def decodeFrame (p : Params) (c : Ctrl) (now : Word) (cache : Cache) (cf : Frame) : Decoded :=
  let df := downlinkFormat cf
  let long := longFormat df
  let r := correctFrame c df long (frameOf cf long)
  let ap := !r.ok && addressParity df && cache.recent p now (syndrome r.frame long)
  let ok := r.ok || ap
  { status := { df := df, long := long, ok := ok, ncorr := r.ncorr, ap := ap, pc := false,
                cw := ok && selfIdentifying df, valid := true }
    aa := frameAddress df long r.frame
    e0 := r.e0
    e1 := r.e1
    crcf := parityField r.frame long
    crcc := crc24 r.frame long
    frame := r.frame }

/-- The cache after a decode: an accepted DF11 or DF17 frame inserts its address, nothing else writes (R153). -/
def cacheAfter (p : Params) (cache : Cache) (now : Word) (d : Decoded) : Cache :=
  if d.status.cw then cache.insert p now d.aa else cache

/-! ### CRC, DECODE, PROBE -/

/-- CRC's effect (R144). -/
def effectCrc (lsel : BitVec 2) (s : State) : State :=
  let df := downlinkFormat s.frameIn
  let long := crcLong lsel df
  { s with crc := { computed := crc24 s.frameIn long, parity := parityField s.frameIn long,
                    ok := crcMatches s.frameIn long, long := long, df := df } }

/-- CRC (R144). -/
def execCrc (lsel : BitVec 2) (s : State) : Host.Outcome State Fault Refusal :=
  runCommand (.crc lsel) none (effectCrc lsel) s

/-- DECODE's effect (R154): the DEC registers, and the cache as `decode` writes it. -/
def effectDecode (s : State) : State :=
  let r := decodeFrame s.params s.ctrl s.now s.cache s.frameIn
  { s with dec := r, cache := cacheAfter s.params s.cache s.now r }

/-- DECODE (R154). -/
def execDecode (s : State) : Host.Outcome State Fault Refusal := runCommand .decode none effectDecode s

/-- PROBE's effect (R155). -/
def effectProbe (a : BitVec 24) (s : State) : State :=
  { s with probe := { recent := s.cache.recent s.params s.now a, slot := BitVec.ofNat 10 (slotOf s.params a) } }

/-- PROBE (R155). -/
def execProbe (a : BitVec 24) (s : State) : Host.Outcome State Fault Refusal :=
  runCommand (.probe a) none (effectProbe a) s

end Sys2Proof.Machine
end

