-- ==== Sys2Proof/Machine/Detector.lean ====
section
/-!
DEFINITION. The detector family: the preamble correlator, the slicer, the phase correction and SCAN
(43_detector R120–R133). Samples are natural numbers (R127, 00_scope R9).
-/
namespace Sys2Proof.Machine

/-- `W[k]`. The tests read valid samples only (R120), so the value past the end is never used. -/
def sampleAt (w : List Nat) (k : Nat) : Nat := w.getD k 0

/-- The ten comparisons of the preamble (R121); `m` is the window from the offset under test on. -/
def patternTest (m : List Nat) : Bool :=
  decide (sampleAt m 0 > sampleAt m 1) && decide (sampleAt m 1 < sampleAt m 2)
    && decide (sampleAt m 2 > sampleAt m 3) && decide (sampleAt m 3 < sampleAt m 0)
    && decide (sampleAt m 4 < sampleAt m 0) && decide (sampleAt m 5 < sampleAt m 0)
    && decide (sampleAt m 6 < sampleAt m 0) && decide (sampleAt m 7 > sampleAt m 8)
    && decide (sampleAt m 8 < sampleAt m 9) && decide (sampleAt m 9 > sampleAt m 6)

/-- `high` (R122). -/
def highLevel (p : Params) (m : List Nat) : Nat :=
  (sampleAt m 0 + sampleAt m 2 + sampleAt m 7 + sampleAt m 9) / p.highDiv

/-- `preamble(j)` (R122): the pattern, and samples 4, 5 and 11..14 below `high`. -/
def preambleTest (p : Params) (m : List Nat) : Bool :=
  patternTest m && [4, 5, 11, 12, 13, 14].all (fun k => decide (sampleAt m k < highLevel p m))

/-- A sliced bit (R123). -/
inductive Slice where
  | zero
  | one
  | amb
deriving DecidableEq, Repr

/-- One bit from its two half-bit samples (R123). -/
def sliceBit (lo hi : Nat) : Slice := if lo > hi then .one else if lo < hi then .zero else .amb

/-- Two samples per bit (R123). -/
def sliceBits : List Nat → List Slice
  | lo :: hi :: rest => sliceBit lo hi :: sliceBits rest
  | _ => []

/-- The ambiguous bits among the first 56 (R124). -/
def ambiguousCount (bits : List Slice) : Nat := (bits.take 56).countP (· == Slice.amb)

/-- `AMBIG_MAX` (R124). -/
def ambigMax (c : Ctrl) : Nat := if c.aggr then Config.ambigMaxAggr else Config.ambigMaxNormal

/-- The packed frame: frame bit `b` is 1 exactly when bit `b` was sliced as 1 (R125). -/
def packBits (bits : List Slice) : Frame :=
  BitVec.ofNat 112 (bits.foldl (fun acc b => 2 * acc + (if b = Slice.one then 1 else 0)) 0)

/-- The out-of-phase test at offset `j ≥ 1` (R126). -/
def outOfPhase (p : Params) (w : List Nat) (j : Nat) : Bool :=
  decide (sampleAt w (j + 3) > sampleAt w (j + 2) / p.oopDiv)
    || decide (sampleAt w (j + 10) > sampleAt w (j + 9) / p.oopDiv)
    || decide (sampleAt w (j + 6) > sampleAt w (j + 7) / p.oopDiv)
    || decide (sampleAt w (j - 1) > sampleAt w (j + 1) / p.oopDiv)

/-- The correction from a bit's first sample `a` on (R127): the next bit's first sample is scaled by 5/4 or 4/5 as this bit
is high-low or not, and is the next `a`. -/
def correctFrom (a : Nat) : List Nat → List Nat
  | b :: c :: rest => a :: b :: correctFrom (if a > b then c * 5 / 4 else c * 4 / 5) rest
  | rest => a :: rest

/-- The corrected copy of a data region (R127). -/
def correctSamples : List Nat → List Nat
  | [] => []
  | a :: rest => correctFrom a rest

/-- The data region at offset `j`: `W[j+PRE .. j+WIN−1]` (R123). -/
def dataRegion (w : List Nat) (j : Nat) : List Nat := (w.drop (j + Config.pre)).take (Config.win - Config.pre)

/-- One attempt on a data region (R128): slice, reject on ambiguity, pack, decode, accept when the decode does. -/
def attempt (region : List Nat) (s : State) : Option Decoded :=
  let bits := sliceBits region
  if ambiguousCount bits > ambigMax s.ctrl then none
  else
    let r := decodeFrame s.params s.ctrl s.now s.cache (packBits bits)
    if r.status.ok then some r else none

/-- The attempts at offset `j`: the uncorrected one, then, when it is rejected and R126 holds, the corrected one with
PC = 1 (R120, R128). -/
def attempts (w : List Nat) (j : Nat) (s : State) : Option Decoded :=
  match attempt (dataRegion w j) s with
  | some r => some r
  | none =>
    if 1 ≤ j && outOfPhase s.params w j then
      (attempt (correctSamples (dataRegion w j)) s).map (fun r => { r with status := { r.status with pc := true } })
    else none

/-- An accepted frame at offset `j`: the decode's cache write (44_decoder R153), then the record (R130). -/
def acceptFrame (r : Decoded) (j : Nat) (s : State) : State :=
  let t := { s with cache := cacheAfter s.params s.cache s.now r }
  t.pushRecord { decoded := r, offset := BitVec.ofNat 32 j }

/-- One turn of the loop at offset `j`: the state and the next offset (R120, R129). -/
def scanOffset (w : List Nat) (j : Nat) (s : State) : State × Nat :=
  if preambleTest s.params (w.drop j) then
    match attempts w j s with
    | some r => (acceptFrame r j s, j + Config.pre + 2 * frameBits r.status.long)
    | none => (s, j + 1)
  else (s, j + 1)

/-- The scan loop over a window of `len` samples (R120). Every turn advances, so `len` turns are enough. -/
def scanLoop (w : List Nat) (len : Nat) : Nat → Nat → State → State × Nat
  | 0, j, s => (s, j)
  | fuel + 1, j, s =>
    if j + Config.win ≤ len then
      let r := scanOffset w j s
      scanLoop w len fuel r.2 r.1
    else (s, j)

/-- SCAN's effect (R120, R131). -/
def effectScan (s : State) : State :=
  let r := scanLoop s.samples s.magLen.toNat s.magLen.toNat s.scanPos.toNat s
  { r.1 with scanPos := BitVec.ofNat 32 r.2 }

/-- SCAN (R120). -/
def execScan (s : State) : Host.Outcome State Fault Refusal := runCommand .scan none effectScan s

end Sys2Proof.Machine
end

