-- ==== Sys2Proof/Machine/Magnitude.lean ====
section
/-!
DEFINITION. The magnitude family: the table MAGLUT and MAG (42_magnitude R110–R114).
-/
namespace Sys2Proof.Machine

/-- Bits `k−1 .. 0` of the integer square root of `n`, above the part `r` already found. -/
def isqrtFrom (n : Nat) : Nat → Nat → Nat
  | 0, r => r
  | k + 1, r => if (r + 2 ^ k) * (r + 2 ^ k) ≤ n then isqrtFrom n k (r + 2 ^ k) else isqrtFrom n k r

/-- The integer square root of `n`, for `n < 2^40`. -/
def isqrt (n : Nat) : Nat := isqrtFrom n 20 0

/-- `MAGLUT[a·129 + b] = ⌊√(a² + b²)·MAG_SCALE + 1/2⌋`, exact (R110): with `x` the square root scaled,
`⌊x + 1/2⌋ = ⌊(⌊2x⌋ + 1)/2⌋`. -/
def magLut (p : Params) (a b : Nat) : Nat := (isqrt (4 * (a * a + b * b) * (p.magScale * p.magScale)) + 1) / 2

/-- A byte's distance from MAG_CENTER (R111). -/
def axis (p : Params) (b : Byte) : Nat := (b.toNat - p.magCenter) + (p.magCenter - b.toNat)

/-- The lookup of a pair (R111). -/
def pairMag (p : Params) (x : Byte × Byte) : Nat := magLut p (axis p x.1) (axis p x.2)

/-- MAG's effect (R112, R113): the last `TL` samples stay in front of the block's magnitudes, and SCAN_POS is rebased by
the samples dropped. -/
def effectMag (s : State) : State :=
  let len := s.magLen.toNat
  let tl := min Config.magTail len
  let dropped := len - tl
  let new := s.iqPairs.map (pairMag s.params)
  let t := s.putSamples (s.samples.drop dropped ++ new)
  { t with
    magLen := BitVec.ofNat 32 (tl + new.length)
    scanPos := BitVec.ofNat 32 (s.scanPos.toNat - dropped) }

/-- MAG (R112). -/
def execMag (s : State) : Host.Outcome State Fault Refusal := runCommand .mag (checkIqLen s) effectMag s

end Sys2Proof.Machine
end

