-- ==== Sys2Proof/Machine/Spectral.lean ====
section
/-!
DEFINITION. The spectral family: FFT (40_spectral R90–R97). The transform takes COS and SIN as arguments (00_scope R10).
-/
namespace Sys2Proof.Machine

/-- The `r`-bit reversal of `i`: bit `b` becomes bit `r−1−b` (R91). -/
def bitReverse : Nat → Nat → Nat
  | 0, _ => 0
  | r + 1, i => (i % 2) * 2 ^ r + bitReverse r (i / 2)

/-- Step 1 (R91): the swaps of every `i` with `rev(i)`, which leave element `rev(i)` at place `i`. Bit patterns move, no
arithmetic is done. -/
def bitReversePermute (r : Nat) (xs : List Cplx) : List Cplx :=
  (List.range xs.length).map (fun i => xs.getD (bitReverse r i) { re := 0, im := 0 })

/-- Complex product in the written order of R93: `(a.re·b.re − a.im·b.im, a.re·b.im + a.im·b.re)`. -/
def cplxMul (a b : Cplx) : Cplx where
  re := f64Sub (f64Mul a.re b.re) (f64Mul a.im b.im)
  im := f64Add (f64Mul a.re b.im) (f64Mul a.im b.re)

/-- Complex sum, one rounding per part (R93). -/
def cplxAdd (a b : Cplx) : Cplx where
  re := f64Add a.re b.re
  im := f64Add a.im b.im

/-- Complex difference, one rounding per part (R93). -/
def cplxSub (a b : Cplx) : Cplx where
  re := f64Sub a.re b.re
  im := f64Sub a.im b.im

/-- The butterflies of one block (R93): `us` its first half, `ts` its second, `w` the rolling twiddle. DESIGN
CHOICE (log 14): where COS and SIN let `w` overflow, the products are IEEE 754's, also of zeros, against R95 (d). -/
def butterflies (wlen : Cplx) : Cplx → List Cplx → List Cplx → List Cplx × List Cplx
  | w, u :: us, t :: ts =>
    let v := cplxMul t w
    let rest := butterflies wlen (cplxMul w wlen) us ts
    (cplxAdd u v :: rest.1, cplxSub u v :: rest.2)
  | _, _, _ => ([], [])

/-- One block of `2·h` elements, its twiddle restarting at `(1.0, 0.0)` (R93). -/
def fftBlock (wlen : Cplx) (h : Nat) (xs : List Cplx) : List Cplx :=
  let r := butterflies wlen { re := f64One, im := 0 } (xs.take h) (xs.drop h)
  r.1 ++ r.2

/-- The first `n` blocks of a stage, in ascending order (R93). -/
def fftBlocks (wlen : Cplx) (h : Nat) : Nat → List Cplx → List Cplx
  | 0, xs => xs
  | n + 1, xs => fftBlock wlen h (xs.take (2 * h)) ++ fftBlocks wlen h n (xs.drop (2 * h))

/-- The base twiddle of the stage of size `len`: `(COS(ang), SIN(ang))` with `ang = −TWO_PI / len` (R92). -/
def baseTwiddle (cos sin : F64 → F64) (len : Nat) : Cplx :=
  let ang := f64Div (f64Neg f64TwoPi) (f64OfNat len)
  { re := cos ang, im := sin ang }

/-- The stage of size `len = 2^(k+1)` (R92, R93). -/
def fftStage (cos sin : F64 → F64) (xs : List Cplx) (k : Nat) : List Cplx :=
  fftBlocks (baseTwiddle cos sin (2 ^ (k + 1))) (2 ^ k) (xs.length / 2 ^ (k + 1)) xs

/-- The transform of `2^r` elements: the permutation, then the stages `len = 2, 4, …, 2^r` in that order (R91–R93). -/
def fftTransform (cos sin : F64 → F64) (r : Nat) (xs : List Cplx) : List Cplx :=
  (List.range r).foldl (fftStage cos sin) (bitReversePermute r xs)

/-- FFT's effect: `FX[0 .. N−1]` replaced by its transform (R90, R94). -/
def effectFft (n : BitVec 24) (s : State) : State :=
  s.putFx (fftTransform f64Cos f64Sin n.toNat.log2 (s.fx n.toNat))

/-- FFT (R90). -/
def execFft (n : BitVec 24) (s : State) : Host.Outcome State Fault Refusal :=
  runCommand (.fft n) (checkFftSize s.params n.toNat) (effectFft n) s

end Sys2Proof.Machine
end

