-- ==== Sys2Proof/Machine/System.lean ====
section
/-!
DEFINITION. The system family: NOP (45_system R172).
-/
namespace Sys2Proof.Machine

/-- NOP's effect: none besides completion (R172). -/
def effectNop (s : State) : State := s

/-- NOP (R172). -/
def execNop (s : State) : Host.Outcome State Fault Refusal := runCommand .nop none effectNop s

end Sys2Proof.Machine
end

