-- ==== Sys2Proof/Machine/Dispatch.lean ====
section
/-!
DEFINITION. The meaning of each command (30_encoding R71), one arm per constructor.
-/
namespace Sys2Proof.Machine

def exec (i : Instr) (s : State) : Host.Outcome State Fault Refusal :=
  match i with
  | .nop => Sys2Proof.Machine.execNop s
  | .fft n => Sys2Proof.Machine.execFft n s
  | .fmdemod f => Sys2Proof.Machine.execFmdemod f s
  | .mag => Sys2Proof.Machine.execMag s
  | .scan => Sys2Proof.Machine.execScan s
  | .crc lsel => Sys2Proof.Machine.execCrc lsel s
  | .decode => Sys2Proof.Machine.execDecode s
  | .probe a => Sys2Proof.Machine.execProbe a s

end Sys2Proof.Machine
end

