-- ==== Sys2Proof/Machine/Sequencer.lean ====
section
/-!
DEFINITION. A command in two steps, its issue and its completion, with BUSY = 1 between them (45_system R170, R173;
20_memory R64). `exec` is the same command in one step.
-/
namespace Sys2Proof.Machine

/-- A command's own issue check (45_system R170). -/
def ownCheck : Instr → State → Option ErrCode
  | .nop, _ => none
  | .fft n, s => checkFftSize s.params n.toNat
  | .fmdemod f, s => checkFmdemod f s
  | .mag, s => checkIqLen s
  | .scan, _ => none
  | .crc _, _ => none
  | .decode, _ => none
  | .probe _, _ => none

/-- A command's effect, as one atomic step (00_scope R11). -/
def commandEffect : Instr → State → State
  | .nop, s => effectNop s
  | .fft n, s => effectFft n s
  | .fmdemod f, s => effectFmdemod f s
  | .mag, s => effectMag s
  | .scan, s => effectScan s
  | .crc lsel, s => effectCrc lsel s
  | .decode, s => effectDecode s
  | .probe a, s => effectProbe a s

/-- The issue alone (45_system R170 up to `PENDING <- v`): the command is refused, or is in flight. -/
def issue (i : Instr) (s : State) : State :=
  if s.busy then s.busError .busy
  else match issueError i (ownCheck i s) s with
    | some e => s.raise e
    | none => s.start (encode i)

/-- The sequencer executes and completes the command in flight (45_system R170, R173); with none in flight it does
nothing. -/
def finish (s : State) : Host.Outcome State Fault Refusal :=
  match s.pending with
  | none => .next s
  | some w =>
    match decode w with
    | .error _ => .fault .pendingIllegal
    | .ok i => .next (commandEffect i s).complete

end Sys2Proof.Machine
end

