-- ==== Sys2Proof/Machine/Bus.lean ====
section
/-!
DEFINITION. The host bus: the register map (10_state R14), the windows (20_memory R50, R51, R59–R62), which accesses are
refused and with which code (20_memory R53–R57, R64; 60_exceptions R183), and what reads return and writes do.
-/
namespace Sys2Proof.Machine

/-- The registers of R14; the numbered ones by their word index. -/
inductive Reg where
  | id
  | capIq
  | capFft
  | capMsg
  | ctrl
  | mode
  | status
  | cmd
  | now
  | iqLen
  | magLen
  | scanPos
  | audioLen
  | lastPhaseLo
  | lastPhaseHi
  | frameIn (k : Fin 4)
  | crcCalc
  | crcField
  | crcRes
  | probeRes
  | decStatus
  | decAa
  | decErrbits
  | decCrcf
  | decCrcc
  | decFrame (k : Fin 4)
  | msgCount
  | msgPop
  | msgDrops
  | msgStatus
  | msgAa
  | msgErrbits
  | msgCrcf
  | msgCrcc
  | msgOffset
  | msgFrame (k : Fin 4)
deriving DecidableEq, Repr

/-- The register map of R14. -/
def regMap : List (Nat × Reg) :=
  [(0x000, .id), (0x004, .capIq), (0x008, .capFft), (0x00C, .capMsg), (0x010, .ctrl), (0x014, .mode),
   (0x018, .status), (0x01C, .cmd), (0x020, .now), (0x024, .iqLen), (0x028, .magLen), (0x02C, .scanPos)]
  ++ [(0x030, .audioLen), (0x034, .lastPhaseLo), (0x038, .lastPhaseHi), (0x040, .frameIn 0), (0x044, .frameIn 1),
   (0x048, .frameIn 2), (0x04C, .frameIn 3), (0x050, .crcCalc), (0x054, .crcField), (0x058, .crcRes)]
  ++ [(0x05C, .probeRes), (0x060, .decStatus), (0x064, .decAa), (0x068, .decErrbits), (0x06C, .decCrcf),
   (0x070, .decCrcc), (0x080, .decFrame 0), (0x084, .decFrame 1), (0x088, .decFrame 2), (0x08C, .decFrame 3)]
  ++ [(0x090, .msgCount), (0x094, .msgPop), (0x098, .msgDrops), (0x0A0, .msgStatus), (0x0A4, .msgAa),
   (0x0A8, .msgErrbits), (0x0AC, .msgCrcf), (0x0B0, .msgCrcc), (0x0B4, .msgOffset), (0x0C0, .msgFrame 0)]
  ++ [(0x0C4, .msgFrame 1), (0x0C8, .msgFrame 2), (0x0CC, .msgFrame 3)]

/-- The register at an offset, none where the map has none (R14, 20_memory R55). -/
def regAt (a : Nat) : Option Reg := (regMap.find? (fun r => r.1 == a)).map (·.2)

/-- What stands at an offset: a register, or a place of a window relative to the window's base. -/
inductive Place where
  | reg (r : Reg)
  | iq (i : Nat)
  | mag (i : Nat)
  | fft (i : Nat)
  | audio (i : Nat)
deriving DecidableEq, Repr

/-- The register space (20_memory R50, R51): registers, the backed part of each window, and nothing elsewhere. -/
def placeAt (p : Params) (a : Nat) : Option Place :=
  if a < 0x100 then (regAt a).map .reg
  else if iqBase ≤ a ∧ a < iqBase + p.iqCap then some (.iq (a - iqBase))
  else if magBase ≤ a ∧ a < magBase + 4 * p.magCap then some (.mag (a - magBase))
  else if fftBase ≤ a ∧ a < fftBase + 16 * p.fftNmax then some (.fft (a - fftBase))
  else if audioBase ≤ a ∧ a < audioBase + 8 * p.audioCap then some (.audio (a - audioBase))
  else none

/-- Read-only places: a write there is refused (20_memory R57). -/
def Place.readOnly : Place → Bool
  | .reg .ctrl => false
  | .reg .mode => false
  | .reg .status => false
  | .reg .cmd => false
  | .reg .now => false
  | .reg .iqLen => false
  | .reg (.frameIn _) => false
  | .reg .msgPop => false
  | .reg _ => true
  | .iq _ => false
  | .mag _ => true
  | .fft _ => false
  | .audio _ => true

/-- Places whose read returns their value while a command runs (20_memory R64 (c)). -/
def Place.readableWhileBusy : Place → Bool
  | .reg .id => true
  | .reg .capIq => true
  | .reg .capFft => true
  | .reg .capMsg => true
  | .reg .ctrl => true
  | .reg .mode => true
  | .reg .status => true
  | .reg .now => true
  | .reg .iqLen => true
  | .reg (.frameIn _) => true
  | .reg _ => false
  | .iq _ => true
  | .mag _ => false
  | .fft _ => false
  | .audio _ => false

/-- A field of the oldest record, 0 when there is none (10_state R34). -/
def State.headWord (s : State) (field : Record → Word) : Word :=
  match s.mq with
  | [] => 0
  | r :: _ => field r

/-- The word a register reads (10_state R15–R34). -/
def State.regWord (s : State) : Reg → Word
  | .id => 0x4C525331
  | .capIq => BitVec.ofNat 32 s.params.iqCap
  | .capFft => BitVec.ofNat 32 s.params.fftNmax
  | .capMsg => BitVec.ofNat 32 s.params.msgDepth
  | .ctrl => ctrlWord s.ctrl
  | .mode => modeWord s.mode
  | .status => s.statusWord
  | .cmd => 0
  | .now => s.now
  | .iqLen => s.iqLen
  | .magLen => s.magLen
  | .scanPos => s.scanPos
  | .audioLen => s.audioLen
  | .lastPhaseLo => s.lastPhase.extractLsb' 0 32
  | .lastPhaseHi => s.lastPhase.extractLsb' 32 32
  | .frameIn k => frameWord s.frameIn k
  | .crcCalc => word24 s.crc.computed
  | .crcField => word24 s.crc.parity
  | .crcRes => crcResWord s.crc
  | .probeRes => probeResWord s.probe
  | .decStatus => decodeStatusWord s.dec.status
  | .decAa => word24 s.dec.aa
  | .decErrbits => errbitsWord s.dec
  | .decCrcf => word24 s.dec.crcf
  | .decCrcc => word24 s.dec.crcc
  | .decFrame k => frameWord s.dec.frame k
  | .msgCount => BitVec.ofNat 32 s.mq.length
  | .msgPop => 0
  | .msgDrops => s.msgDrops
  | .msgStatus => s.headWord (fun r => decodeStatusWord r.decoded.status)
  | .msgAa => s.headWord (fun r => word24 r.decoded.aa)
  | .msgErrbits => s.headWord (fun r => errbitsWord r.decoded)
  | .msgCrcf => s.headWord (fun r => word24 r.decoded.crcf)
  | .msgCrcc => s.headWord (fun r => word24 r.decoded.crcc)
  | .msgOffset => s.headWord (fun r => r.offset)
  | .msgFrame k => s.headWord (fun r => frameWord r.decoded.frame k)

/-- The free word of a read the spec leaves unspecified (log 4). -/
def State.freeWord (s : State) (offset : Word) : Word := Config.freeWord s.draw offset.toNat

/-- The word a window reads while no command runs (20_memory R59–R62); past MAG_LEN and AUDIO_LEN it is unspecified. -/
def State.windowWord (s : State) (offset : Word) : Place → Word
  | .reg r => s.regWord r
  | .iq i => s.word (iqBase + i)
  | .mag i => if i / 4 < s.magLen.toNat then (s.sample (i / 4)).setWidth 32 else s.freeWord offset
  | .fft i => s.word (fftBase + i)
  | .audio i => if i / 8 < s.audioLen.toNat then s.word (audioBase + i) else s.freeWord offset

/-- The word a read of a place returns (20_memory R63, R64 (c), (d)). -/
def State.placeWord (s : State) (offset : Word) (p : Place) : Word :=
  if s.busy && !p.readableWhileBusy then s.freeWord offset else s.windowWord offset p

/-- A MODE write (45_system R174): a legal value switches and resets the pipeline, any other word raises E_MODE. -/
def State.writeMode (s : State) (v : Word) : State :=
  match modeOfWord v with
  | none => s.raise .mode
  | some m => { s with mode := m, lastPhase := 0, scanPos := 0, magLen := 0, iqLen := 0, audioLen := 0 }

/-- A CMD write (45_system R170): an illegal word raises E_ILLEGAL; a command runs to completion in this step, or with
`held` stays in flight. -/
def issueWord (held : Bool) (v : Word) (s : State) : Host.Outcome State Fault Refusal :=
  match decode v with
  | .error _ => .next (s.raise .illegal)
  | .ok i => if held then .next (issue i s) else exec i s

/-- An accepted write (20_memory R59, R61; 45_system R170, R174–R177). Read-only places are refused before. -/
def writePlace (held : Bool) (p : Place) (v : Word) (s : State) : Host.Outcome State Fault Refusal :=
  match p with
  | .reg .ctrl => .next { s with ctrl := ctrlOfWord v }
  | .reg .mode => .next (s.writeMode v)
  | .reg .status => .next (s.writeStatus v)
  | .reg .cmd => issueWord held v s
  | .reg .now => .next { s with now := v }
  | .reg .iqLen => .next { s with iqLen := v }
  | .reg (.frameIn k) => .next { s with frameIn := setFrameWord s.frameIn k v }
  | .reg .msgPop => .next s.popRecord
  | .reg _ => .next s
  | .iq i => .next (s.putBytes (iqBase + i) (bytesOfWord v))
  | .mag _ => .next s
  | .fft i => .next (s.putBytes (fftBase + i) (bytesOfWord v))
  | .audio _ => .next s

/-- The place an access is for, none where R53–R55 refuse it: another width than 32 bits, a write with a lane disabled, an
offset that is no multiple of 4 or is unmapped. -/
def Access.place (a : Access) (p : Params) : Option Place :=
  if a.width ≠ 32 then none
  else if a.kind = .write ∧ a.lanes ≠ 0xF then none
  else if a.offset.toNat % 4 ≠ 0 then none
  else placeAt p a.offset.toNat

/-- The code a write to a place is refused with, if any: E_BUS for a read-only place, else E_BUSY while a command runs,
STATUS excepted (20_memory R57, R64; 60_exceptions R183). -/
def State.writeRefusal (s : State) (p : Place) : Option ErrCode :=
  if p.readOnly then some .bus
  else if s.busy && p != .reg .status then some .busy
  else none

/-- The bus answers a word without error. -/
def State.respond (s : State) (v : Word) : State := { s with resp := some { data := v, error := false } }

/-- One host access (20_memory R53–R64, 60_exceptions R183). -/
def hostAccess (held : Bool) (a : Access) (s : State) : Host.Outcome State Fault Refusal :=
  match a.place s.params with
  | none => .next (s.busError .bus)
  | some p =>
    match a.kind with
    | .read => .next (s.respond (s.placeWord a.offset p))
    | .write =>
      match s.writeRefusal p with
      | some e => .next (s.busError e)
      | none => writePlace held p a.data (s.respond 0)

/-- Later unspecified words are drawn afresh (log 4). -/
def State.redraw (s : State) : State := { s with draw := s.draw + 1 }

/-- A host's turn. Repeating a read while no command runs and no write intervenes returns the same word (20_memory R63), so
such a read alone draws nothing. -/
def hostTurn (held : Bool) (a : Access) (s : State) : Host.Outcome State Fault Refusal :=
  if a.kind = .read ∧ s.busy = false then hostAccess held a s else hostAccess held a s.redraw

/-- The sequencer's turn: with no command in flight nothing happens, and nothing is drawn (20_memory R63). -/
def sequencerTurn (s : State) : Host.Outcome State Fault Refusal := if s.busy then finish s.redraw else .next s

/-- Reset (70_reset R200): every piece of state at its reset value, the buffers' contents unspecified anew (R201). The
parameters the block is built with stay, and what is still to come from outside. -/
def resetTurn (s : State) : State :=
  { State.reset with params := s.params, agenda := s.agenda, draw := s.draw + 1, epoch := s.epoch + 1 }

/-- A turn of the agenda. -/
def takeTurn (t : Turn) (s : State) : Host.Outcome State Fault Refusal :=
  match t with
  | .host a => hostTurn false a s
  | .hostHeld a => hostTurn true a s
  | .sequencer => sequencerTurn s
  | .reset => .next (resetTurn s)

/-- The access that issues command word `v`: a whole-word write of CMD (10_state R19). -/
def cmdWrite (v : Word) : Access := { kind := .write, offset := 0x01C, width := 32, lanes := 0xF, data := v }

end Sys2Proof.Machine
end

