-- ==== Sys2Proof/Machine/Step.lean ====
section
/-!
DEFINITION. One step of the block (logs 1, 2): the agenda's next turn; with no turn left, a command in flight completes
(70_reset R212) and an idle block stays as it is (70_reset R200).
-/
namespace Sys2Proof.Machine

/-- One step. -/
def step (s : State) : Host.Outcome State Fault Refusal :=
  match s.agenda with
  | [] => if s.busy then sequencerTurn s else .next s
  | t :: rest => takeTurn t { s with agenda := rest }

/-- `s` with the command of table word `w` as the next thing that happens: the host's write of it to CMD stands first in
the agenda and no command is in flight (log 1). -/
def State.withFetchWord (s : State) (nbits w : Nat) : State :=
  { s with pending := none, agenda := .host (cmdWrite (BitVec.ofNat 32 (w % 2 ^ nbits))) :: s.agenda }

end Sys2Proof.Machine
end

