-- ==== Sys2Proof/Safety.lean ====
section
/-!
DEFINITION. The terms statements use: host accesses and what they leave, the spec's own lists of offsets and illegal words,
the rolling twiddle, the value and the rounding of a binary64, which command a step executes, and the invariant that every reachable state meets.
-/
namespace Sys2Proof.Machine

/-! ### Host accesses and what they leave -/

/-- `MemRead(o, 4)` (00_scope R7). -/
def readOf (o : Nat) : Access := { kind := .read, offset := BitVec.ofNat 32 o, width := 32, lanes := 0xF, data := 0 }

/-- `MemWrite(o, 4, v)` (00_scope R7). -/
def writeOf (o : Nat) (v : Word) : Access :=
  { kind := .write, offset := BitVec.ofNat 32 o, width := 32, lanes := 0xF, data := v }

/-- A turn in which the host makes the access `a`. -/
def Turn.isAccess (x : Turn) (a : Access) : Prop := x = .host a ∨ x = .hostHeld a

/-- The model's own bookkeeping of an access: its turn is over, and all but a read by an idle block's host draws anew. -/
def State.tookTurn (s : State) (rest : List Turn) (a : Access) : State :=
  { s with agenda := rest, draw := if a.kind = .read ∧ s.busy = false then s.draw else s.draw + 1 }

/-- The access answered with `v` and no error, nothing else changed. -/
def State.answered (s : State) (rest : List Turn) (a : Access) (v : Word) : State :=
  { s.tookTurn rest a with resp := some { data := v, error := false } }

/-- An error recorded as 60_exceptions R181 says, nothing else changed. -/
def State.recorded (s : State) (e : ErrCode) : State :=
  { s with err := true, errCode := if s.err = true then s.errCode else e }

/-- The access refused with a bus error of code `e`, nothing else changed (20_memory R56). -/
def State.refusedAccess (s : State) (rest : List Turn) (a : Access) (e : ErrCode) : State :=
  { (s.tookTurn rest a).recorded e with resp := some { data := 0, error := true } }

/-! ### The spec's lists -/

/-- The words R73 and R74 call illegal. -/
def illegalWord (v : Word) : Prop :=
  8 ≤ v.toNat / 2 ^ 24
    ∨ (v.toNat / 2 ^ 24 ∈ [0, 3, 4, 6] ∧ v.toNat % 2 ^ 24 ≠ 0)
    ∨ (v.toNat / 2 ^ 24 = 2 ∧ v.toNat % 2 ^ 24 / 2 ^ 16 ≠ 0)
    ∨ (v.toNat / 2 ^ 24 = 5 ∧ (v.toNat % 2 ^ 24 / 4 ≠ 0 ∨ v.toNat % 4 = 3))

/-- The word offsets a host may write while the block is idle (10_state R14; 20_memory R50, R51). -/
def writableOffset (p : Params) (o : Nat) : Prop :=
  o ∈ [0x010, 0x014, 0x018, 0x01C, 0x020, 0x024, 0x040, 0x044, 0x048, 0x04C, 0x094]
    ∨ (o % 4 = 0 ∧ 0x0400000 ≤ o ∧ o < 0x0400000 + p.iqCap)
    ∨ (o % 4 = 0 ∧ 0x0C00000 ≤ o ∧ o < 0x0C00000 + 16 * p.fftNmax)

/-- The read-only word offsets (10_state R14; 20_memory R57). -/
def readOnlyOffset (p : Params) (o : Nat) : Prop :=
  o ∈ [0x000, 0x004, 0x008, 0x00C, 0x028, 0x02C, 0x030, 0x034, 0x038, 0x050, 0x054, 0x058, 0x05C]
    ∨ o ∈ [0x060, 0x064, 0x068, 0x06C, 0x070, 0x080, 0x084, 0x088, 0x08C, 0x090, 0x098]
    ∨ o ∈ [0x0A0, 0x0A4, 0x0A8, 0x0AC, 0x0B0, 0x0B4, 0x0C0, 0x0C4, 0x0C8, 0x0CC]
    ∨ (o % 4 = 0 ∧ 0x0800000 ≤ o ∧ o < 0x0800000 + 4 * (239 + p.iqCap / 2))
    ∨ (o % 4 = 0 ∧ 0x1000000 ≤ o ∧ o < 0x1000000 + 8 * (p.iqCap / 2))

/-- The offsets R55 calls unmapped: reserved register offsets, the gaps of R50 and what lies past a window's backed limit
(R51). -/
def unmappedOffset (p : Params) (o : Nat) : Prop :=
  o ∈ [0x03C, 0x074, 0x078, 0x07C, 0x09C, 0x0B8, 0x0BC]
    ∨ (0x0D0 ≤ o ∧ o < 0x0400000)
    ∨ (0x0400000 + p.iqCap ≤ o ∧ o < 0x0800000)
    ∨ (0x0800000 + 4 * (239 + p.iqCap / 2) ≤ o ∧ o < 0x0C00000)
    ∨ (0x0C00000 + 16 * p.fftNmax ≤ o ∧ o < 0x1000000)
    ∨ 0x1000000 + 8 * (p.iqCap / 2) ≤ o

/-- The offsets whose read returns their value while a command runs (20_memory R64 (c)). -/
def readableBusyOffset (p : Params) (o : Nat) : Prop :=
  o ∈ [0x000, 0x004, 0x008, 0x00C, 0x010, 0x014, 0x018, 0x020, 0x024, 0x040, 0x044, 0x048, 0x04C]
    ∨ (o % 4 = 0 ∧ 0x0400000 ≤ o ∧ o < 0x0400000 + p.iqCap)

/-- An IQ_LEN that FMDEMOD and MAG accept: even and at most IQ_CAP (41_demod R100, 42_magnitude R112). -/
def legalIqLen (p : Params) (v : Word) : Prop := v.toNat % 2 = 0 ∧ v.toNat ≤ p.iqCap

/-- The length FFT accepts: a power of two from 2 to FFT_NMAX (40_spectral R90). -/
def legalFftLen (p : Params) (n : Nat) : Prop := ∃ r, 1 ≤ r ∧ n = 2 ^ r ∧ n ≤ p.fftNmax

/-- The twiddle before butterfly `jj` of a block (40_spectral R93): 1, then times the base twiddle at each butterfly. -/
def rollingTwiddle (wlen : Cplx) : Nat → Cplx
  | 0 => { re := f64One, im := 0 }
  | jj + 1 => cplxMul (rollingTwiddle wlen jj) wlen

/-- The decode status word as R154 writes it, with the fields of R29 it leaves to records. -/
def statusFormula (d : DecodeStatus) : Word :=
  d.df.setWidth 32 ||| ((BitVec.ofBool d.long).setWidth 32 <<< 5) ||| ((BitVec.ofBool d.ok).setWidth 32 <<< 6)
    ||| (d.ncorr.setWidth 32 <<< 7) ||| ((BitVec.ofBool d.ap).setWidth 32 <<< 9)
    ||| ((BitVec.ofBool d.pc).setWidth 32 <<< 10) ||| ((BitVec.ofBool d.cw).setWidth 32 <<< 11)
    ||| ((BitVec.ofBool d.valid).setWidth 32 <<< 12)

/-- A field of the oldest record, 0 when there is none (10_state R34). -/
def headOr (q : List Record) (field : Record → Word) : Word := (q.head?.map field).getD 0

/-- `x^n mod G(x)` over GF(2), bit `k` the coefficient of `x^k` (44_decoder R140): at each power a shift, and the subtraction
of `G = 0x1FFF409` when a coefficient of `x^24` appears. -/
def xPowMod : Nat → Word24
  | 0 => 1
  | n + 1 => if (xPowMod n).msb = true then (xPowMod n <<< 1) ^^^ 0xFFF409 else xPowMod n <<< 1

/-- The magnitude of a finite binary64 in units of `2^−1074`, the least subnormal (00_scope R10): of the fraction `f` and the
exponent field `e`, `f` when `e = 0`, else `(2^52 + f)·2^(e−1)`. -/
def f64Units (a : F64) : Nat :=
  if f64ExpField a = 0 then f64Frac a else (2 ^ 52 + f64Frac a) * 2 ^ (f64ExpField a - 1)

/-- The value of a finite binary64 in units of `2^−1074`. -/
def f64Value (a : F64) : Int := if f64Sign a = true then -(f64Units a : Int) else (f64Units a : Int)

/-- `r` is the binary64 of sign `sign` nearest to the magnitude `x/d` in units of `2^−1074` (00_scope R10): an infinity when
`x/d` is at least the largest finite value and half its last place, `(2^54 − 1)·2^2044`; else a finite value that no other is
nearer than, of even significand when another is as near. -/
def f64Rounded (r : F64) (sign : Bool) (x d : Nat) : Prop :=
  if (2 ^ 54 - 1) * 2 ^ 2044 * d ≤ x then r = f64Inf sign
  else f64Sign r = sign ∧ f64IsFinite r = true ∧ ∀ c : F64, f64IsFinite c = true →
    ((f64Units r * d : Nat) - (x : Int)).natAbs ≤ ((f64Units c * d : Nat) - (x : Int)).natAbs ∧
    (((f64Units r * d : Nat) - (x : Int)).natAbs = ((f64Units c * d : Nat) - (x : Int)).natAbs →
      f64Units c ≠ f64Units r → f64Frac r % 2 = 0)

/-- The formats R148 and R149 name. -/
def addressParityFormats : List Nat := [0, 4, 5, 16, 20, 21, 24]

/-! ### What a step executes -/

/-- The command in flight, if PENDING holds one. -/
def State.inFlight (s : State) : Option Instr := s.pending.bind (fun w => (decode w).toOption)

/-- The command a step executes: the one in flight on a sequencer's turn or when no turn is left, or the one an idle block
is given by a host's turn that writes CMD. -/
def State.running (s : State) : Option Instr :=
  match s.agenda with
  | [] => s.inFlight
  | .sequencer :: _ => s.inFlight
  | .host a :: _ =>
    if s.busy = false ∧ a.place s.params = some (.reg .cmd) ∧ a.kind = .write then (decode a.data).toOption else none
  | .hostHeld _ :: _ => none
  | .reset :: _ => none

/-- The access the next turn makes, if it is the host's. -/
def State.nextAccess (s : State) : Option Access :=
  match s.agenda with
  | .host a :: _ => some a
  | .hostHeld a :: _ => some a
  | _ => none

/-! ### The invariant -/

/-- An offset of a word inside the backed part of a window (20_memory R51). The last word of the IQ window is whole, as R59
writes it, when IQ_CAP is no multiple of 4 (log 10). -/
def backedOffset (p : Params) (a : Nat) : Prop :=
  (iqBase ≤ a ∧ a < iqBase + 4 * ((p.iqCap + 3) / 4)) ∨ (magBase ≤ a ∧ a < magBase + 4 * p.magCap)
    ∨ (fftBase ≤ a ∧ a < fftBase + 16 * p.fftNmax) ∨ (audioBase ≤ a ∧ a < audioBase + 8 * p.audioCap)

/-- What every reachable state of the block meets. -/
structure State.Inv (s : State) : Prop where
  /-- The parameters are within R1's bounds. -/
  paramsLegal : s.params.legal
  /-- The buffers are in canonical form. -/
  memWf : s.mem.wf
  /-- Only backed offsets hold bytes (20_memory R51). -/
  memBacked : ∀ c ∈ s.mem, backedOffset s.params c.1
  /-- The cache is in canonical form. -/
  cacheWf : s.cache.wf
  /-- An address stands in its own slot (44_decoder R152). -/
  cacheSlots : ∀ x ∈ s.cache, slotOf s.params x.2.addr = x.1
  /-- `SCAN_POS ≤ MAG_LEN` (10_state R23, 43_detector R131). -/
  scanPosLe : s.scanPos.toNat ≤ s.magLen.toNat
  /-- `MAG_LEN ≤ MAG_CAP` (10_state R22). -/
  magLenLe : s.magLen.toNat ≤ s.params.magCap
  /-- `AUDIO_LEN ≤ AUDIO_CAP` (10_state R24, R39). -/
  audioLenLe : s.audioLen.toNat ≤ s.params.audioCap
  /-- `len(MQ) ≤ MSG_DEPTH` (10_state R32, R37). -/
  mqLength : s.mq.length ≤ s.params.msgDepth
  /-- Every record has VALID = 1 and OK = 1 (10_state R37). -/
  mqRecords : ∀ r ∈ s.mq, r.decoded.status.valid = true ∧ r.decoded.status.ok = true
  /-- ERRCODE is 0 exactly while ERR is 0 (60_exceptions R180). -/
  errCodes : s.err = false ↔ s.errCode = .noError
  /-- A command in flight passed its issue checks (45_system R170). -/
  pendingLegal : ∀ w, s.pending = some w → ∃ i, decode w = .ok i ∧ issueError i (ownCheck i s) s = none

/-- A turn in which the host makes some access. -/
def Turn.isHost : Turn → Bool
  | .host _ => true
  | .hostHeld _ => true
  | .sequencer => false
  | .reset => false

/-- A run is over (70_reset R211): the host has made its last access and BUSY is 0, whatever other turns are left. -/
def State.runOver (s : State) : Prop := (∀ x ∈ s.agenda, x.isHost = false) ∧ s.busy = false

/-- The run from `s` ends after `n` steps with the result `t` (70_reset R211): the first state in which it is over. -/
def State.runEnds (s : State) (n : Nat) (t : State) : Prop :=
  Host.Core.run Sys2Proof.core n s = .next t ∧ t.runOver ∧
    ∀ k u, k < n → Host.Core.run Sys2Proof.core k s = .next u → ¬ u.runOver

/-- The next step clears a recorded error: a reset, or a STATUS write with bit 2 set (60_exceptions R182). -/
def State.clearsError (s : State) : Prop :=
  s.err = true ∧ (s.agenda.head? = some .reset ∨
    ∃ a, s.nextAccess = some a ∧ a.kind = .write ∧ a.place s.params = some (.reg .status) ∧ a.data.getLsbD 2 = true)

/-- The run from `s` ends after `n` steps in `t` with no error recorded (70_reset R211, log 13): ERR is 0 at the end, and no
step between cleared an error. -/
def State.cleanRun (s : State) (n : Nat) (t : State) : Prop :=
  s.runEnds n t ∧ t.err = false ∧
    ∀ k u, k < n → Host.Core.run Sys2Proof.core k s = .next u → ¬ u.clearsError

end Sys2Proof.Machine
end

