-- ==== Sys2Proof/Certificates/Slice0/Obligations.lean ====
section
/-!
DEFINITION. The statements for the provers. Each docstring names the rule of spec/ it formalises.
-/

open Sys2Proof Sys2Proof.Machine

/-! ### Encoding -/

/-- 30_encoding R70–R72, R76: every command, with every operand its format admits, decodes from its own word. -/
def Obligations.DecodeOfEncodeIsTheCommand : Prop :=
  ∀ i : Instr, i.wellFormed = true → decode (encode i) = .ok i

/-- 30_encoding R70–R75: a word that decodes is the word of exactly that command, and the command is legal. -/
def Obligations.EncodeOfDecodeIsTheWord : Prop :=
  ∀ (v : Word) (i : Instr), decode v = .ok i → encode i = v ∧ i.wellFormed = true

/-- 30_encoding R76: words written out from the spec decode to the commands they stand for. -/
def Obligations.SpecWordsDecode : Prop :=
  decode 0x00000000 = .ok .nop ∧ decode 0x01000004 = .ok (.fft 4) ∧ decode 0x02000003 = .ok (.fmdemod 3)
    ∧ decode 0x03000000 = .ok .mag ∧ decode 0x04000000 = .ok .scan ∧ decode 0x05000002 = .ok (.crc 2)
    ∧ decode 0x06000000 = .ok .decode ∧ decode 0x074840D6 = .ok (.probe 0x4840D6)

/-- 30_encoding R73–R75: on an idle block a CMD write of an illegal word, on either turn of the host, raises E_ILLEGAL and
does nothing else, and every other word is a command: it runs, or on a held turn is issued. That there are two turns is the model's choice
(log 2). -/
def Obligations.IllegalWordsRaiseIllegal : Prop :=
  ∀ (s : State) (rest : List Turn) (x : Turn) (v : Word), s.busy = false → s.agenda = x :: rest →
    x.isAccess (cmdWrite v) →
    (illegalWord v → step s = .next ((s.answered rest (cmdWrite v) 0).recorded .illegal)) ∧
    (¬ illegalWord v → ∃ i, decode v = .ok i ∧
      (x = .host (cmdWrite v) → step s = exec i (s.answered rest (cmdWrite v) 0)) ∧
      (x = .hostHeld (cmdWrite v) → step s = .next (issue i (s.answered rest (cmdWrite v) 0))))

/-! ### Steps -/

/-- 45_system R170, R173: a step runs the decoded command. On an idle block a host's turn that writes CMD is `exec` of the
command, a held turn is its issue, and the sequencer's turn (or a step with no turn left) executes and completes the
command in flight. The turns are the model's own (logs 1, 2). -/
def Obligations.StepRunsTheDecodedCommand : Prop :=
  ∀ (s : State) (rest : List Turn) (v : Word) (i : Instr), decode v = .ok i →
    (s.busy = false → s.agenda = .host (cmdWrite v) :: rest → step s = exec i (s.answered rest (cmdWrite v) 0)) ∧
    (s.busy = false → s.agenda = .hostHeld (cmdWrite v) :: rest →
      step s = .next (issue i (s.answered rest (cmdWrite v) 0))) ∧
    (s.pending = some v → s.agenda = .sequencer :: rest →
      step s = .next (commandEffect i { s with agenda := rest, draw := s.draw + 1 }).complete) ∧
    (s.pending = some v → s.agenda = [] →
      step s = .next (commandEffect i { s with draw := s.draw + 1 }).complete)

/-- 45_system R170, R173: on an idle block the issue of a command that passes its checks raises BUSY, holds the command's word
in PENDING and changes nothing else, and that of one that fails a check records its error and changes nothing else. Issued
and then finished by the sequencer, with no access between, a command leaves what it leaves in one step. -/
def Obligations.FinishOfIssueIsTheCommand : Prop :=
  ∀ (i : Instr) (s : State), s.busy = false →
    (issueError i (ownCheck i s) s = none →
      issue i s = { s with pending := some (encode i) } ∧ (issue i s).busy = true) ∧
    (∀ e, issueError i (ownCheck i s) s = some e → issue i s = s.recorded e) ∧
    finish (issue i s) = exec i s

/-! ### NOP -/

/-- 45_system R172: NOP completes in every mode and sets DONE alone. -/
def Obligations.NopSetsDoneAlone : Prop :=
  ∀ s : State, s.busy = false → exec .nop s = .next { s with done := true }

/-! ### FFT -/

/-- 40_spectral R90, R94: on an idle block in any mode FFT of a legal length completes, replaces FX[0..N−1] by its
transform, and changes no other byte and no other state but DONE. -/
def Obligations.FftTransformsItsElements : Prop :=
  ∀ (n : BitVec 24) (r : Nat) (s : State), s.busy = false → s.mem.wf → 1 ≤ r → n.toNat = 2 ^ r →
    n.toNat ≤ s.params.fftNmax →
    ∃ t, exec (.fft n) s = .next t
      ∧ t.fx n.toNat = fftTransform f64Cos f64Sin r (s.fx n.toNat)
      ∧ (∀ a, a < fftBase ∨ fftBase + 16 * n.toNat ≤ a → t.byte a = s.byte a)
      ∧ t = { s with mem := t.mem, done := true }

/-- 40_spectral R90, R96: an illegal length raises E_FFT_SIZE and changes nothing else. -/
def Obligations.FftRefusesIllegalLengths : Prop :=
  ∀ (n : BitVec 24) (s : State), s.busy = false → ¬ legalFftLen s.params n.toNat →
    exec (.fft n) s = .next (s.recorded .fftSize)

/-- 40_spectral R92, R93: the transform of `2^r` elements is the permutation followed by the stages `len = 2, 4, …, 2^r` in
that order. In a stage, of base twiddle `(COS ang, SIN ang)` with `ang = −TWO_PI/len`, butterfly `jj` of the block at
`b·len` combines elements `jj` and `jj + len/2` of that block with the rolling twiddle, restarted at 1 in every block; every
product and sum is rounded once, in the written order. -/
def Obligations.FftBlockIsItsButterflies : Prop :=
  (∀ (cos sin : F64 → F64) (r : Nat) (xs : List Cplx), xs.length = 2 ^ r →
    ∃ st : Nat → List Cplx, st 0 = bitReversePermute r xs ∧ st r = fftTransform cos sin r xs ∧
      ∀ k, k < r → (st (k + 1)).length = 2 ^ r ∧
        ∀ (b jj : Nat) (u t : Cplx), b < 2 ^ (r - (k + 1)) → jj < 2 ^ k →
          (st k)[b * 2 ^ (k + 1) + jj]? = some u → (st k)[b * 2 ^ (k + 1) + jj + 2 ^ k]? = some t →
          let ang := f64Div (f64Neg 0x401921FB54442D18) (f64OfNat (2 ^ (k + 1)))
          let v := cplxMul t (rollingTwiddle { re := cos ang, im := sin ang } jj)
          (st (k + 1))[b * 2 ^ (k + 1) + jj]? = some (cplxAdd u v)
            ∧ (st (k + 1))[b * 2 ^ (k + 1) + jj + 2 ^ k]? = some (cplxSub u v)) ∧
  (∀ a b : Cplx,
    cplxMul a b = { re := f64Sub (f64Mul a.re b.re) (f64Mul a.im b.im)
                    im := f64Add (f64Mul a.re b.im) (f64Mul a.im b.re) }
      ∧ cplxAdd a b = { re := f64Add a.re b.re, im := f64Add a.im b.im }
      ∧ cplxSub a b = { re := f64Sub a.re b.re, im := f64Sub a.im b.im })

/-- 40_spectral R91: bit `b` of the index goes to bit `r−1−b`, the reversal is its own inverse on indices below `2^r`, and
the permutation puts element `rev(i)` at place `i`. -/
def Obligations.FftPermutesByBitReversal : Prop :=
  ∀ (r i : Nat) (xs : List Cplx), i < 2 ^ r → xs.length = 2 ^ r →
    bitReverse r i < 2 ^ r
      ∧ (∀ b, b < r → (bitReverse r i).testBit b = i.testBit (r - 1 - b))
      ∧ bitReverse r (bitReverse r i) = i
      ∧ (bitReversePermute r xs)[i]? = xs[bitReverse r i]?

/-! ### FMDEMOD -/

/-- 41_demod R100–R105: on an idle block in mode FM with a legal block and F ≠ 0 FMDEMOD completes; the pairs are
`IQ[2k]`, `IQ[2k+1]`; the audio is the boxcar means of the wrapped phase differences, AUDIO_LEN their number,
LAST_PHASE the phase of the last pair (unchanged if there is none); no other byte and no other state but DONE changes. -/
def Obligations.FmdemodWritesTheAudio : Prop :=
  ∀ (f : BitVec 16) (s : State), s.busy = false → s.mode = .fm → legalIqLen s.params s.iqLen → f ≠ 0 → s.mem.wf →
    ∃ t, exec (.fmdemod f) s = .next t
      ∧ s.iqPairs.length = s.iqLen.toNat / 2
      ∧ (∀ k, k < s.iqLen.toNat / 2 →
          s.iqPairs[k]? = some (s.byte (0x0400000 + 2 * k), s.byte (0x0400000 + (2 * k + 1))))
      ∧ t.audioLen.toNat = s.iqLen.toNat / 2 / f.toNat
      ∧ t.audio t.audioLen.toNat
          = boxcar f.toNat t.audioLen.toNat (phaseDiffs f64Atan2 s.lastPhase s.iqPairs).1
      ∧ t.lastPhase = ((s.iqPairs.map (pairPhase f64Atan2)).getLast?).getD s.lastPhase
      ∧ (∀ a, a < audioBase ∨ audioBase + 8 * t.audioLen.toNat ≤ a → t.byte a = s.byte a)
      ∧ t = { s with mem := t.mem, audioLen := t.audioLen, lastPhase := t.lastPhase, done := true }

/-- 41_demod R101–R103: a pair's phase is ATAN2 of its two bytes less 127.5, `Q` first; difference `k` is pair `k`'s phase
less the phase before it (the carried one for the first pair), less TWO_PI above PI and plus TWO_PI at −PI or below; the
last phase after the block is the last pair's. -/
def Obligations.FmDifferencesFollowThePhases : Prop :=
  ∀ (atan2 : F64 → F64 → F64) (last : F64) (ps : List (Byte × Byte)),
    let phase : Byte × Byte → F64 := fun p =>
      atan2 (f64Sub (f64OfNat p.2.toNat) 0x405FE00000000000) (f64Sub (f64OfNat p.1.toNat) 0x405FE00000000000)
    let wrap : F64 → F64 := fun d =>
      if f64Lt 0x400921FB54442D18 d = true then f64Sub d 0x401921FB54442D18
      else if f64Le d (f64Neg 0x400921FB54442D18) = true then f64Add d 0x401921FB54442D18
      else d
    (∀ p, pairPhase atan2 p = phase p)
      ∧ (phaseDiffs atan2 last ps).1.length = ps.length
      ∧ (∀ (k : Nat) (p : Byte × Byte), ps[k]? = some p →
          (phaseDiffs atan2 last ps).1[k]?
            = some (wrap (f64Sub (phase p) (((last :: ps.map phase)[k]?).getD 0))))
      ∧ (phaseDiffs atan2 last ps).2 = ((ps.map phase).getLast?).getD last

/-- 41_demod R104: output `m` is the sum of differences `m·F .. m·F+F−1`, from `+0.0` in ascending order, divided by F. -/
def Obligations.BoxcarDividesOrderedSums : Prop :=
  ∀ (f n : Nat) (ds : List F64),
    (boxcar f n ds).length = n
      ∧ ∀ m, m < n →
        (boxcar f n ds)[m]? = some (f64Div (((ds.drop (m * f)).take f).foldl f64Add 0) (f64OfNat f))

/-- 41_demod R100, 42_magnitude R112, 45_system R170: in its own mode FMDEMOD or MAG with an illegal IQ_LEN raises E_IQ_LEN,
and FMDEMOD with a legal one and F = 0 raises E_DECIM; nothing else changes. -/
def Obligations.BlockCommandsCheckTheirArguments : Prop :=
  ∀ s : State, s.busy = false →
    (∀ f, s.mode = .fm → ¬ legalIqLen s.params s.iqLen → exec (.fmdemod f) s = .next (s.recorded .iqLen)) ∧
    (s.mode = .fm → legalIqLen s.params s.iqLen → exec (.fmdemod 0) s = .next (s.recorded .decim)) ∧
    (s.mode = .surv → ¬ legalIqLen s.params s.iqLen → exec .mag s = .next (s.recorded .iqLen))

/-! ### MAG -/

/-- 42_magnitude R112, R113: on an idle block in mode SURV with a legal block MAG completes; the window becomes the last
min(MAG_TAIL, MAG_LEN) samples followed by the block's magnitudes, SCAN_POS is rebased by the samples dropped; no other byte
and no other state but DONE changes. -/
def Obligations.MagBuildsTheWindow : Prop :=
  ∀ s : State, s.params.legal → s.busy = false → s.mode = .surv → legalIqLen s.params s.iqLen → s.mem.wf →
    ∃ t, exec .mag s = .next t
      ∧ t.samples = s.samples.drop (s.magLen.toNat - min 239 s.magLen.toNat) ++ s.iqPairs.map (pairMag s.params)
      ∧ t.magLen.toNat = min 239 s.magLen.toNat + s.iqLen.toNat / 2
      ∧ t.scanPos.toNat = s.scanPos.toNat - (s.magLen.toNat - min 239 s.magLen.toNat)
      ∧ (∀ a, a < magBase ∨ magBase + 4 * t.magLen.toNat ≤ a → t.byte a = s.byte a)
      ∧ t = { s with mem := t.mem, magLen := t.magLen, scanPos := t.scanPos, done := true }

/-- 42_magnitude R110, R111: for every legal MAG_CENTER and MAG_SCALE a pair's magnitude is MAGLUT at its distances from
MAG_CENTER, which are at most 128, and an entry `m` of the table is `⌊√(a² + b²)·MAG_SCALE + 1/2⌋`
(`2m−1 ≤ 2·√(a² + b²)·MAG_SCALE < 2m+1`, squared), fits 16 bits, and at the scale R1 gives is at most 65167. -/
def Obligations.MagnitudeIsTheRoundedRoot : Prop :=
  ∀ p : Params, p.legal →
    (∀ x : Byte × Byte,
      let a := ((x.1.toNat : Int) - (p.magCenter : Int)).natAbs
      let b := ((x.2.toNat : Int) - (p.magCenter : Int)).natAbs
      a ≤ 128 ∧ b ≤ 128 ∧ pairMag p x = magLut p a b) ∧
    (∀ a b : Nat, a ≤ 128 → b ≤ 128 →
      let n := 4 * (a * a + b * b) * (p.magScale * p.magScale)
      let m := magLut p a b
      n < (2 * m + 1) * (2 * m + 1) ∧ (m = 0 ∨ (2 * m - 1) * (2 * m - 1) ≤ n) ∧ m < 2 ^ 16
        ∧ (p.magScale = 360 → m ≤ 65167))

/-! ### SCAN -/

/-- 43_detector R120, R130, R131: on an idle block in mode SURV SCAN completes; it changes nothing but MQ, MSG_DROPS,
MSG_OVF, the cache, SCAN_POS and DONE, and from `SCAN_POS ≤ MAG_LEN` it leaves SCAN_POS no lower, at most MAG_LEN, and with
no whole window behind it. -/
def Obligations.ScanAdvancesItsPosition : Prop :=
  ∀ s : State, s.busy = false → s.mode = .surv →
    ∃ t, exec .scan s = .next t
      ∧ t = { s with mq := t.mq, msgDrops := t.msgDrops, msgOvf := t.msgOvf, cache := t.cache,
                     scanPos := t.scanPos, done := true }
      ∧ s.magLen.toNat < t.scanPos.toNat + 240
      ∧ (s.scanPos.toNat ≤ s.magLen.toNat →
          s.scanPos.toNat ≤ t.scanPos.toNat ∧ t.scanPos.toNat ≤ s.magLen.toNat)

/-- 43_detector R120: the scan loop. While a whole window is left, SCAN is the turn at SCAN_POS followed by SCAN from the
offset that turn gives; otherwise it sets DONE alone. -/
def Obligations.ScanIsItsLoop : Prop :=
  ∀ s : State, s.busy = false → s.mode = .surv →
    (s.scanPos.toNat + 240 ≤ s.magLen.toNat →
      exec .scan s = exec .scan { (scanOffset s.samples s.scanPos.toNat s).1 with
        scanPos := BitVec.ofNat 32 (scanOffset s.samples s.scanPos.toNat s).2 }) ∧
    (s.magLen.toNat < s.scanPos.toNat + 240 → exec .scan s = .next { s with done := true })

/-- 43_detector R120, R129, R130, 44_decoder R153: the turn at offset `j` changes nothing and goes on at `j + 1`
when the preamble test fails or no attempt is accepted; it accepts the frame `r` when the test holds and the
attempts give `r`: the cache takes the address of a DF11 or DF17 frame, the record is pushed, and the scan goes on past
preamble and frame. -/
def Obligations.ScanOffsetRejectsOrAccepts : Prop :=
  ∀ (w : List Nat) (j : Nat) (s : State),
    (preambleTest s.params (w.drop j) = false ∨ attempts w j s = none → scanOffset w j s = (s, j + 1)) ∧
    (∀ r, preambleTest s.params (w.drop j) = true → attempts w j s = some r →
      scanOffset w j s =
        (State.pushRecord
          { s with cache := if r.status.df = 11 ∨ r.status.df = 17 then s.cache.insert s.params s.now r.aa else s.cache }
          { decoded := r, offset := BitVec.ofNat 32 j },
         j + 16 + (if r.status.long = true then 2 * 112 else 2 * 56)))

/-- 43_detector R121, R122, R126: the preamble test is its ten comparisons with samples 4, 5 and 11..14 below
`high = ⌊(m0 + m2 + m7 + m9)/HIGH_DIV⌋`, and the out-of-phase test its four comparisons with OOP_DIV, on the samples from
offset `j` of a whole window. -/
def Obligations.PreambleAndPhaseTestsAreTheirComparisons : Prop :=
  ∀ (p : Params) (w : List Nat) (j : Nat), j + 240 ≤ w.length →
    let m : Nat → Nat := fun k => (w[j + k]?).getD 0
    let high := (m 0 + m 2 + m 7 + m 9) / p.highDiv
    (preambleTest p (w.drop j) = true ↔
      (m 0 > m 1 ∧ m 1 < m 2 ∧ m 2 > m 3 ∧ m 3 < m 0 ∧ m 4 < m 0 ∧ m 5 < m 0 ∧ m 6 < m 0 ∧ m 7 > m 8 ∧ m 8 < m 9
        ∧ m 9 > m 6) ∧
      m 4 < high ∧ m 5 < high ∧ m 11 < high ∧ m 12 < high ∧ m 13 < high ∧ m 14 < high) ∧
    (1 ≤ j → (outOfPhase p w j = true ↔
      m 3 > m 2 / p.oopDiv ∨ m 10 > m 9 / p.oopDiv ∨ m 6 > m 7 / p.oopDiv ∨
        (w[j - 1]?).getD 0 > m 1 / p.oopDiv))

/-- 43_detector R123, R125: 112 bits are sliced from the samples after the preamble, two samples per bit: 1 if the first is
higher, 0 if lower, ambiguous if equal; the packed frame's bit is 1 exactly where a 1 was sliced. -/
def Obligations.SlicedBitsArePacked : Prop :=
  ∀ (w : List Nat) (j b lo hi : Nat), j + 240 ≤ w.length → b < 112 → w[j + 16 + 2 * b]? = some lo →
    w[j + 16 + 2 * b + 1]? = some hi →
    (sliceBits (dataRegion w j)).length = 112 ∧
    (∃ x, (sliceBits (dataRegion w j))[b]? = some x
      ∧ (x = .one ↔ hi < lo) ∧ (x = .zero ↔ lo < hi) ∧ (x = .amb ↔ lo = hi)) ∧
    (∀ bits : List Slice, bits.length = 112 → fbit (packBits bits) b = decide (bits[b]? = some .one))

/-- 43_detector R127: the correction keeps the length, sample 0 and every second half-bit sample, and scales the first
sample of each later bit by 5/4 or 4/5 as the corrected bit before it is high-low or not. -/
def Obligations.CorrectionScalesSequentially : Prop :=
  ∀ (w : List Nat),
    (correctSamples w).length = w.length
      ∧ (correctSamples w)[0]? = w[0]?
      ∧ (∀ t, t % 2 = 1 → (correctSamples w)[t]? = w[t]?)
      ∧ (∀ t x a b, t % 2 = 0 → w[t + 2]? = some x → (correctSamples w)[t]? = some a →
          (correctSamples w)[t + 1]? = some b →
          (correctSamples w)[t + 2]? = some (if b < a then x * 5 / 4 else x * 4 / 5))

/-- 43_detector R120, R124, R125, R128: an attempt is accepted exactly when at most AMBIG_MAX of the first 56 bits are
ambiguous and the decode of the packed bits has `ok = 1`, and gives that decode. The attempts at an offset give the
uncorrected one where it is accepted (PC = 0), else, exactly when `j ≥ 1` and the out-of-phase test holds, the corrected one
(PC = 1). -/
def Obligations.CorrectedAttemptOnlyAfterReject : Prop :=
  ∀ (w region : List Nat) (j : Nat) (s : State) (r : Decoded),
    (attempt region s = some r ↔
      ((sliceBits region).take 56).countP (· == Slice.amb) ≤ (if s.ctrl.aggr = true then 2 else 0) ∧
      r = decodeFrame s.params s.ctrl s.now s.cache (packBits (sliceBits region)) ∧ r.status.ok = true) ∧
    (attempts w j s = some r ↔
      attempt (dataRegion w j) s = some r ∨
      (attempt (dataRegion w j) s = none ∧ 1 ≤ j ∧ outOfPhase s.params w j = true ∧
        ∃ q, attempt (correctSamples (dataRegion w j)) s = some q ∧
          r = { q with status := { q.status with pc := true } })) ∧
    (attempt region s = some r → r.status.pc = false ∧ r.status.valid = true)

/-- 43_detector R130, 10_state R32: a push on a FIFO within its depth keeps the newest MSG_DEPTH records, and counts and
flags a drop exactly when the FIFO was full. -/
def Obligations.PushKeepsTheNewestRecords : Prop :=
  ∀ (s : State) (r : Record), 1 ≤ s.params.msgDepth → s.mq.length ≤ s.params.msgDepth →
    s.pushRecord r = { s with
      mq := (s.mq ++ [r]).drop (s.mq.length + 1 - s.params.msgDepth)
      msgDrops := if s.mq.length = s.params.msgDepth then s.msgDrops + 1 else s.msgDrops
      msgOvf := s.msgOvf || decide (s.mq.length = s.params.msgDepth) }

/-! ### CRC, DECODE, PROBE and the cache -/

/-- 44_decoder R144: on an idle block in any mode CRC with a legal LSEL completes with the CRC, the parity field, their
comparison, the length used and the downlink format, and only DONE changes besides. With LSEL = 3 it raises E_ILLEGAL
(30_encoding R74). -/
def Obligations.CrcChecksTheInputFrame : Prop :=
  ∀ (lsel : BitVec 2) (s : State), s.busy = false →
    (lsel.toNat < 3 → ∃ long : Bool,
      (long = true ↔ lsel.toNat = 2 ∨ (lsel.toNat = 0 ∧ 16 ≤ (downlinkFormat s.frameIn).toNat)) ∧
      exec (.crc lsel) s = .next { s with
        crc := { computed := crc24 s.frameIn long, parity := parityField s.frameIn long,
                 ok := decide (crc24 s.frameIn long = parityField s.frameIn long), long := long,
                 df := downlinkFormat s.frameIn }
        done := true }) ∧
    (lsel.toNat = 3 → exec (.crc lsel) s = .next (s.recorded .illegal))

/-- 44_decoder R140, R141, R143: the CRC is linear, and on the frame with bit `q` alone set it is `x^(111−q−off) mod G` for a
data bit (`off` 56 for a short frame, 0 for a long one) and 0 for a bit of the parity field or past the frame's length; so its value on every frame is
given. The length is 112 or 56 bits, the parity field the frame's last 24 of them, and the syndrome the field's exclusive-or with the CRC. -/
def Obligations.CrcIsLinear : Prop :=
  ∀ (f g : Frame) (long : Bool) (q : Nat),
    crc24 (f ^^^ g) long = crc24 f long ^^^ crc24 g long
      ∧ frameBits long = (if long = true then 112 else 56)
      ∧ (q < frameBits long → crc24 (1#112 <<< (111 - q)) long
          = if q + 24 < frameBits long then xPowMod (111 - q - (112 - frameBits long)) else 0)
      ∧ (frameBits long ≤ q → q < 112 → crc24 (1#112 <<< (111 - q)) long = 0)
      ∧ (q < 24 → (parityField f long).getMsbD q = fbit f (frameBits long - 24 + q))
      ∧ syndrome f long = parityField f long ^^^ crc24 f long
      ∧ syndrome (f ^^^ g) long = syndrome f long ^^^ syndrome g long

/-- 44_decoder R157 (a), R146: a valid frame with exactly one bit inverted, received as DF11 or DF17 of the same length,
is repaired at exactly that bit when error fixing is enabled. -/
def Obligations.SingleBitErrorIsRepaired : Prop :=
  ∀ (g : Params) (c : Ctrl) (now : Word) (cache : Cache) (f : Frame) (long : Bool) (p : Nat),
    frameOf f long = f → crcMatches f long = true → p < frameBits long → c.fix = true →
    selfIdentifying (downlinkFormat (flip f p)) = true → longFormat (downlinkFormat (flip f p)) = long →
    (decodeFrame g c now cache (flip f p)).status.ok = true
      ∧ (decodeFrame g c now cache (flip f p)).status.ncorr = 1
      ∧ (decodeFrame g c now cache (flip f p)).e0 = BitVec.ofNat 8 p
      ∧ (decodeFrame g c now cache (flip f p)).e1 = 0xFF
      ∧ (decodeFrame g c now cache (flip f p)).frame = f

/-- 44_decoder R157 (b), R147: a valid 112-bit frame with exactly two bits inverted, received as DF17, is repaired at
exactly those two bits when error fixing and aggressive mode are enabled. -/
def Obligations.DoubleBitErrorIsRepaired : Prop :=
  ∀ (g : Params) (c : Ctrl) (now : Word) (cache : Cache) (f : Frame) (p q : Nat),
    crcMatches f true = true → p < q → q < 112 → c.fix = true → c.aggr = true →
    downlinkFormat (flip (flip f p) q) = 17 →
    (decodeFrame g c now cache (flip (flip f p) q)).status.ok = true
      ∧ (decodeFrame g c now cache (flip (flip f p) q)).status.ncorr = 2
      ∧ (decodeFrame g c now cache (flip (flip f p) q)).e0 = BitVec.ofNat 8 p
      ∧ (decodeFrame g c now cache (flip (flip f p) q)).e1 = BitVec.ofNat 8 q
      ∧ (decodeFrame g c now cache (flip (flip f p) q)).frame = f

/-- 44_decoder R142, R145, R148, R149, R156: the downlink format is the top five bits of byte 0; an accepted frame matches its CRC after correction, or was accepted through the
cache, uncorrected and not matching, with the address that separates its field from its CRC; CW is set exactly for an
accepted DF11 or DF17 frame; DF and LONG are those of the frame received;
CRCF and CRCC are the parity field and the CRC of the final frame, whose bits past its length are 0; the address, accepted
or not, is their exclusive-or in the address-parity formats and bytes 1..3 of the final frame in the others. -/
def Obligations.AcceptedFramesMatchOrAreConfirmed : Prop :=
  ∀ (g : Params) (c : Ctrl) (now : Word) (cache : Cache) (cf : Frame) (r : Decoded),
    r = decodeFrame g c now cache cf →
    (downlinkFormat cf).toNat = (frameByte cf 0).toNat / 8 ∧
    (∀ q, q < 5 → (downlinkFormat cf).getMsbD q = fbit cf q) ∧
    (∀ k q, k < 14 → q < 8 → (frameByte cf k).getMsbD q = fbit cf (8 * k + q)) ∧
    r.status.df = downlinkFormat cf ∧ (r.status.long = true ↔ 16 ≤ (downlinkFormat cf).toNat) ∧
    r.crcf = parityField r.frame r.status.long ∧ r.crcc = crc24 r.frame r.status.long ∧
    (∀ q, frameBits r.status.long ≤ q → fbit r.frame q = false) ∧
    ((downlinkFormat cf).toNat ∈ addressParityFormats → r.aa = r.crcf ^^^ r.crcc) ∧
    ((downlinkFormat cf).toNat ∉ addressParityFormats →
      r.aa = frameByte r.frame 1 ++ frameByte r.frame 2 ++ frameByte r.frame 3) ∧
    (r.status.ok = true →
      (r.status.ap = false ∧ r.crcf = r.crcc) ∨
      (r.status.ap = true ∧ r.crcf ≠ r.crcc ∧ r.status.ncorr = 0 ∧
        (downlinkFormat cf).toNat ∈ addressParityFormats ∧ cache.recent g now r.aa = true)) ∧
    (r.status.cw = true ↔ r.status.ok = true ∧ (downlinkFormat cf = 11 ∨ downlinkFormat cf = 17)) ∧
    (r.status.ok = false → r.status.ap = false ∧ r.crcf ≠ r.crcc ∧
      ((downlinkFormat cf).toNat ∈ addressParityFormats → cache.recent g now r.aa = false))

/-- 44_decoder R145–R147, R156, 00_scope R5: the frame decoded is the one received, cut to its length. A frame that matches
its CRC as received is accepted uncorrected; only CTRL.FIX and DF 11 or 17 let a frame be corrected, only CTRL.AGGR and DF
17 at two bits; a rejected frame is uncorrected; a corrected one has exactly the bits E0 (and E1) inverted, E1 being 0xFF
for one bit; an uncorrected one has both positions 0xFF. -/
def Obligations.CorrectionNeedsItsEnables : Prop :=
  (∀ (g : Params) (c : Ctrl) (now : Word) (cache : Cache) (cf : Frame) (r : Decoded),
    r = decodeFrame g c now cache cf →
    let f := frameOf cf r.status.long
    (parityField f r.status.long = crc24 f r.status.long → r.status.ok = true ∧ r.status.ncorr = 0) ∧
    (r.status.ok = false → r.status.ncorr = 0) ∧
    (r.status.ncorr ≠ 0 → c.fix = true ∧ (downlinkFormat cf = 11 ∨ downlinkFormat cf = 17)) ∧
    (r.status.ncorr = 2 → c.aggr = true ∧ downlinkFormat cf = 17) ∧
    r.status.ncorr ≠ 3 ∧
    (r.status.ncorr = 0 → r.frame = f ∧ r.e0 = 0xFF ∧ r.e1 = 0xFF) ∧
    (r.status.ncorr = 1 → r.e0.toNat < frameBits r.status.long ∧ r.e1 = 0xFF ∧ r.frame = flip f r.e0.toNat) ∧
    (r.status.ncorr = 2 → r.e0.toNat < r.e1.toNat ∧ r.e1.toNat < frameBits r.status.long ∧
      r.frame = flip (flip f r.e0.toNat) r.e1.toNat)) ∧
  (∀ (f : Frame) (long : Bool) (q : Nat), fbit (frameOf f long) q = (decide (q < frameBits long) && fbit f q)) ∧
  (∀ (f : Frame) (p q : Nat), p < 112 → fbit (flip f p) q = (fbit f q != decide (q = p)))

/-- 44_decoder R153, R154: on an idle block in mode SURV DECODE completes; the DEC registers hold the decode of FRAME_IN,
the cache takes the address exactly when an accepted frame is DF11 or DF17, and only DONE changes besides. -/
def Obligations.DecodeReportsTheInputFrame : Prop :=
  ∀ s : State, s.busy = false → s.mode = .surv →
    ∃ r, r = decodeFrame s.params s.ctrl s.now s.cache s.frameIn ∧ r.status.valid = true ∧ r.status.pc = false ∧
      exec .decode s = .next { s with
        dec := r
        cache := if r.status.ok = true ∧ (downlinkFormat s.frameIn = 11 ∨ downlinkFormat s.frameIn = 17)
                 then s.cache.insert s.params s.now r.aa else s.cache
        done := true }

/-- 44_decoder R151, R152: an address is recently seen exactly when its slot is valid, holds it, and is at most ICAO_TTL old
(modulo 2^32). An insertion makes its slot valid with that address and NOW and changes no other slot; so the address is
recently seen for ICAO_TTL from then on and the address it displaced is not. -/
def Obligations.InsertedAddressIsRecentForItsTtl : Prop :=
  ∀ (g : Params) (c : Cache) (ts now : Word) (a b : Word24),
    (c.recent g now a = true ↔ ∃ e, c.slot (slotOf g a) = some e ∧ e.addr = a ∧
      (now.toNat + 2 ^ 32 - e.ts.toNat) % 2 ^ 32 ≤ 60) ∧
    (c.insert g ts a).slot (slotOf g a) = some { addr := a, ts := ts } ∧
    (∀ i, i ≠ slotOf g a → (c.insert g ts a).slot i = c.slot i) ∧
    ((c.insert g ts a).recent g now a = true ↔ (now.toNat + 2 ^ 32 - ts.toNat) % 2 ^ 32 ≤ 60) ∧
    (b ≠ a → slotOf g b = slotOf g a → (c.insert g ts a).recent g now b = false)

/-- 44_decoder R155, R151: on an idle block in any mode PROBE completes with whether the address's slot holds it at an age
of at most ICAO_TTL, and the slot number; only DONE changes besides. -/
def Obligations.ProbeReportsTheSlot : Prop :=
  ∀ (a : BitVec 24) (s : State), s.busy = false →
    ∃ p : ProbeResult,
      (p.recent = true ↔ ∃ e, s.cache.slot (slotOf s.params a) = some e ∧ e.addr = a ∧
        (s.now.toNat + 2 ^ 32 - e.ts.toNat) % 2 ^ 32 ≤ 60) ∧
      p.slot.toNat = slotOf s.params a ∧
      exec (.probe a) s = .next { s with probe := p, done := true }

/-- 44_decoder R150: a block built with the default slot function has the one the rule writes, in arithmetic modulo 2^32,
and whatever the slot function is, its values are slot numbers. -/
def Obligations.SlotFunctionIsTheDefault : Prop :=
  ∀ (g : Params) (a : Word24),
    (g.slotFunction = .default →
      let h0 := a.toNat
      let h1 := ((h0 >>> 16) ^^^ h0) * 0x045D9F3B % 2 ^ 32
      let h2 := ((h1 >>> 16) ^^^ h1) * 0x045D9F3B % 2 ^ 32
      slotOf g a = ((h2 >>> 16) ^^^ h2) &&& 0x3FF) ∧
    slotOf g a < 1024

/-! ### Modes -/

/-- 45_system R171: outside its modes a command raises E_MODE and nothing else changes; in its modes none raises it. -/
def Obligations.CommandsNeedTheirMode : Prop :=
  ∀ s : State, s.busy = false →
    (∀ f, s.mode ≠ .fm → exec (.fmdemod f) s = .next (s.recorded .mode)) ∧
    (s.mode ≠ .surv → exec .mag s = .next (s.recorded .mode)
      ∧ exec .scan s = .next (s.recorded .mode) ∧ exec .decode s = .next (s.recorded .mode)) ∧
    (∀ i t, exec i s = .next t → s.errCode ≠ .mode → t.errCode = .mode →
      (s.mode ≠ .fm ∧ ∃ f, i = .fmdemod f) ∨ (s.mode ≠ .surv ∧ (i = .mag ∨ i = .scan ∨ i = .decode)))

/-! ### The host bus -/

/-- 20_memory R53–R56, 60_exceptions R183: an access of another width, a write with a lane disabled, an unaligned or an
unmapped offset is refused with E_BUS, busy or not: the word 0 and an error response, ERR and ERRCODE, nothing else. That the
word is 0 follows R56 where V-SYS-9 leaves it open, and that a refused write answers it is the model's (logs 6, 11). -/
def Obligations.WrongAccessesAreRefused : Prop :=
  ∀ (s : State) (rest : List Turn) (x : Turn) (a : Access), s.params.legal → s.agenda = x :: rest → x.isAccess a →
    (a.width ≠ 32 ∨ (a.kind = .write ∧ a.lanes ≠ 0xF) ∨ a.offset.toNat % 4 ≠ 0 ∨ unmappedOffset s.params a.offset.toNat) →
    step s = .next (s.refusedAccess rest a .bus)

/-- 20_memory R57, 60_exceptions R183: a write to a read-only register or window is refused with E_BUS, busy or not, and a
read of CMD or MSG_POP on an idle block returns 0 without error. -/
def Obligations.ReadOnlyPlacesRefuseWrites : Prop :=
  ∀ (s : State) (rest : List Turn) (x : Turn) (o : Nat) (v : Word), s.params.legal → s.agenda = x :: rest →
    (x.isAccess (writeOf o v) → readOnlyOffset s.params o → step s = .next (s.refusedAccess rest (writeOf o v) .bus)) ∧
    (x.isAccess (readOf o) → s.busy = false → o = 0x01C ∨ o = 0x094 →
      step s = .next (s.answered rest (readOf o) 0))

/-- 20_memory R64 (a), (c): while a command runs a write of any writable place but STATUS is refused with E_BUSY and lost,
and a read of a listed register or of the IQ window is answered; but for STATUS, with the word that an idle block with the
same state answers. -/
def Obligations.BusyBlockRefusesWrites : Prop :=
  ∀ (s : State) (rest : List Turn) (x : Turn) (o : Nat) (v : Word), s.params.legal → s.busy = true →
    s.agenda = x :: rest →
    (x.isAccess (writeOf o v) → writableOffset s.params o → o ≠ 0x018 →
      step s = .next (s.refusedAccess rest (writeOf o v) .busy)) ∧
    (x.isAccess (readOf o) → readableBusyOffset s.params o →
      ∃ w, step s = .next (s.answered rest (readOf o) w) ∧
        (o ≠ 0x018 → step { s with pending := none }
          = .next (State.answered { s with pending := none } rest (readOf o) w)))

/-- 20_memory R63, R56: a read changes nothing but its response and the model's own counters, and ERR with ERRCODE when it
is refused; on an idle block repeating it returns the same response. An idle block's sequencer changes nothing between. -/
def Obligations.ReadsHaveNoSideEffect : Prop :=
  (∀ (s : State) (rest : List Turn) (x : Turn) (a : Access), s.agenda = x :: rest → x.isAccess a → a.kind = .read →
    ∃ t, step s = .next t
      ∧ t = { s with agenda := rest, resp := t.resp, draw := t.draw, err := t.err, errCode := t.errCode }
      ∧ (a.place s.params ≠ none → t.err = s.err ∧ t.errCode = s.errCode)
      ∧ (s.busy = false → ∃ u, step { t with agenda := x :: rest } = .next u ∧ u.resp = t.resp)) ∧
  (∀ (s : State) (rest : List Turn), s.agenda = .sequencer :: rest → s.busy = false →
    step s = .next { s with agenda := rest })

/-- 20_memory R59, R52: on an idle block an IQ window word reads its four bytes, lowest index in the lowest bits; a write of
it stores its four bytes so and changes no other byte and no other state. -/
def Obligations.IqWindowHoldsItsBytes : Prop :=
  ∀ (s : State) (rest : List Turn) (x : Turn) (q : Nat) (v : Word), s.params.legal → s.busy = false →
    4 * q < s.params.iqCap → s.agenda = x :: rest →
    (x.isAccess (readOf (0x0400000 + 4 * q)) → ∃ w, step s = .next (s.answered rest (readOf (0x0400000 + 4 * q)) w)
      ∧ ∀ i, i < 4 → w.extractLsb' (8 * i) 8 = s.byte (0x0400000 + 4 * q + i)) ∧
    (x.isAccess (writeOf (0x0400000 + 4 * q) v) → ∃ t, step s = .next t
      ∧ (∀ i, i < 4 → t.byte (0x0400000 + 4 * q + i) = v.extractLsb' (8 * i) 8)
      ∧ (∀ a, a < 0x0400000 + 4 * q ∨ 0x0400000 + 4 * q + 4 ≤ a → t.byte a = s.byte a)
      ∧ t = { s.answered rest (writeOf (0x0400000 + 4 * q) v) 0 with mem := t.mem })

/-- 20_memory R61: element `k` of FX shows its four words at its sixteen offsets, and on an idle block a write of one of
them replaces that half of that part and leaves every other byte and all other state alone. -/
def Obligations.FftWindowShowsTheElements : Prop :=
  ∀ (s : State) (rest : List Turn) (x : Turn) (k h : Nat) (e : Cplx) (v : Word), s.params.legal → s.busy = false →
    s.mem.wf → h < 4 → (s.fx s.params.fftNmax)[k]? = some e → s.agenda = x :: rest →
    (x.isAccess (readOf (0x0C00000 + 16 * k + 4 * h)) →
      step s = .next (s.answered rest (readOf (0x0C00000 + 16 * k + 4 * h))
        ((if h < 2 then e.re else e.im).extractLsb' (32 * (h % 2)) 32))) ∧
    (x.isAccess (writeOf (0x0C00000 + 16 * k + 4 * h) v) → ∃ t, step s = .next t
      ∧ (∀ i, i < 4 → t.byte (0x0C00000 + 16 * k + 4 * h + i) = v.extractLsb' (8 * i) 8)
      ∧ (∀ a, a < 0x0C00000 + 16 * k + 4 * h ∨ 0x0C00000 + 16 * k + 4 * h + 4 ≤ a → t.byte a = s.byte a)
      ∧ t = { s.answered rest (writeOf (0x0C00000 + 16 * k + 4 * h) v) 0 with mem := t.mem })

/-- 20_memory R60, R62: on an idle block a read of the MAG window returns the zero-extended sample `k < MAG_LEN` and one of
the AUDIO window the low or the high word of sample `m < AUDIO_LEN`; past those lengths, up to the windows' capacities, it
returns a word about which nothing is said. Nothing else changes. -/
def Obligations.MagAndAudioWindowsShowTheirSamples : Prop :=
  ∀ (s : State) (rest : List Turn) (x : Turn), s.params.legal → s.busy = false → s.mem.wf →
    s.agenda = x :: rest →
    (∀ k, k < 239 + s.params.iqCap / 2 → x.isAccess (readOf (0x0800000 + 4 * k)) →
      ∃ w, step s = .next (s.answered rest (readOf (0x0800000 + 4 * k)) w)
        ∧ ∀ y, s.samples[k]? = some y → y < 2 ^ 16 ∧ w = BitVec.ofNat 32 y) ∧
    (∀ m h, m < s.params.iqCap / 2 → h < 2 → x.isAccess (readOf (0x1000000 + 8 * m + 4 * h)) →
      ∃ w, step s = .next (s.answered rest (readOf (0x1000000 + 8 * m + 4 * h)) w)
        ∧ ∀ y, (s.audio s.audioLen.toNat)[m]? = some y → w = y.extractLsb' (32 * h) 32)

/-- 45_system R174: a MODE write, refused with E_BUSY while a command runs; of 0, 1 or 3 it switches the mode and resets
LAST_PHASE, SCAN_POS, MAG_LEN, IQ_LEN and AUDIO_LEN; of any other word it raises E_MODE; nothing else changes. -/
def Obligations.ModeWriteSwitchesAndResets : Prop :=
  ∀ (s : State) (rest : List Turn) (x : Turn) (v : Word), s.agenda = x :: rest → x.isAccess (writeOf 0x014 v) →
    (s.busy = true → step s = .next (s.refusedAccess rest (writeOf 0x014 v) .busy)) ∧
    (s.busy = false → ∀ m, (v = 0 ∧ m = .idle) ∨ (v = 1 ∧ m = .fm) ∨ (v = 3 ∧ m = .surv) →
      step s = .next { s.answered rest (writeOf 0x014 v) 0 with
        mode := m, lastPhase := 0, scanPos := 0, magLen := 0, iqLen := 0, audioLen := 0 }) ∧
    (s.busy = false → v ≠ 0 → v ≠ 1 → v ≠ 3 →
      step s = .next ((s.answered rest (writeOf 0x014 v) 0).recorded .mode))

/-- 45_system R175: a STATUS write, accepted busy or not, clears DONE, ERR with ERRCODE, and MSG_OVF as bits 1, 2 and 3 of
its word are set, and ignores every other bit. -/
def Obligations.StatusWriteClearsItsBits : Prop :=
  ∀ (s : State) (rest : List Turn) (x : Turn) (v : Word), s.agenda = x :: rest → x.isAccess (writeOf 0x018 v) →
    step s = .next { s.answered rest (writeOf 0x018 v) 0 with
      done := if v.getLsbD 1 = true then false else s.done
      err := if v.getLsbD 2 = true then false else s.err
      errCode := if v.getLsbD 2 = true then .noError else s.errCode
      msgOvf := if v.getLsbD 3 = true then false else s.msgOvf }

/-- 45_system R176: an MSG_POP write of any word, refused with E_BUSY while a command runs, removes the oldest record if
there is one, and changes nothing else. -/
def Obligations.PopRemovesTheOldestRecord : Prop :=
  ∀ (s : State) (rest : List Turn) (x : Turn) (v : Word), s.agenda = x :: rest → x.isAccess (writeOf 0x094 v) →
    (s.busy = true → step s = .next (s.refusedAccess rest (writeOf 0x094 v) .busy)) ∧
    (s.busy = false → s.mq = [] → step s = .next (s.answered rest (writeOf 0x094 v) 0)) ∧
    (∀ r q, s.busy = false → s.mq = r :: q →
      step s = .next { s.answered rest (writeOf 0x094 v) 0 with mq := q })

/-- 45_system R177, 10_state R16, R26, 20_memory R58: on an idle block CTRL stores bits 0, 1, 8, 9, 10 (and reads them back,
the others 0), NOW and IQ_LEN the whole word, FRAME_INk the whole word or, for word 3, its low half; each changes nothing
else. -/
def Obligations.PlainRegistersStoreTheirWord : Prop :=
  ∀ (s : State) (rest : List Turn) (x : Turn) (v : Word), s.busy = false → s.agenda = x :: rest →
    (x.isAccess (writeOf 0x010 v) → ∃ c, ctrlWord c = v &&& 0x703 ∧
      step s = .next { s.answered rest (writeOf 0x010 v) 0 with ctrl := c }) ∧
    (x.isAccess (writeOf 0x020 v) → step s = .next { s.answered rest (writeOf 0x020 v) 0 with now := v }) ∧
    (x.isAccess (writeOf 0x024 v) → step s = .next { s.answered rest (writeOf 0x024 v) 0 with iqLen := v }) ∧
    (∀ k, k < 4 → x.isAccess (writeOf (0x040 + 4 * k) v) → ∃ f,
      frameWord f k = (if k = 3 then v &&& 0xFFFF else v) ∧
      (∀ j, j < 4 → j ≠ k → frameWord f j = frameWord s.frameIn j) ∧
      step s = .next { s.answered rest (writeOf (0x040 + 4 * k) v) 0 with frameIn := f })

/-! ### What registers read -/

/-- 10_state R15–R17, R20–R25, R27–R30, R32, R34: on an idle block each of these registers reads its value (those of R26 and
STATUS have their own statements), the FIFO's head registers 0 when MQ is empty; the read changes nothing else. -/
def Obligations.ReadOnlyRegistersShowTheirState : Prop :=
  ∀ (s : State) (rest : List Turn) (x : Turn) (o : Nat) (v : Word), s.busy = false → s.agenda = x :: rest →
    x.isAccess (readOf o) →
    (o, v) ∈ [(0x010, (BitVec.ofBool s.ctrl.fix).setWidth 32 ||| ((BitVec.ofBool s.ctrl.aggr).setWidth 32 <<< 1)
          ||| ((BitVec.ofBool s.ctrl.ieDone).setWidth 32 <<< 8) ||| ((BitVec.ofBool s.ctrl.ieErr).setWidth 32 <<< 9)
          ||| ((BitVec.ofBool s.ctrl.ieMsg).setWidth 32 <<< 10)),
        (0x014, match s.mode with | .idle => 0 | .fm => 1 | .surv => 3), (0x020, s.now), (0x024, s.iqLen)]
      ++ [(0x000, 0x4C525331), (0x004, BitVec.ofNat 32 s.params.iqCap),
        (0x008, BitVec.ofNat 32 s.params.fftNmax), (0x00C, BitVec.ofNat 32 s.params.msgDepth), (0x028, s.magLen), (0x02C, s.scanPos),
        (0x030, s.audioLen), (0x034, s.lastPhase.setWidth 32), (0x038, (s.lastPhase >>> 32).setWidth 32)]
      ++ [(0x050, s.crc.computed.setWidth 32), (0x054, s.crc.parity.setWidth 32),
        (0x058, (BitVec.ofBool s.crc.ok).setWidth 32 ||| ((BitVec.ofBool s.crc.long).setWidth 32 <<< 1)
          ||| (s.crc.df.setWidth 32 <<< 8)),
        (0x05C, (BitVec.ofBool s.probe.recent).setWidth 32 ||| (s.probe.slot.setWidth 32 <<< 16)),
        (0x060, statusFormula s.dec.status), (0x064, s.dec.aa.setWidth 32),
        (0x068, s.dec.e0.setWidth 32 ||| (s.dec.e1.setWidth 32 <<< 8)), (0x06C, s.dec.crcf.setWidth 32),
        (0x070, s.dec.crcc.setWidth 32), (0x090, BitVec.ofNat 32 s.mq.length), (0x098, s.msgDrops)]
      ++ [(0x0A0, headOr s.mq (fun r => statusFormula r.decoded.status)),
        (0x0A4, headOr s.mq (fun r => r.decoded.aa.setWidth 32)),
        (0x0A8, headOr s.mq (fun r => r.decoded.e0.setWidth 32 ||| (r.decoded.e1.setWidth 32 <<< 8))),
        (0x0AC, headOr s.mq (fun r => r.decoded.crcf.setWidth 32)),
        (0x0B0, headOr s.mq (fun r => r.decoded.crcc.setWidth 32)), (0x0B4, headOr s.mq (fun r => r.offset))] →
    step s = .next (s.answered rest (readOf o) v)

/-- 10_state R26, R31, R34, 00_scope R5: the frame registers of FRAME_IN, DEC_FRAME and the oldest record hold byte `4k+i`
of their frame in bits `8i+7:8i` of word `k`, a byte's most significant bit first on the air, and read 0 past byte 13. -/
def Obligations.FrameRegistersPackTheBytes : Prop :=
  ∀ (s : State) (rest : List Turn) (x : Turn) (base k i b : Nat) (f : Frame), s.busy = false → s.agenda = x :: rest →
    (base = 0x040 ∧ f = s.frameIn) ∨ (base = 0x080 ∧ f = s.dec.frame) ∨
      (base = 0x0C0 ∧ f = (match s.mq with | [] => 0 | r :: _ => r.decoded.frame)) →
    k < 4 → i < 4 → b < 8 → x.isAccess (readOf (base + 4 * k)) →
    ∃ v, step s = .next (s.answered rest (readOf (base + 4 * k)) v)
      ∧ v.getLsbD (8 * i + b) = (decide (4 * k + i < 14) && fbit f (8 * (4 * k + i) + (7 - b)))

/-- 10_state R18, R44, 60_exceptions R180, R186: STATUS reads its fields, busy or not, and its bit 5 is the interrupt output: DONE,
ERR or MSGAV with its enable in CTRL. ERRCODE reads the number R180 gives the recorded error. -/
def Obligations.StatusReadsItsFields : Prop :=
  ∀ (s : State) (rest : List Turn) (x : Turn), s.agenda = x :: rest → x.isAccess (readOf 0x018) →
    ∃ v, step s = .next (s.answered rest (readOf 0x018) v)
      ∧ v.getLsbD 0 = s.pending.isSome ∧ v.getLsbD 1 = s.done ∧ v.getLsbD 2 = s.err ∧ v.getLsbD 3 = s.msgOvf
      ∧ v.getLsbD 4 = decide (0 < s.mq.length)
      ∧ v.getLsbD 5 = ((v.getLsbD 1 && (ctrlWord s.ctrl).getLsbD 8) || (v.getLsbD 2 && (ctrlWord s.ctrl).getLsbD 9)
          || (v.getLsbD 4 && (ctrlWord s.ctrl).getLsbD 10))
      ∧ s.irq = v.getLsbD 5
      ∧ v.extractLsb' 6 2 = 0 ∧ v.extractLsb' 12 20 = 0
      ∧ (s.errCode, (v.extractLsb' 8 4).toNat) ∈ [(ErrCode.noError, 0), (.illegal, 1), (.fftSize, 2), (.iqLen, 3),
          (.decim, 4), (.mode, 5), (.busy, 6), (.bus, 7)]

/-! ### Reset -/

/-- 70_reset R200, 10_state R43: reset, busy or not, leaves the block idle in mode IDLE with IRQ 0, every register at its
reset value, MQ and the cache empty and no byte of a buffer written. -/
def Obligations.ResetLeavesTheResetValues : Prop :=
  ∀ (s : State) (rest : List Turn), s.agenda = .reset :: rest →
    ∃ t, step s = .next t ∧ t.agenda = rest ∧ t.busy = false ∧ t.irq = false ∧ t.mode = .idle ∧ t.pending = none
      ∧ t.mq = [] ∧ (∀ i, t.cache.slot i = none) ∧ t.mem = [] ∧ t.params = s.params
      ∧ (∀ o r, regAt o = some r →
          t.regWord r = if o = 0x000 then 0x4C525331 else if o = 0x004 then BitVec.ofNat 32 s.params.iqCap
            else if o = 0x008 then BitVec.ofNat 32 s.params.fftNmax
            else if o = 0x00C then BitVec.ofNat 32 s.params.msgDepth else if o = 0x010 then 1 else if o = 0x068 then 0x0000FFFF else 0)

/-! ### The whole machine -/

/-- 10_state R43, 00_scope R1: the state after reset meets the invariant, and has the parameters R1 gives. -/
def Obligations.ResetMeetsTheInvariant : Prop :=
  State.reset.Inv ∧ State.reset.params =
    { iqCap := 262144, fftNmax := 8192, msgDepth := 64, magCenter := 127, magScale := 360, highDiv := 6, oopDiv := 3
      slotFunction := .default }

/-- Every step from a state that meets the invariant leads to one that meets it: the buffers stay in canonical form within
their backed limits (20_memory R51), SCAN_POS ≤ MAG_LEN ≤ MAG_CAP (43_detector R131), AUDIO_LEN and the FIFO stay within
their capacities, records are accepted frames (10_state R37), addresses stand in their slots (44_decoder R152), ERRCODE is 0
exactly while ERR is (60_exceptions R180), a command in flight passed its checks (45_system R170), and the parameters are within the
bounds of 00_scope R1 and never change. -/
def Obligations.StepKeepsTheInvariant : Prop :=
  ∀ s t : State, s.Inv → step s = .next t → t.Inv ∧ t.params = s.params

/-- 60_exceptions R181, R184: nothing stops the block: from a state that meets the invariant every step answers a next
state. -/
def Obligations.StepNeverStops : Prop :=
  ∀ s : State, s.Inv → ∃ t, step s = .next t

/-- 70_reset R211, R212: from a state that meets the invariant the run ends, once: after at most one step more than there are
turns to come, the host has made its last access and BUSY is 0, and the first such state is its only result. After that many
steps no turn of any kind is left and no command is in flight. The turns are the model's choice (logs 1, 2). -/
def Obligations.EveryRunComesToItsEnd : Prop :=
  ∀ s : State, s.Inv →
    (∃ n t, n ≤ s.agenda.length + 1 ∧ s.runEnds n t ∧ ∀ n' t', s.runEnds n' t' → n' = n ∧ t' = t) ∧
    (∃ t, Host.Core.run Sys2Proof.core (s.agenda.length + 1) s = .next t ∧ t.agenda = [] ∧ t.busy = false)

/-- 60_exceptions R181, R182, 70_reset R211: an error once recorded stays with its first code through every step but a reset
and a STATUS write with bit 2 set; so a run with no error recorded has ERR = 0 in every state it passes through. What R211's
"no error recorded" says of a run is the model's reading (log 13). -/
def Obligations.FirstErrorStays : Prop :=
  (∀ s t : State, step s = .next t → s.err = true → ¬ s.clearsError → t.err = true ∧ t.errCode = s.errCode) ∧
  (∀ (s t : State) (n : Nat), s.cleanRun n t →
    ∀ k u, k ≤ n → Host.Core.run Sys2Proof.core k s = .next u → u.err = false)

/-- 44_decoder R153, 10_state R37: no step changes the cache or appends to the FIFO but one that executes SCAN (either), one
that executes DECODE (the cache) or a reset; a host write of MSG_POP alone takes from the FIFO besides. -/
def Obligations.OnlyDecodingWritesCacheAndFifo : Prop :=
  ∀ s t : State, step s = .next t → s.agenda.head? ≠ some .reset → s.running ≠ some .scan →
    (s.running ≠ some .decode → t.cache = s.cache) ∧
    (t.mq = s.mq ∨ (t.mq = s.mq.tail ∧
      ∃ a, s.nextAccess = some a ∧ a.kind = .write ∧ a.place s.params = some (.reg .msgPop)))

/-- 10_state R35, R16, R17, R20, R21, R26: no command, run or refused, changes a byte of IQ, nor CTRL, MODE, NOW, IQ_LEN or
FRAME_IN, nor a parameter. -/
def Obligations.CommandsLeaveTheHostsInputs : Prop :=
  ∀ (i : Instr) (s t : State), s.params.legal → exec i s = .next t →
    (∀ a, iqBase ≤ a → a < iqBase + s.params.iqCap → t.byte a = s.byte a)
      ∧ t.ctrl = s.ctrl ∧ t.mode = s.mode ∧ t.now = s.now ∧ t.iqLen = s.iqLen ∧ t.frameIn = s.frameIn
      ∧ t.params = s.params

/-! ### Arithmetic -/

/-- 00_scope R10, 40_spectral R95: one rounding, to the nearest, ties to even. That of `m / 2^k` to an integer is so. On finite
operands the sum, the difference, the product and the quotient are the exact result rounded once to binary64, an infinity
from halfway past the largest finite value on; an exact zero sum is `+0.0` unless both terms are `−0.0`. An infinite operand,
and a zero divisor, give what IEEE 754 gives. Integers below 2^53 convert exactly; negation negates; the comparisons compare
the values. -/
def Obligations.RoundingIsNearestTiesToEven : Prop :=
  (∀ m k n : Nat,
    ((roundShift m k * 2 ^ k : Nat) - (m : Int)).natAbs ≤ ((n * 2 ^ k : Nat) - (m : Int)).natAbs ∧
    (((roundShift m k * 2 ^ k : Nat) - (m : Int)).natAbs = ((n * 2 ^ k : Nat) - (m : Int)).natAbs →
      n ≠ roundShift m k → roundShift m k % 2 = 0)) ∧
  (∀ a b : F64, f64IsFinite a = true → f64IsFinite b = true →
    let sum := f64Value a + f64Value b
    let difference := f64Value a - f64Value b
    f64Rounded (f64Add a b) (if sum = 0 then f64Sign a && f64Sign b else decide (sum < 0)) sum.natAbs 1 ∧
    f64Rounded (f64Sub a b) (if difference = 0 then f64Sign a && !f64Sign b else decide (difference < 0))
      difference.natAbs 1 ∧
    f64Rounded (f64Mul a b) (f64Sign a != f64Sign b) (f64Units a * f64Units b) (2 ^ 1074) ∧
    (f64Units b ≠ 0 →
      f64Rounded (f64Div a b) (f64Sign a != f64Sign b) (f64Units a * 2 ^ 1074) (f64Units b)) ∧
    (f64Units b = 0 → f64Units a ≠ 0 → f64Div a b = f64Inf (f64Sign a != f64Sign b)) ∧
    (f64Units b = 0 → f64Units a = 0 → f64IsNaN (f64Div a b) = true) ∧
    f64Lt a b = decide (f64Value a < f64Value b) ∧ f64Le a b = decide (f64Value a ≤ f64Value b)) ∧
  (∀ (p q : Bool) (a : F64), f64IsFinite a = true →
    f64Add (f64Inf p) a = f64Inf p ∧ f64Add a (f64Inf p) = f64Inf p ∧
    f64Sub (f64Inf p) a = f64Inf p ∧ f64Sub a (f64Inf p) = f64Inf (!p) ∧
    (f64Units a ≠ 0 → f64Mul (f64Inf p) a = f64Inf (p != f64Sign a) ∧ f64Mul a (f64Inf p) = f64Inf (f64Sign a != p)) ∧
    (f64Units a = 0 → f64IsNaN (f64Mul (f64Inf p) a) = true ∧ f64IsNaN (f64Mul a (f64Inf p)) = true) ∧
    f64Div (f64Inf p) a = f64Inf (p != f64Sign a) ∧ f64Div a (f64Inf p) = f64Zero (f64Sign a != p) ∧
    f64Mul (f64Inf p) (f64Inf q) = f64Inf (p != q) ∧ f64IsNaN (f64Div (f64Inf p) (f64Inf q)) = true ∧
    (p = q → f64Add (f64Inf p) (f64Inf q) = f64Inf p ∧ f64IsNaN (f64Sub (f64Inf p) (f64Inf q)) = true) ∧
    (p ≠ q → f64Sub (f64Inf p) (f64Inf q) = f64Inf p ∧ f64IsNaN (f64Add (f64Inf p) (f64Inf q)) = true)) ∧
  (∀ n : Nat, n < 2 ^ 53 → f64IsFinite (f64OfNat n) = true ∧ f64Value (f64OfNat n) = ((n * 2 ^ 1074 : Nat) : Int)) ∧
  (∀ a : F64, f64IsFinite a = true → f64IsFinite (f64Neg a) = true ∧ f64Value (f64Neg a) = -f64Value a)

/-- 00_scope R10: COS and SIN return values in [−1, 1] and ATAN2 in [−PI, PI] for finite arguments, and an operation on a
NaN gives a NaN, whatever the free functions are. -/
def Obligations.FreeFunctionsKeepTheirRanges : Prop :=
  ∀ a b : F64,
    (f64Le (f64Neg f64One) (f64Cos a) = true ∧ f64Le (f64Cos a) f64One = true)
      ∧ (f64Le (f64Neg f64One) (f64Sin a) = true ∧ f64Le (f64Sin a) f64One = true)
      ∧ (f64IsFinite a = true → f64IsFinite b = true →
          f64Le (f64Neg f64Pi) (f64Atan2 a b) = true ∧ f64Le (f64Atan2 a b) f64Pi = true)
      ∧ (f64IsNaN a = true ∨ f64IsNaN b = true → f64IsNaN (f64Add a b) = true ∧ f64IsNaN (f64Sub a b) = true
          ∧ f64IsNaN (f64Mul a b) = true ∧ f64IsNaN (f64Div a b) = true)
end

