-- ==== Sys2Proof/Laws/F64.lean ====
section
/-!
SUPPORT. The fields of a binary64 encoding, and its magnitude as a strictly rising function of the encoding without its sign:
the neighbours of a value are the encodings next to its own.
-/
namespace Sys2Proof.Machine

@[simp] theorem f64Sign_pack (sign : Bool) (m : Nat) : f64Sign (f64Pack sign m) = sign := by
  simp only [f64Sign, f64Pack, BitVec.msb_eq_getLsbD_last, BitVec.getLsbD_append]
  cases sign <;> rfl

@[simp] theorem f64Mag_pack (sign : Bool) (m : Nat) : f64Mag (f64Pack sign m) = m % 2 ^ 63 := by
  have h : (BitVec.ofBool sign ++ BitVec.ofNat 63 m).extractLsb' 0 63 = BitVec.ofNat 63 m := by
    apply BitVec.eq_of_getLsbD_eq
    intro i hi
    have hc : (BitVec.ofBool sign ++ BitVec.ofNat 63 m).getLsbD i = (BitVec.ofNat 63 m).getLsbD i := by
      rw [BitVec.getLsbD_append, if_pos hi]
    rw [BitVec.getLsbD_extractLsb', decide_eq_true hi, Bool.true_and, Nat.zero_add]
    exact hc
  simp [f64Mag, f64Pack, h]

theorem f64Mag_lt (a : F64) : f64Mag a < 2 ^ 63 := BitVec.isLt _

/-- The exponent field is the upper part of the magnitude bits. -/
theorem f64ExpField_eq (a : F64) : f64ExpField a = f64Mag a / 2 ^ 52 := by
  simp only [f64ExpField, f64Mag, BitVec.extractLsb'_toNat, Nat.shiftRight_eq_div_pow]
  omega

/-- The fraction is their lower part. -/
theorem f64Frac_eq (a : F64) : f64Frac a = f64Mag a % 2 ^ 52 := by
  simp only [f64Frac, f64Mag, BitVec.extractLsb'_toNat, Nat.shiftRight_eq_div_pow]
  omega

/-- A value is finite exactly below the infinities' encoding. -/
theorem f64IsFinite_iff (a : F64) : f64IsFinite a = true ↔ f64Mag a < 2047 * 2 ^ 52 := by
  have := f64Mag_lt a
  simp only [f64IsFinite, f64ExpField_eq, bne_iff_ne, ne_eq]
  omega

/-- Sign and magnitude bits determine an encoding. -/
theorem f64_eq_of_sign_mag {a b : F64} (hs : f64Sign a = f64Sign b) (hm : f64Mag a = f64Mag b) : a = b := by
  have ha : (a.extractLsb' 0 63) = (b.extractLsb' 0 63) := BitVec.eq_of_toNat_eq hm
  apply BitVec.eq_of_getLsbD_eq
  intro i hi
  by_cases h : i < 63
  · simpa [h] using congrArg (BitVec.getLsbD · i) ha
  · obtain rfl : i = 63 := by omega
    simpa [f64Sign, BitVec.msb_eq_getLsbD_last] using hs

/-- The magnitude, in units of `2^−1074`, that the magnitude bits `m` stand for. -/
def unitsOfMag (m : Nat) : Nat := if m / 2 ^ 52 = 0 then m % 2 ^ 52 else (2 ^ 52 + m % 2 ^ 52) * 2 ^ (m / 2 ^ 52 - 1)

theorem f64Units_eq (a : F64) : f64Units a = unitsOfMag (f64Mag a) := by
  simp only [f64Units, unitsOfMag, f64ExpField_eq, f64Frac_eq]

/-- A subnormal's bits are its magnitude. -/
theorem unitsOfMag_subnormal {m : Nat} (h : m < 2 ^ 52) : unitsOfMag m = m := by
  rw [unitsOfMag, if_pos (by omega)]
  omega

/-- The magnitude of a normal value, by its exponent field and fraction. -/
theorem unitsOfMag_normal (e f : Nat) (he : 1 ≤ e) (hf : f < 2 ^ 52) :
    unitsOfMag (e * 2 ^ 52 + f) = (2 ^ 52 + f) * 2 ^ (e - 1) := by
  have h1 : (e * 2 ^ 52 + f) / 2 ^ 52 = e := by omega
  have h2 : (e * 2 ^ 52 + f) % 2 ^ 52 = f := by omega
  rw [unitsOfMag, h1, h2, if_neg (by omega)]

/-- The next encoding stands for one last place more: `2^(e−1)`, or 1 below the normal values. -/
theorem unitsOfMag_succ (m : Nat) : unitsOfMag (m + 1) = unitsOfMag m + 2 ^ (m / 2 ^ 52 - 1) := by
  by_cases hs : m < 2 ^ 52
  · have h0 : m / 2 ^ 52 - 1 = 0 := by omega
    rw [unitsOfMag_subnormal hs, h0]
    by_cases h : m + 1 < 2 ^ 52
    · exact unitsOfMag_subnormal h
    · obtain rfl : m = 2 ^ 52 - 1 := by omega
      rfl
  · obtain ⟨e, f, rfl, he, hf⟩ : ∃ e f, m = e * 2 ^ 52 + f ∧ 1 ≤ e ∧ f < 2 ^ 52 :=
      ⟨m / 2 ^ 52, m % 2 ^ 52, by omega, by omega, Nat.mod_lt _ (by decide)⟩
    have hd : (e * 2 ^ 52 + f) / 2 ^ 52 = e := by omega
    rw [unitsOfMag_normal e f he hf, hd]
    by_cases h : f + 1 < 2 ^ 52
    · rw [Nat.add_assoc, unitsOfMag_normal e (f + 1) he h, ← Nat.add_assoc, Nat.add_mul, Nat.one_mul]
    · obtain rfl : f = 2 ^ 52 - 1 := by omega
      obtain ⟨k, rfl⟩ : ∃ k, e = k + 1 := ⟨e - 1, by omega⟩
      rw [show (k + 1) * 2 ^ 52 + (2 ^ 52 - 1) + 1 = (k + 2) * 2 ^ 52 + 0 by omega,
        unitsOfMag_normal (k + 2) 0 (by omega) (by decide)]
      simp only [Nat.add_sub_cancel, show k + 2 - 1 = k + 1 from rfl, Nat.pow_succ 2 k]
      generalize 2 ^ k = x
      omega

/-- Larger magnitude bits, larger magnitude. -/
theorem unitsOfMag_lt {m n : Nat} (h : m < n) : unitsOfMag m < unitsOfMag n := by
  induction n with
  | zero => omega
  | succ n ih =>
    have hs := unitsOfMag_succ n
    have hp : 0 < 2 ^ (n / 2 ^ 52 - 1) := Nat.pow_pos (by decide)
    rcases Nat.lt_succ_iff_lt_or_eq.mp h with h | rfl
    · have := ih h
      omega
    · omega

end Sys2Proof.Machine
end

