-- ==== Sys2Proof/Laws/Memory.lean ====
section
/-!
SUPPORT. The laws of the buffers: what a byte reads after a write, that every write keeps the canonical form, and that the
one-walk read of many bytes is the byte read at each offset.
-/
namespace Sys2Proof.Machine

@[simp] theorem cellsFrom_length (a : Nat) (bs : List Byte) : (cellsFrom a bs).length = bs.length := by
  induction bs generalizing a with
  | nil => rfl
  | cons b bs ih => simp [cellsFrom, ih]

theorem mem_cellsFrom {a : Nat} {bs : List Byte} {c : Host.Cell} (h : c ∈ cellsFrom a bs) :
    a ≤ c.1 ∧ c.1 < a + bs.length := by
  induction bs generalizing a with
  | nil => simp [cellsFrom] at h
  | cons b bs ih =>
    simp only [cellsFrom, List.mem_cons] at h
    rcases h with rfl | h
    · simp
    · have := ih h
      simp only [List.length_cons]
      omega

theorem cellsFrom_wf (a : Nat) (bs : List Byte) : Memory.wf (cellsFrom a bs) := by
  induction bs generalizing a with
  | nil => exact List.Pairwise.nil
  | cons b bs ih =>
    refine List.pairwise_cons.mpr ⟨fun c hc => ?_, ih (a + 1)⟩
    have := mem_cellsFrom hc
    show a < c.1
    omega

/-- Every write keeps the canonical form. -/
theorem Memory.put_wf {m : Memory} (h : m.wf) (a : Nat) (bs : List Byte) : (m.put a bs).wf := by
  refine List.pairwise_append.mpr ⟨h.filter _, List.pairwise_append.mpr ⟨cellsFrom_wf a bs, h.filter _, ?_⟩, ?_⟩
  · intro x hx y hy
    have h1 := mem_cellsFrom hx
    have h2 := (List.mem_filter.mp hy).2
    simp only [decide_eq_true_eq] at h2
    omega
  · intro x hx y hy
    have h1 := (List.mem_filter.mp hx).2
    simp only [decide_eq_true_eq] at h1
    rcases List.mem_append.mp hy with hy | hy
    · have := mem_cellsFrom hy
      omega
    · have h2 := (List.mem_filter.mp hy).2
      simp only [decide_eq_true_eq] at h2
      omega

/-- A cell of the memory after a write is one stored or an old one outside. -/
theorem Memory.mem_put {m : Memory} {a : Nat} {bs : List Byte} {c : Host.Cell} (h : c ∈ m.put a bs) :
    c ∈ cellsFrom a bs ∨ (c ∈ m ∧ (c.1 < a ∨ a + bs.length ≤ c.1)) := by
  simp only [Memory.put, List.mem_append, List.mem_filter, decide_eq_true_eq] at h
  rcases h with ⟨h1, h2⟩ | h | ⟨h1, h2⟩
  · exact .inr ⟨h1, .inl h2⟩
  · exact .inl h
  · exact .inr ⟨h1, .inr h2⟩

theorem find_filter_of_imp {p q : Host.Cell → Bool} (h : ∀ c, p c = true → q c = true) (m : Memory) :
    (m.filter q).find? p = m.find? p := by
  induction m with
  | nil => rfl
  | cons c m ih =>
    by_cases hq : q c = true
    · simp only [List.filter_cons, hq, if_true, List.find?_cons]
      cases p c <;> simp [ih]
    · have hp : p c = false := by
        cases hpc : p c with
        | false => rfl
        | true => exact absurd (h c hpc) hq
      simp only [List.filter_cons, hq, List.find?_cons, hp]
      simpa using ih

theorem find_none_of_forall {p : Host.Cell → Bool} {m : Memory} (h : ∀ c ∈ m, p c = false) : m.find? p = none := by
  rw [List.find?_eq_none]
  intro c hc
  simp [h c hc]

/-- Outside the bytes stored a write changes nothing, whatever the form of the memory. -/
theorem Memory.get_put_outside (m : Memory) (a : Nat) (bs : List Byte) (x : Nat) (h : x < a ∨ a + bs.length ≤ x) :
    (m.put a bs).get x = m.get x := by
  have hmid : (cellsFrom a bs).find? (fun c => c.1 == x) = none := by
    refine find_none_of_forall fun c hc => ?_
    have := mem_cellsFrom hc
    simp only [beq_eq_false_iff_ne]
    omega
  unfold Memory.get Memory.put
  rw [List.find?_append, List.find?_append, hmid]
  rcases h with h | h
  · have h1 : (m.filter (fun c => decide (c.1 < a))).find? (fun c => c.1 == x) = m.find? (fun c => c.1 == x) :=
      find_filter_of_imp (fun c hc => by simp only [beq_iff_eq] at hc; simp only [decide_eq_true_eq]; omega) m
    have h2 : (m.filter (fun c => decide (a + bs.length ≤ c.1))).find? (fun c => c.1 == x) = none :=
      find_none_of_forall fun c hc => by
        have := (List.mem_filter.mp hc).2
        simp only [decide_eq_true_eq] at this
        simp only [beq_eq_false_iff_ne]
        omega
    simp [h1, h2]
  · have h1 : (m.filter (fun c => decide (c.1 < a))).find? (fun c => c.1 == x) = none :=
      find_none_of_forall fun c hc => by
        have := (List.mem_filter.mp hc).2
        simp only [decide_eq_true_eq] at this
        simp only [beq_eq_false_iff_ne]
        omega
    have h2 : (m.filter (fun c => decide (a + bs.length ≤ c.1))).find? (fun c => c.1 == x)
        = m.find? (fun c => c.1 == x) :=
      find_filter_of_imp (fun c hc => by simp only [beq_iff_eq] at hc; simp only [decide_eq_true_eq]; omega) m
    simp [h1, h2]

theorem find_cellsFrom (a : Nat) (bs : List Byte) (i : Nat) (h : i < bs.length) :
    (cellsFrom a bs).find? (fun c => c.1 == a + i) = some (a + i, bs[i]) := by
  induction bs generalizing a i with
  | nil => simp at h
  | cons b bs ih =>
    cases i with
    | zero => simp [cellsFrom]
    | succ i =>
      have hne : (a == a + (i + 1)) = false := by simp only [beq_eq_false_iff_ne]; omega
      have h' : i < bs.length := by simpa using h
      have := ih (a + 1) i h'
      have he : a + 1 + i = a + (i + 1) := by omega
      rw [he] at this
      simpa [cellsFrom, List.find?_cons, hne] using this

/-- A stored byte reads back, whatever the form of the memory. -/
theorem Memory.get_put_inside (m : Memory) (a : Nat) (bs : List Byte) (i : Nat) (h : i < bs.length) :
    (m.put a bs).get (a + i) = some bs[i] := by
  have h1 : (m.filter (fun c => decide (c.1 < a))).find? (fun c => c.1 == a + i) = none :=
    find_none_of_forall fun c hc => by
      have := (List.mem_filter.mp hc).2
      simp only [decide_eq_true_eq] at this
      simp only [beq_eq_false_iff_ne]
      omega
  unfold Memory.get Memory.put
  rw [List.find?_append, List.find?_append, h1, find_cellsFrom a bs i h]
  rfl

@[simp] theorem State.byte_put_inside (s : State) (a : Nat) (bs : List Byte) (i : Nat) (h : i < bs.length) :
    (s.putBytes a bs).byte (a + i) = bs[i] := by
  simp [State.byte, State.putBytes, memByte, Memory.get_put_inside s.mem a bs i h]

theorem State.byte_put_outside (s : State) (a : Nat) (bs : List Byte) (x : Nat) (h : x < a ∨ a + bs.length ≤ x) :
    (s.putBytes a bs).byte x = s.byte x := by
  simp [State.byte, State.putBytes, memByte, Memory.get_put_outside s.mem a bs x h]

/-! ### Reading many bytes in one walk -/

@[simp] theorem memBytes_length (ep : Nat) (m : Memory) (a n : Nat) : (memBytes ep m a n).length = n := by
  induction n generalizing m a with
  | zero => rfl
  | succ n ih => simp [memBytes, ih]

@[simp] theorem State.bytes_length (s : State) (a n : Nat) : (s.bytes a n).length = n := memBytes_length ..

theorem memByte_dropWhile (ep : Nat) (m : Memory) (a x : Nat) (h : a ≤ x) :
    memByte ep (m.dropWhile (fun c => c.1 < a)) x = memByte ep m x := by
  unfold memByte Memory.get
  induction m with
  | nil => rfl
  | cons c m ih =>
    by_cases hc : c.1 < a
    · have hne : (c.1 == x) = false := by simp only [beq_eq_false_iff_ne]; omega
      simp only [List.dropWhile_cons, hc, decide_true, if_true, List.find?_cons, hne]
      exact ih
    · simp [hc]

theorem headByte_dropWhile (ep : Nat) (m : Memory) (hm : m.wf) (a : Nat) :
    headByte ep (m.dropWhile (fun c => c.1 < a)) a = memByte ep m a := by
  rw [← memByte_dropWhile ep m a a (Nat.le_refl a)]
  have hwf : Memory.wf (m.dropWhile (fun c => c.1 < a)) := hm.sublist (List.dropWhile_sublist _)
  have hhead : ∀ c l, m.dropWhile (fun c => c.1 < a) = c :: l → a ≤ c.1 := by
    intro c l h
    have hne : m.dropWhile (fun c => decide (c.1 < a)) ≠ [] := by rw [h]; simp
    have hs := List.head_dropWhile_not (fun c : Host.Cell => decide (c.1 < a)) hne
    simp only [h, List.head_cons, decide_eq_false_iff_not] at hs
    omega
  generalize m.dropWhile (fun c => c.1 < a) = r at hwf hhead
  cases r with
  | nil => simp [headByte, memByte, Memory.get]
  | cons c l =>
    have hc := hhead c l rfl
    by_cases he : c.1 = a
    · simp [headByte, memByte, Memory.get, he]
    · have hl : l.find? (fun d => d.1 == a) = none := by
        refine find_none_of_forall fun d hd => ?_
        have := (List.pairwise_cons.mp hwf).1 d hd
        simp only [beq_eq_false_iff_ne]
        omega
      have hne : (c.1 == a) = false := by simpa using he
      simp [headByte, memByte, Memory.get, he, hne, hl]

/-- In canonical form the walk reads each byte. -/
theorem memBytes_eq_map (ep : Nat) (m : Memory) (hm : m.wf) (a n : Nat) :
    memBytes ep m a n = (List.range' a n).map (memByte ep m) := by
  induction n generalizing m a with
  | zero => rfl
  | succ n ih =>
    have hwf : Memory.wf (m.dropWhile (fun c => c.1 < a)) := hm.sublist (List.dropWhile_sublist _)
    simp only [memBytes, List.range'_succ, List.map_cons]
    rw [headByte_dropWhile ep m hm a, ih _ hwf]
    congr 1
    refine List.map_congr_left fun x hx => ?_
    have := List.mem_range'_1.mp hx
    exact memByte_dropWhile ep m a x (by omega)

theorem State.bytes_eq_map (s : State) (hm : s.mem.wf) (a n : Nat) :
    s.bytes a n = (List.range' a n).map s.byte := memBytes_eq_map s.epoch s.mem hm a n

end Sys2Proof.Machine
end

