-- ==== Sys2Proof/Laws/State.lean ====
section
/-!
SUPPORT. What each named update of the state does to each field, one lemma per field per update.
-/
namespace Sys2Proof.Machine

/-! ### `State.raise` -/

@[simp] theorem State.raise_params (s : State) (e : ErrCode) :
    (s.raise e).params = s.params := rfl
@[simp] theorem State.raise_ctrl (s : State) (e : ErrCode) :
    (s.raise e).ctrl = s.ctrl := rfl
@[simp] theorem State.raise_mode (s : State) (e : ErrCode) :
    (s.raise e).mode = s.mode := rfl
@[simp] theorem State.raise_done (s : State) (e : ErrCode) :
    (s.raise e).done = s.done := rfl
@[simp] theorem State.raise_err (s : State) (e : ErrCode) :
    (s.raise e).err = true := rfl
@[simp] theorem State.raise_errCode (s : State) (e : ErrCode) :
    (s.raise e).errCode = if s.err then s.errCode else e := rfl
@[simp] theorem State.raise_msgOvf (s : State) (e : ErrCode) :
    (s.raise e).msgOvf = s.msgOvf := rfl
@[simp] theorem State.raise_pending (s : State) (e : ErrCode) :
    (s.raise e).pending = s.pending := rfl
@[simp] theorem State.raise_now (s : State) (e : ErrCode) :
    (s.raise e).now = s.now := rfl
@[simp] theorem State.raise_iqLen (s : State) (e : ErrCode) :
    (s.raise e).iqLen = s.iqLen := rfl
@[simp] theorem State.raise_magLen (s : State) (e : ErrCode) :
    (s.raise e).magLen = s.magLen := rfl
@[simp] theorem State.raise_scanPos (s : State) (e : ErrCode) :
    (s.raise e).scanPos = s.scanPos := rfl
@[simp] theorem State.raise_audioLen (s : State) (e : ErrCode) :
    (s.raise e).audioLen = s.audioLen := rfl
@[simp] theorem State.raise_lastPhase (s : State) (e : ErrCode) :
    (s.raise e).lastPhase = s.lastPhase := rfl
@[simp] theorem State.raise_frameIn (s : State) (e : ErrCode) :
    (s.raise e).frameIn = s.frameIn := rfl
@[simp] theorem State.raise_crc (s : State) (e : ErrCode) :
    (s.raise e).crc = s.crc := rfl
@[simp] theorem State.raise_probe (s : State) (e : ErrCode) :
    (s.raise e).probe = s.probe := rfl
@[simp] theorem State.raise_dec (s : State) (e : ErrCode) :
    (s.raise e).dec = s.dec := rfl
@[simp] theorem State.raise_mq (s : State) (e : ErrCode) :
    (s.raise e).mq = s.mq := rfl
@[simp] theorem State.raise_msgDrops (s : State) (e : ErrCode) :
    (s.raise e).msgDrops = s.msgDrops := rfl
@[simp] theorem State.raise_cache (s : State) (e : ErrCode) :
    (s.raise e).cache = s.cache := rfl
@[simp] theorem State.raise_mem (s : State) (e : ErrCode) :
    (s.raise e).mem = s.mem := rfl
@[simp] theorem State.raise_resp (s : State) (e : ErrCode) :
    (s.raise e).resp = s.resp := rfl
@[simp] theorem State.raise_agenda (s : State) (e : ErrCode) :
    (s.raise e).agenda = s.agenda := rfl
@[simp] theorem State.raise_draw (s : State) (e : ErrCode) :
    (s.raise e).draw = s.draw := rfl
@[simp] theorem State.raise_epoch (s : State) (e : ErrCode) :
    (s.raise e).epoch = s.epoch := rfl

/-! ### `State.busError` -/

@[simp] theorem State.busError_params (s : State) (e : ErrCode) :
    (s.busError e).params = s.params := rfl
@[simp] theorem State.busError_ctrl (s : State) (e : ErrCode) :
    (s.busError e).ctrl = s.ctrl := rfl
@[simp] theorem State.busError_mode (s : State) (e : ErrCode) :
    (s.busError e).mode = s.mode := rfl
@[simp] theorem State.busError_done (s : State) (e : ErrCode) :
    (s.busError e).done = s.done := rfl
@[simp] theorem State.busError_err (s : State) (e : ErrCode) :
    (s.busError e).err = true := rfl
@[simp] theorem State.busError_errCode (s : State) (e : ErrCode) :
    (s.busError e).errCode = if s.err then s.errCode else e := rfl
@[simp] theorem State.busError_msgOvf (s : State) (e : ErrCode) :
    (s.busError e).msgOvf = s.msgOvf := rfl
@[simp] theorem State.busError_pending (s : State) (e : ErrCode) :
    (s.busError e).pending = s.pending := rfl
@[simp] theorem State.busError_now (s : State) (e : ErrCode) :
    (s.busError e).now = s.now := rfl
@[simp] theorem State.busError_iqLen (s : State) (e : ErrCode) :
    (s.busError e).iqLen = s.iqLen := rfl
@[simp] theorem State.busError_magLen (s : State) (e : ErrCode) :
    (s.busError e).magLen = s.magLen := rfl
@[simp] theorem State.busError_scanPos (s : State) (e : ErrCode) :
    (s.busError e).scanPos = s.scanPos := rfl
@[simp] theorem State.busError_audioLen (s : State) (e : ErrCode) :
    (s.busError e).audioLen = s.audioLen := rfl
@[simp] theorem State.busError_lastPhase (s : State) (e : ErrCode) :
    (s.busError e).lastPhase = s.lastPhase := rfl
@[simp] theorem State.busError_frameIn (s : State) (e : ErrCode) :
    (s.busError e).frameIn = s.frameIn := rfl
@[simp] theorem State.busError_crc (s : State) (e : ErrCode) :
    (s.busError e).crc = s.crc := rfl
@[simp] theorem State.busError_probe (s : State) (e : ErrCode) :
    (s.busError e).probe = s.probe := rfl
@[simp] theorem State.busError_dec (s : State) (e : ErrCode) :
    (s.busError e).dec = s.dec := rfl
@[simp] theorem State.busError_mq (s : State) (e : ErrCode) :
    (s.busError e).mq = s.mq := rfl
@[simp] theorem State.busError_msgDrops (s : State) (e : ErrCode) :
    (s.busError e).msgDrops = s.msgDrops := rfl
@[simp] theorem State.busError_cache (s : State) (e : ErrCode) :
    (s.busError e).cache = s.cache := rfl
@[simp] theorem State.busError_mem (s : State) (e : ErrCode) :
    (s.busError e).mem = s.mem := rfl
@[simp] theorem State.busError_resp (s : State) (e : ErrCode) :
    (s.busError e).resp = some { data := 0, error := true } := rfl
@[simp] theorem State.busError_agenda (s : State) (e : ErrCode) :
    (s.busError e).agenda = s.agenda := rfl
@[simp] theorem State.busError_draw (s : State) (e : ErrCode) :
    (s.busError e).draw = s.draw := rfl
@[simp] theorem State.busError_epoch (s : State) (e : ErrCode) :
    (s.busError e).epoch = s.epoch := rfl

/-! ### `State.writeStatus` -/

@[simp] theorem State.writeStatus_params (s : State) (v : Word) :
    (s.writeStatus v).params = s.params := rfl
@[simp] theorem State.writeStatus_ctrl (s : State) (v : Word) :
    (s.writeStatus v).ctrl = s.ctrl := rfl
@[simp] theorem State.writeStatus_mode (s : State) (v : Word) :
    (s.writeStatus v).mode = s.mode := rfl
@[simp] theorem State.writeStatus_done (s : State) (v : Word) :
    (s.writeStatus v).done = (s.done && !v.getLsbD 1) := rfl
@[simp] theorem State.writeStatus_err (s : State) (v : Word) :
    (s.writeStatus v).err = (s.err && !v.getLsbD 2) := rfl
@[simp] theorem State.writeStatus_errCode (s : State) (v : Word) :
    (s.writeStatus v).errCode = if v.getLsbD 2 then .noError else s.errCode := rfl
@[simp] theorem State.writeStatus_msgOvf (s : State) (v : Word) :
    (s.writeStatus v).msgOvf = (s.msgOvf && !v.getLsbD 3) := rfl
@[simp] theorem State.writeStatus_pending (s : State) (v : Word) :
    (s.writeStatus v).pending = s.pending := rfl
@[simp] theorem State.writeStatus_now (s : State) (v : Word) :
    (s.writeStatus v).now = s.now := rfl
@[simp] theorem State.writeStatus_iqLen (s : State) (v : Word) :
    (s.writeStatus v).iqLen = s.iqLen := rfl
@[simp] theorem State.writeStatus_magLen (s : State) (v : Word) :
    (s.writeStatus v).magLen = s.magLen := rfl
@[simp] theorem State.writeStatus_scanPos (s : State) (v : Word) :
    (s.writeStatus v).scanPos = s.scanPos := rfl
@[simp] theorem State.writeStatus_audioLen (s : State) (v : Word) :
    (s.writeStatus v).audioLen = s.audioLen := rfl
@[simp] theorem State.writeStatus_lastPhase (s : State) (v : Word) :
    (s.writeStatus v).lastPhase = s.lastPhase := rfl
@[simp] theorem State.writeStatus_frameIn (s : State) (v : Word) :
    (s.writeStatus v).frameIn = s.frameIn := rfl
@[simp] theorem State.writeStatus_crc (s : State) (v : Word) :
    (s.writeStatus v).crc = s.crc := rfl
@[simp] theorem State.writeStatus_probe (s : State) (v : Word) :
    (s.writeStatus v).probe = s.probe := rfl
@[simp] theorem State.writeStatus_dec (s : State) (v : Word) :
    (s.writeStatus v).dec = s.dec := rfl
@[simp] theorem State.writeStatus_mq (s : State) (v : Word) :
    (s.writeStatus v).mq = s.mq := rfl
@[simp] theorem State.writeStatus_msgDrops (s : State) (v : Word) :
    (s.writeStatus v).msgDrops = s.msgDrops := rfl
@[simp] theorem State.writeStatus_cache (s : State) (v : Word) :
    (s.writeStatus v).cache = s.cache := rfl
@[simp] theorem State.writeStatus_mem (s : State) (v : Word) :
    (s.writeStatus v).mem = s.mem := rfl
@[simp] theorem State.writeStatus_resp (s : State) (v : Word) :
    (s.writeStatus v).resp = s.resp := rfl
@[simp] theorem State.writeStatus_agenda (s : State) (v : Word) :
    (s.writeStatus v).agenda = s.agenda := rfl
@[simp] theorem State.writeStatus_draw (s : State) (v : Word) :
    (s.writeStatus v).draw = s.draw := rfl
@[simp] theorem State.writeStatus_epoch (s : State) (v : Word) :
    (s.writeStatus v).epoch = s.epoch := rfl

/-! ### `State.start` -/

@[simp] theorem State.start_params (s : State) (w : Word) :
    (s.start w).params = s.params := rfl
@[simp] theorem State.start_ctrl (s : State) (w : Word) :
    (s.start w).ctrl = s.ctrl := rfl
@[simp] theorem State.start_mode (s : State) (w : Word) :
    (s.start w).mode = s.mode := rfl
@[simp] theorem State.start_done (s : State) (w : Word) :
    (s.start w).done = s.done := rfl
@[simp] theorem State.start_err (s : State) (w : Word) :
    (s.start w).err = s.err := rfl
@[simp] theorem State.start_errCode (s : State) (w : Word) :
    (s.start w).errCode = s.errCode := rfl
@[simp] theorem State.start_msgOvf (s : State) (w : Word) :
    (s.start w).msgOvf = s.msgOvf := rfl
@[simp] theorem State.start_pending (s : State) (w : Word) :
    (s.start w).pending = some w := rfl
@[simp] theorem State.start_now (s : State) (w : Word) :
    (s.start w).now = s.now := rfl
@[simp] theorem State.start_iqLen (s : State) (w : Word) :
    (s.start w).iqLen = s.iqLen := rfl
@[simp] theorem State.start_magLen (s : State) (w : Word) :
    (s.start w).magLen = s.magLen := rfl
@[simp] theorem State.start_scanPos (s : State) (w : Word) :
    (s.start w).scanPos = s.scanPos := rfl
@[simp] theorem State.start_audioLen (s : State) (w : Word) :
    (s.start w).audioLen = s.audioLen := rfl
@[simp] theorem State.start_lastPhase (s : State) (w : Word) :
    (s.start w).lastPhase = s.lastPhase := rfl
@[simp] theorem State.start_frameIn (s : State) (w : Word) :
    (s.start w).frameIn = s.frameIn := rfl
@[simp] theorem State.start_crc (s : State) (w : Word) :
    (s.start w).crc = s.crc := rfl
@[simp] theorem State.start_probe (s : State) (w : Word) :
    (s.start w).probe = s.probe := rfl
@[simp] theorem State.start_dec (s : State) (w : Word) :
    (s.start w).dec = s.dec := rfl
@[simp] theorem State.start_mq (s : State) (w : Word) :
    (s.start w).mq = s.mq := rfl
@[simp] theorem State.start_msgDrops (s : State) (w : Word) :
    (s.start w).msgDrops = s.msgDrops := rfl
@[simp] theorem State.start_cache (s : State) (w : Word) :
    (s.start w).cache = s.cache := rfl
@[simp] theorem State.start_mem (s : State) (w : Word) :
    (s.start w).mem = s.mem := rfl
@[simp] theorem State.start_resp (s : State) (w : Word) :
    (s.start w).resp = s.resp := rfl
@[simp] theorem State.start_agenda (s : State) (w : Word) :
    (s.start w).agenda = s.agenda := rfl
@[simp] theorem State.start_draw (s : State) (w : Word) :
    (s.start w).draw = s.draw := rfl
@[simp] theorem State.start_epoch (s : State) (w : Word) :
    (s.start w).epoch = s.epoch := rfl

/-! ### `State.complete` -/

@[simp] theorem State.complete_params (s : State) :
    (s.complete).params = s.params := rfl
@[simp] theorem State.complete_ctrl (s : State) :
    (s.complete).ctrl = s.ctrl := rfl
@[simp] theorem State.complete_mode (s : State) :
    (s.complete).mode = s.mode := rfl
@[simp] theorem State.complete_done (s : State) :
    (s.complete).done = true := rfl
@[simp] theorem State.complete_err (s : State) :
    (s.complete).err = s.err := rfl
@[simp] theorem State.complete_errCode (s : State) :
    (s.complete).errCode = s.errCode := rfl
@[simp] theorem State.complete_msgOvf (s : State) :
    (s.complete).msgOvf = s.msgOvf := rfl
@[simp] theorem State.complete_pending (s : State) :
    (s.complete).pending = none := rfl
@[simp] theorem State.complete_now (s : State) :
    (s.complete).now = s.now := rfl
@[simp] theorem State.complete_iqLen (s : State) :
    (s.complete).iqLen = s.iqLen := rfl
@[simp] theorem State.complete_magLen (s : State) :
    (s.complete).magLen = s.magLen := rfl
@[simp] theorem State.complete_scanPos (s : State) :
    (s.complete).scanPos = s.scanPos := rfl
@[simp] theorem State.complete_audioLen (s : State) :
    (s.complete).audioLen = s.audioLen := rfl
@[simp] theorem State.complete_lastPhase (s : State) :
    (s.complete).lastPhase = s.lastPhase := rfl
@[simp] theorem State.complete_frameIn (s : State) :
    (s.complete).frameIn = s.frameIn := rfl
@[simp] theorem State.complete_crc (s : State) :
    (s.complete).crc = s.crc := rfl
@[simp] theorem State.complete_probe (s : State) :
    (s.complete).probe = s.probe := rfl
@[simp] theorem State.complete_dec (s : State) :
    (s.complete).dec = s.dec := rfl
@[simp] theorem State.complete_mq (s : State) :
    (s.complete).mq = s.mq := rfl
@[simp] theorem State.complete_msgDrops (s : State) :
    (s.complete).msgDrops = s.msgDrops := rfl
@[simp] theorem State.complete_cache (s : State) :
    (s.complete).cache = s.cache := rfl
@[simp] theorem State.complete_mem (s : State) :
    (s.complete).mem = s.mem := rfl
@[simp] theorem State.complete_resp (s : State) :
    (s.complete).resp = s.resp := rfl
@[simp] theorem State.complete_agenda (s : State) :
    (s.complete).agenda = s.agenda := rfl
@[simp] theorem State.complete_draw (s : State) :
    (s.complete).draw = s.draw := rfl
@[simp] theorem State.complete_epoch (s : State) :
    (s.complete).epoch = s.epoch := rfl

/-! ### `State.respond` -/

@[simp] theorem State.respond_params (s : State) (v : Word) :
    (s.respond v).params = s.params := rfl
@[simp] theorem State.respond_ctrl (s : State) (v : Word) :
    (s.respond v).ctrl = s.ctrl := rfl
@[simp] theorem State.respond_mode (s : State) (v : Word) :
    (s.respond v).mode = s.mode := rfl
@[simp] theorem State.respond_done (s : State) (v : Word) :
    (s.respond v).done = s.done := rfl
@[simp] theorem State.respond_err (s : State) (v : Word) :
    (s.respond v).err = s.err := rfl
@[simp] theorem State.respond_errCode (s : State) (v : Word) :
    (s.respond v).errCode = s.errCode := rfl
@[simp] theorem State.respond_msgOvf (s : State) (v : Word) :
    (s.respond v).msgOvf = s.msgOvf := rfl
@[simp] theorem State.respond_pending (s : State) (v : Word) :
    (s.respond v).pending = s.pending := rfl
@[simp] theorem State.respond_now (s : State) (v : Word) :
    (s.respond v).now = s.now := rfl
@[simp] theorem State.respond_iqLen (s : State) (v : Word) :
    (s.respond v).iqLen = s.iqLen := rfl
@[simp] theorem State.respond_magLen (s : State) (v : Word) :
    (s.respond v).magLen = s.magLen := rfl
@[simp] theorem State.respond_scanPos (s : State) (v : Word) :
    (s.respond v).scanPos = s.scanPos := rfl
@[simp] theorem State.respond_audioLen (s : State) (v : Word) :
    (s.respond v).audioLen = s.audioLen := rfl
@[simp] theorem State.respond_lastPhase (s : State) (v : Word) :
    (s.respond v).lastPhase = s.lastPhase := rfl
@[simp] theorem State.respond_frameIn (s : State) (v : Word) :
    (s.respond v).frameIn = s.frameIn := rfl
@[simp] theorem State.respond_crc (s : State) (v : Word) :
    (s.respond v).crc = s.crc := rfl
@[simp] theorem State.respond_probe (s : State) (v : Word) :
    (s.respond v).probe = s.probe := rfl
@[simp] theorem State.respond_dec (s : State) (v : Word) :
    (s.respond v).dec = s.dec := rfl
@[simp] theorem State.respond_mq (s : State) (v : Word) :
    (s.respond v).mq = s.mq := rfl
@[simp] theorem State.respond_msgDrops (s : State) (v : Word) :
    (s.respond v).msgDrops = s.msgDrops := rfl
@[simp] theorem State.respond_cache (s : State) (v : Word) :
    (s.respond v).cache = s.cache := rfl
@[simp] theorem State.respond_mem (s : State) (v : Word) :
    (s.respond v).mem = s.mem := rfl
@[simp] theorem State.respond_resp (s : State) (v : Word) :
    (s.respond v).resp = some { data := v, error := false } := rfl
@[simp] theorem State.respond_agenda (s : State) (v : Word) :
    (s.respond v).agenda = s.agenda := rfl
@[simp] theorem State.respond_draw (s : State) (v : Word) :
    (s.respond v).draw = s.draw := rfl
@[simp] theorem State.respond_epoch (s : State) (v : Word) :
    (s.respond v).epoch = s.epoch := rfl

/-! ### `State.redraw` -/

@[simp] theorem State.redraw_params (s : State) :
    (s.redraw).params = s.params := rfl
@[simp] theorem State.redraw_ctrl (s : State) :
    (s.redraw).ctrl = s.ctrl := rfl
@[simp] theorem State.redraw_mode (s : State) :
    (s.redraw).mode = s.mode := rfl
@[simp] theorem State.redraw_done (s : State) :
    (s.redraw).done = s.done := rfl
@[simp] theorem State.redraw_err (s : State) :
    (s.redraw).err = s.err := rfl
@[simp] theorem State.redraw_errCode (s : State) :
    (s.redraw).errCode = s.errCode := rfl
@[simp] theorem State.redraw_msgOvf (s : State) :
    (s.redraw).msgOvf = s.msgOvf := rfl
@[simp] theorem State.redraw_pending (s : State) :
    (s.redraw).pending = s.pending := rfl
@[simp] theorem State.redraw_now (s : State) :
    (s.redraw).now = s.now := rfl
@[simp] theorem State.redraw_iqLen (s : State) :
    (s.redraw).iqLen = s.iqLen := rfl
@[simp] theorem State.redraw_magLen (s : State) :
    (s.redraw).magLen = s.magLen := rfl
@[simp] theorem State.redraw_scanPos (s : State) :
    (s.redraw).scanPos = s.scanPos := rfl
@[simp] theorem State.redraw_audioLen (s : State) :
    (s.redraw).audioLen = s.audioLen := rfl
@[simp] theorem State.redraw_lastPhase (s : State) :
    (s.redraw).lastPhase = s.lastPhase := rfl
@[simp] theorem State.redraw_frameIn (s : State) :
    (s.redraw).frameIn = s.frameIn := rfl
@[simp] theorem State.redraw_crc (s : State) :
    (s.redraw).crc = s.crc := rfl
@[simp] theorem State.redraw_probe (s : State) :
    (s.redraw).probe = s.probe := rfl
@[simp] theorem State.redraw_dec (s : State) :
    (s.redraw).dec = s.dec := rfl
@[simp] theorem State.redraw_mq (s : State) :
    (s.redraw).mq = s.mq := rfl
@[simp] theorem State.redraw_msgDrops (s : State) :
    (s.redraw).msgDrops = s.msgDrops := rfl
@[simp] theorem State.redraw_cache (s : State) :
    (s.redraw).cache = s.cache := rfl
@[simp] theorem State.redraw_mem (s : State) :
    (s.redraw).mem = s.mem := rfl
@[simp] theorem State.redraw_resp (s : State) :
    (s.redraw).resp = s.resp := rfl
@[simp] theorem State.redraw_agenda (s : State) :
    (s.redraw).agenda = s.agenda := rfl
@[simp] theorem State.redraw_draw (s : State) :
    (s.redraw).draw = s.draw + 1 := rfl
@[simp] theorem State.redraw_epoch (s : State) :
    (s.redraw).epoch = s.epoch := rfl

/-! ### `State.putBytes` -/

@[simp] theorem State.putBytes_params (s : State) (a : Nat) (bs : List Byte) :
    (s.putBytes a bs).params = s.params := rfl
@[simp] theorem State.putBytes_ctrl (s : State) (a : Nat) (bs : List Byte) :
    (s.putBytes a bs).ctrl = s.ctrl := rfl
@[simp] theorem State.putBytes_mode (s : State) (a : Nat) (bs : List Byte) :
    (s.putBytes a bs).mode = s.mode := rfl
@[simp] theorem State.putBytes_done (s : State) (a : Nat) (bs : List Byte) :
    (s.putBytes a bs).done = s.done := rfl
@[simp] theorem State.putBytes_err (s : State) (a : Nat) (bs : List Byte) :
    (s.putBytes a bs).err = s.err := rfl
@[simp] theorem State.putBytes_errCode (s : State) (a : Nat) (bs : List Byte) :
    (s.putBytes a bs).errCode = s.errCode := rfl
@[simp] theorem State.putBytes_msgOvf (s : State) (a : Nat) (bs : List Byte) :
    (s.putBytes a bs).msgOvf = s.msgOvf := rfl
@[simp] theorem State.putBytes_pending (s : State) (a : Nat) (bs : List Byte) :
    (s.putBytes a bs).pending = s.pending := rfl
@[simp] theorem State.putBytes_now (s : State) (a : Nat) (bs : List Byte) :
    (s.putBytes a bs).now = s.now := rfl
@[simp] theorem State.putBytes_iqLen (s : State) (a : Nat) (bs : List Byte) :
    (s.putBytes a bs).iqLen = s.iqLen := rfl
@[simp] theorem State.putBytes_magLen (s : State) (a : Nat) (bs : List Byte) :
    (s.putBytes a bs).magLen = s.magLen := rfl
@[simp] theorem State.putBytes_scanPos (s : State) (a : Nat) (bs : List Byte) :
    (s.putBytes a bs).scanPos = s.scanPos := rfl
@[simp] theorem State.putBytes_audioLen (s : State) (a : Nat) (bs : List Byte) :
    (s.putBytes a bs).audioLen = s.audioLen := rfl
@[simp] theorem State.putBytes_lastPhase (s : State) (a : Nat) (bs : List Byte) :
    (s.putBytes a bs).lastPhase = s.lastPhase := rfl
@[simp] theorem State.putBytes_frameIn (s : State) (a : Nat) (bs : List Byte) :
    (s.putBytes a bs).frameIn = s.frameIn := rfl
@[simp] theorem State.putBytes_crc (s : State) (a : Nat) (bs : List Byte) :
    (s.putBytes a bs).crc = s.crc := rfl
@[simp] theorem State.putBytes_probe (s : State) (a : Nat) (bs : List Byte) :
    (s.putBytes a bs).probe = s.probe := rfl
@[simp] theorem State.putBytes_dec (s : State) (a : Nat) (bs : List Byte) :
    (s.putBytes a bs).dec = s.dec := rfl
@[simp] theorem State.putBytes_mq (s : State) (a : Nat) (bs : List Byte) :
    (s.putBytes a bs).mq = s.mq := rfl
@[simp] theorem State.putBytes_msgDrops (s : State) (a : Nat) (bs : List Byte) :
    (s.putBytes a bs).msgDrops = s.msgDrops := rfl
@[simp] theorem State.putBytes_cache (s : State) (a : Nat) (bs : List Byte) :
    (s.putBytes a bs).cache = s.cache := rfl
@[simp] theorem State.putBytes_mem (s : State) (a : Nat) (bs : List Byte) :
    (s.putBytes a bs).mem = s.mem.put a bs := rfl
@[simp] theorem State.putBytes_resp (s : State) (a : Nat) (bs : List Byte) :
    (s.putBytes a bs).resp = s.resp := rfl
@[simp] theorem State.putBytes_agenda (s : State) (a : Nat) (bs : List Byte) :
    (s.putBytes a bs).agenda = s.agenda := rfl
@[simp] theorem State.putBytes_draw (s : State) (a : Nat) (bs : List Byte) :
    (s.putBytes a bs).draw = s.draw := rfl
@[simp] theorem State.putBytes_epoch (s : State) (a : Nat) (bs : List Byte) :
    (s.putBytes a bs).epoch = s.epoch := rfl

/-! ### `State.popRecord` -/

@[simp] theorem State.popRecord_params (s : State) :
    (s.popRecord).params = s.params := rfl
@[simp] theorem State.popRecord_ctrl (s : State) :
    (s.popRecord).ctrl = s.ctrl := rfl
@[simp] theorem State.popRecord_mode (s : State) :
    (s.popRecord).mode = s.mode := rfl
@[simp] theorem State.popRecord_done (s : State) :
    (s.popRecord).done = s.done := rfl
@[simp] theorem State.popRecord_err (s : State) :
    (s.popRecord).err = s.err := rfl
@[simp] theorem State.popRecord_errCode (s : State) :
    (s.popRecord).errCode = s.errCode := rfl
@[simp] theorem State.popRecord_msgOvf (s : State) :
    (s.popRecord).msgOvf = s.msgOvf := rfl
@[simp] theorem State.popRecord_pending (s : State) :
    (s.popRecord).pending = s.pending := rfl
@[simp] theorem State.popRecord_now (s : State) :
    (s.popRecord).now = s.now := rfl
@[simp] theorem State.popRecord_iqLen (s : State) :
    (s.popRecord).iqLen = s.iqLen := rfl
@[simp] theorem State.popRecord_magLen (s : State) :
    (s.popRecord).magLen = s.magLen := rfl
@[simp] theorem State.popRecord_scanPos (s : State) :
    (s.popRecord).scanPos = s.scanPos := rfl
@[simp] theorem State.popRecord_audioLen (s : State) :
    (s.popRecord).audioLen = s.audioLen := rfl
@[simp] theorem State.popRecord_lastPhase (s : State) :
    (s.popRecord).lastPhase = s.lastPhase := rfl
@[simp] theorem State.popRecord_frameIn (s : State) :
    (s.popRecord).frameIn = s.frameIn := rfl
@[simp] theorem State.popRecord_crc (s : State) :
    (s.popRecord).crc = s.crc := rfl
@[simp] theorem State.popRecord_probe (s : State) :
    (s.popRecord).probe = s.probe := rfl
@[simp] theorem State.popRecord_dec (s : State) :
    (s.popRecord).dec = s.dec := rfl
@[simp] theorem State.popRecord_mq (s : State) :
    (s.popRecord).mq = s.mq.tail := rfl
@[simp] theorem State.popRecord_msgDrops (s : State) :
    (s.popRecord).msgDrops = s.msgDrops := rfl
@[simp] theorem State.popRecord_cache (s : State) :
    (s.popRecord).cache = s.cache := rfl
@[simp] theorem State.popRecord_mem (s : State) :
    (s.popRecord).mem = s.mem := rfl
@[simp] theorem State.popRecord_resp (s : State) :
    (s.popRecord).resp = s.resp := rfl
@[simp] theorem State.popRecord_agenda (s : State) :
    (s.popRecord).agenda = s.agenda := rfl
@[simp] theorem State.popRecord_draw (s : State) :
    (s.popRecord).draw = s.draw := rfl
@[simp] theorem State.popRecord_epoch (s : State) :
    (s.popRecord).epoch = s.epoch := rfl

/-! ### `State.pushRecord`: `mq`, `msgDrops` and `msgOvf` change (43_detector R130), nothing else does -/

@[simp] theorem State.pushRecord_params (s : State) (r : Record) : (s.pushRecord r).params = s.params := by
  unfold State.pushRecord; split <;> rfl
@[simp] theorem State.pushRecord_ctrl (s : State) (r : Record) : (s.pushRecord r).ctrl = s.ctrl := by
  unfold State.pushRecord; split <;> rfl
@[simp] theorem State.pushRecord_mode (s : State) (r : Record) : (s.pushRecord r).mode = s.mode := by
  unfold State.pushRecord; split <;> rfl
@[simp] theorem State.pushRecord_done (s : State) (r : Record) : (s.pushRecord r).done = s.done := by
  unfold State.pushRecord; split <;> rfl
@[simp] theorem State.pushRecord_err (s : State) (r : Record) : (s.pushRecord r).err = s.err := by
  unfold State.pushRecord; split <;> rfl
@[simp] theorem State.pushRecord_errCode (s : State) (r : Record) : (s.pushRecord r).errCode = s.errCode := by
  unfold State.pushRecord; split <;> rfl
@[simp] theorem State.pushRecord_pending (s : State) (r : Record) : (s.pushRecord r).pending = s.pending := by
  unfold State.pushRecord; split <;> rfl
@[simp] theorem State.pushRecord_now (s : State) (r : Record) : (s.pushRecord r).now = s.now := by
  unfold State.pushRecord; split <;> rfl
@[simp] theorem State.pushRecord_iqLen (s : State) (r : Record) : (s.pushRecord r).iqLen = s.iqLen := by
  unfold State.pushRecord; split <;> rfl
@[simp] theorem State.pushRecord_magLen (s : State) (r : Record) : (s.pushRecord r).magLen = s.magLen := by
  unfold State.pushRecord; split <;> rfl
@[simp] theorem State.pushRecord_scanPos (s : State) (r : Record) : (s.pushRecord r).scanPos = s.scanPos := by
  unfold State.pushRecord; split <;> rfl
@[simp] theorem State.pushRecord_audioLen (s : State) (r : Record) : (s.pushRecord r).audioLen = s.audioLen := by
  unfold State.pushRecord; split <;> rfl
@[simp] theorem State.pushRecord_lastPhase (s : State) (r : Record) : (s.pushRecord r).lastPhase = s.lastPhase := by
  unfold State.pushRecord; split <;> rfl
@[simp] theorem State.pushRecord_frameIn (s : State) (r : Record) : (s.pushRecord r).frameIn = s.frameIn := by
  unfold State.pushRecord; split <;> rfl
@[simp] theorem State.pushRecord_crc (s : State) (r : Record) : (s.pushRecord r).crc = s.crc := by
  unfold State.pushRecord; split <;> rfl
@[simp] theorem State.pushRecord_probe (s : State) (r : Record) : (s.pushRecord r).probe = s.probe := by
  unfold State.pushRecord; split <;> rfl
@[simp] theorem State.pushRecord_dec (s : State) (r : Record) : (s.pushRecord r).dec = s.dec := by
  unfold State.pushRecord; split <;> rfl
@[simp] theorem State.pushRecord_cache (s : State) (r : Record) : (s.pushRecord r).cache = s.cache := by
  unfold State.pushRecord; split <;> rfl
@[simp] theorem State.pushRecord_mem (s : State) (r : Record) : (s.pushRecord r).mem = s.mem := by
  unfold State.pushRecord; split <;> rfl
@[simp] theorem State.pushRecord_resp (s : State) (r : Record) : (s.pushRecord r).resp = s.resp := by
  unfold State.pushRecord; split <;> rfl
@[simp] theorem State.pushRecord_agenda (s : State) (r : Record) : (s.pushRecord r).agenda = s.agenda := by
  unfold State.pushRecord; split <;> rfl
@[simp] theorem State.pushRecord_draw (s : State) (r : Record) : (s.pushRecord r).draw = s.draw := by
  unfold State.pushRecord; split <;> rfl
@[simp] theorem State.pushRecord_epoch (s : State) (r : Record) : (s.pushRecord r).epoch = s.epoch := by
  unfold State.pushRecord; split <;> rfl

theorem State.pushRecord_full (s : State) (r : Record) (h : s.mq.length = s.params.msgDepth) :
    s.pushRecord r = { s with mq := s.mq.tail ++ [r], msgDrops := s.msgDrops + 1, msgOvf := true } := if_pos h

theorem State.pushRecord_room (s : State) (r : Record) (h : s.mq.length ≠ s.params.msgDepth) :
    s.pushRecord r = { s with mq := s.mq ++ [r] } := if_neg h

/-! ### The views -/

@[simp] theorem State.start_busy (s : State) (w : Word) : (s.start w).busy = true := rfl
@[simp] theorem State.complete_busy (s : State) : s.complete.busy = false := rfl
@[simp] theorem State.raise_busy (s : State) (e : ErrCode) : (s.raise e).busy = s.busy := rfl
@[simp] theorem State.busError_busy (s : State) (e : ErrCode) : (s.busError e).busy = s.busy := rfl
@[simp] theorem State.respond_busy (s : State) (v : Word) : (s.respond v).busy = s.busy := rfl
@[simp] theorem State.redraw_busy (s : State) : s.redraw.busy = s.busy := rfl
@[simp] theorem State.writeStatus_busy (s : State) (v : Word) : (s.writeStatus v).busy = s.busy := rfl

theorem State.busy_eq_false_iff (s : State) : s.busy = false ↔ s.pending = none := by
  simp [State.busy]

/-- Starting and completing a command with no effect between sets DONE alone. -/
theorem State.complete_start (s : State) (w : Word) (h : s.busy = false) :
    (s.start w).complete = { s with done := true } := by
  have hp := (State.busy_eq_false_iff s).mp h
  cases s
  simp_all [State.start, State.complete]

end Sys2Proof.Machine
end

