-- ==== Sys2Proof/Laws/Ops.lean ====
section
/-!
SUPPORT. What each shared operation can do, said once: running, issuing and finishing a command, a host access, a step; and
the laws of the cache and the FIFO.
-/
namespace Sys2Proof.Machine

/-! ### Commands -/

theorem runCommand_busy {i : Instr} {own : Option ErrCode} {f : State → State} {s : State} (h : s.busy = true) :
    runCommand i own f s = .next (s.busError .busy) := by
  simp [runCommand, h]

theorem runCommand_refused {i : Instr} {own : Option ErrCode} {f : State → State} {s : State} {e : ErrCode}
    (hb : s.busy = false) (h : issueError i own s = some e) : runCommand i own f s = .next (s.raise e) := by
  simp [runCommand, hb, h]

theorem runCommand_accepted {i : Instr} {own : Option ErrCode} {f : State → State} {s : State}
    (hb : s.busy = false) (h : issueError i own s = none) :
    runCommand i own f s = .next (f (s.start (encode i))).complete := by
  simp [runCommand, hb, h]

/-- All a command can do, issue to completion. -/
theorem runCommand_cases {i : Instr} {own : Option ErrCode} {f : State → State} {s t : State}
    (h : runCommand i own f s = .next t) :
    (s.busy = true ∧ t = s.busError .busy) ∨
    (s.busy = false ∧ ∃ e, issueError i own s = some e ∧ t = s.raise e) ∨
    (s.busy = false ∧ issueError i own s = none ∧ t = (f (s.start (encode i))).complete) := by
  cases hb : s.busy with
  | true =>
    rw [runCommand_busy hb] at h
    exact .inl ⟨rfl, by injection h with h; exact h.symm⟩
  | false =>
    cases he : issueError i own s with
    | some e =>
      rw [runCommand_refused hb he] at h
      exact .inr (.inl ⟨rfl, e, rfl, by injection h with h; exact h.symm⟩)
    | none =>
      rw [runCommand_accepted hb he] at h
      exact .inr (.inr ⟨rfl, rfl, by injection h with h; exact h.symm⟩)

/-- `exec` is one command run with its own check and effect. -/
theorem exec_eq_runCommand (i : Instr) (s : State) :
    exec i s = runCommand i (ownCheck i s) (commandEffect i) s := by
  cases i <;> rfl

/-- All an issue alone can do. -/
theorem issue_cases (i : Instr) (s : State) :
    (s.busy = true ∧ issue i s = s.busError .busy) ∨
    (s.busy = false ∧ ∃ e, issueError i (ownCheck i s) s = some e ∧ issue i s = s.raise e) ∨
    (s.busy = false ∧ issueError i (ownCheck i s) s = none ∧ issue i s = s.start (encode i)) := by
  cases hb : s.busy with
  | true => exact .inl ⟨rfl, by simp [issue, hb]⟩
  | false =>
    cases he : issueError i (ownCheck i s) s with
    | some e => exact .inr (.inl ⟨rfl, e, rfl, by simp [issue, hb, he]⟩)
    | none => exact .inr (.inr ⟨rfl, rfl, by simp [issue, hb, he]⟩)

/-- All the sequencer's turn can do. -/
theorem finish_cases {s t : State} (h : finish s = .next t) :
    (s.pending = none ∧ t = s) ∨
    (∃ w i, s.pending = some w ∧ decode w = .ok i ∧ t = (commandEffect i s).complete) := by
  unfold finish at h
  cases hp : s.pending with
  | none =>
    simp only [hp] at h
    exact .inl ⟨rfl, by injection h with h; exact h.symm⟩
  | some w =>
    simp only [hp] at h
    cases hd : decode w with
    | error e => simp [hd] at h
    | ok i =>
      simp only [hd] at h
      exact .inr ⟨w, i, rfl, hd, by injection h with h; exact h.symm⟩

/-! ### Accesses and steps -/

/-- All a host access can do. -/
theorem hostAccess_cases {held : Bool} {a : Access} {s t : State} (h : hostAccess held a s = .next t) :
    (a.place s.params = none ∧ t = s.busError .bus) ∨
    (∃ p, a.place s.params = some p ∧ a.kind = .read ∧ t = s.respond (s.placeWord a.offset p)) ∨
    (∃ p e, a.place s.params = some p ∧ a.kind = .write ∧ s.writeRefusal p = some e ∧ t = s.busError e) ∨
    (∃ p, a.place s.params = some p ∧ a.kind = .write ∧ s.writeRefusal p = none ∧
      writePlace held p a.data (s.respond 0) = .next t) := by
  unfold hostAccess at h
  cases hp : a.place s.params with
  | none =>
    simp only [hp] at h
    exact .inl ⟨rfl, by injection h with h; exact h.symm⟩
  | some p =>
    cases hk : a.kind with
    | read =>
      simp only [hp, hk] at h
      exact .inr (.inl ⟨p, rfl, rfl, by injection h with h; exact h.symm⟩)
    | write =>
      cases hr : s.writeRefusal p with
      | some e =>
        simp only [hp, hk, hr] at h
        exact .inr (.inr (.inl ⟨p, e, rfl, rfl, hr, by injection h with h; exact h.symm⟩))
      | none =>
        simp only [hp, hk, hr] at h
        exact .inr (.inr (.inr ⟨p, rfl, rfl, hr, h⟩))

/-- All a step can do. -/
theorem step_cases {s t : State} (h : step s = .next t) :
    (s.agenda = [] ∧ s.busy = false ∧ t = s) ∨
    (s.agenda = [] ∧ s.busy = true ∧ sequencerTurn s = .next t) ∨
    (∃ x rest, s.agenda = x :: rest ∧ takeTurn x { s with agenda := rest } = .next t) := by
  unfold step at h
  cases ha : s.agenda with
  | nil =>
    cases hb : s.busy with
    | true =>
      simp only [ha, hb, if_true] at h
      exact .inr (.inl ⟨rfl, rfl, h⟩)
    | false =>
      simp only [ha, hb] at h
      exact .inl ⟨rfl, rfl, by injection h with h; exact h.symm⟩
  | cons x rest =>
    simp only [ha] at h
    exact .inr (.inr ⟨x, rest, rfl, h⟩)

/-- The sequencer's turn of an idle block does nothing (20_memory R63). -/
theorem sequencerTurn_idle {s : State} (h : s.busy = false) : sequencerTurn s = .next s := by
  simp [sequencerTurn, h]

/-- The sequencer's turn of a busy block finishes the command in flight. -/
theorem sequencerTurn_busy {s : State} (h : s.busy = true) : sequencerTurn s = finish s.redraw := by
  simp [sequencerTurn, h]

/-! ### The cache and the FIFO -/

/-- Every slot function gives a slot number. -/
theorem slotOf_lt (p : Params) (a : Word24) : slotOf p a < Config.icaoSlots := by
  unfold slotOf
  split
  · exact Nat.mod_lt _ (by decide)
  · exact Nat.mod_lt _ (by decide)

/-- An insertion keeps the canonical form. -/
theorem Cache.insert_wf {c : Cache} (h : c.wf) (p : Params) (now : Word) (a : Word24) : (c.insert p now a).wf := by
  have hlt := slotOf_lt p a
  refine ⟨List.pairwise_append.mpr ⟨h.1.filter _, List.pairwise_cons.mpr ⟨?_, h.1.filter _⟩, ?_⟩, ?_⟩
  · intro x hx
    simpa using (List.mem_filter.mp hx).2
  · intro x hx y hy
    have hx' : x.1 < slotOf p a := by simpa using (List.mem_filter.mp hx).2
    rcases List.mem_cons.mp hy with rfl | hy
    · exact hx'
    · have hy' : slotOf p a < y.1 := by simpa using (List.mem_filter.mp hy).2
      omega
  · intro x hx
    rcases List.mem_append.mp hx with hx | hx
    · exact h.2 x (List.mem_filter.mp hx).1
    · rcases List.mem_cons.mp hx with rfl | hx
      · exact hlt
      · exact h.2 x (List.mem_filter.mp hx).1

/-- A push never makes a FIFO within its depth longer than it. -/
theorem State.pushRecord_length (s : State) (r : Record) (hd : 1 ≤ s.params.msgDepth)
    (h : s.mq.length ≤ s.params.msgDepth) : (s.pushRecord r).mq.length ≤ s.params.msgDepth := by
  by_cases hf : s.mq.length = s.params.msgDepth
  · rw [State.pushRecord_full s r hf]
    simp only [List.length_append, List.length_tail, List.length_cons, List.length_nil]
    omega
  · rw [State.pushRecord_room s r hf]
    simp only [List.length_append, List.length_cons, List.length_nil]
    omega

end Sys2Proof.Machine
end

