-- ==== Sys2Proof/Laws/PerInstr.lean ====
section
/-!
SUPPORT. The family TableRow: the word of every command fits its row of spec/opcode_table.json (match and mask of the row).
-/
namespace Sys2Proof.Laws.TableRow

/-- The row's mask. -/
def mask : Instr → Word
  | .nop => 0xFFFFFFFF
  | .fft _ => 0xFF000000
  | .fmdemod _ => 0xFFFF0000
  | .mag => 0xFFFFFFFF
  | .scan => 0xFFFFFFFF
  | .crc _ => 0xFFFFFFFC
  | .decode => 0xFFFFFFFF
  | .probe _ => 0xFF000000

/-- The row's match. -/
def pattern : Instr → Word
  | .nop => 0x00000000
  | .fft _ => 0x01000000
  | .fmdemod _ => 0x02000000
  | .mag => 0x03000000
  | .scan => 0x04000000
  | .crc _ => 0x05000000
  | .decode => 0x06000000
  | .probe _ => 0x07000000

/-- The word of a command, under its row's mask, is its row's match. -/
def Statement (i : Instr) : Prop := encode i &&& mask i = pattern i

/-- Masking away the low part of a word leaves its high part. -/
theorem append_and_mask {v w : Nat} (x : BitVec v) (y : BitVec w) :
    (x ++ y) &&& (BitVec.allOnes v ++ 0#w) = x ++ 0#w := by
  rw [BitVec.and_append]
  simp

theorem nop : Statement .nop := by unfold Statement; decide

theorem fft (n : BitVec 24) : Statement (.fft n) := append_and_mask 0x01#8 n

theorem fmdemod (f : BitVec 16) : Statement (.fmdemod f) := append_and_mask (0x02#8 ++ 0#8) f

theorem mag : Statement .mag := by unfold Statement; decide

theorem scan : Statement .scan := by unfold Statement; decide

theorem crc (lsel : BitVec 2) : Statement (.crc lsel) := append_and_mask (0x05#8 ++ 0#22) lsel

theorem decode : Statement .decode := by unfold Statement; decide

theorem probe (a : BitVec 24) : Statement (.probe a) := append_and_mask 0x07#8 a

end Sys2Proof.Laws.TableRow
end

