-- ==== Sys2Proof/Tests/Slice0.lean ====
section
/-!
SUPPORT. The model's own tests, expected results from spec/95_test_vectors.md or by hand from the rule named; and, for each
statement with hypotheses, a state and operands that meet them (each clause at a boundary of its range).
-/
namespace Sys2Proof.Tests

open Sys2Proof Sys2Proof.Machine

/-! ### Syntax and decoding (30_encoding R70–R76) -/

/-- The one check of WellFormed: CRC with LSEL = 3 is refused, its neighbours are not (R74). -/
theorem test_wellFormed_refuses_lsel3 :
    (Instr.crc 3).wellFormed = false ∧ (Instr.crc 2).wellFormed = true ∧ (Instr.crc 0).wellFormed = true := by decide

/-- R72: opcode 0x00, operand 0. -/
theorem test_decode_nop : decode 0b00000000000000000000000000000000 = .ok .nop := by rfl
/-- R72: opcode 0x01, N = 8192. -/
theorem test_decode_fft : decode 0b00000001000000000010000000000000 = .ok (.fft 8192) := by rfl
/-- R72: opcode 0x02, must-be-0 byte, F = 0x8001. -/
theorem test_decode_fmdemod : decode 0b00000010000000001000000000000001 = .ok (.fmdemod 0x8001) := by rfl
/-- R72: opcode 0x03. -/
theorem test_decode_mag : decode 0b00000011000000000000000000000000 = .ok .mag := by rfl
/-- R72: opcode 0x04. -/
theorem test_decode_scan : decode 0b00000100000000000000000000000000 = .ok .scan := by rfl
/-- R72: opcode 0x05, LSEL = 2. -/
theorem test_decode_crc : decode 0b00000101000000000000000000000010 = .ok (.crc 2) := by rfl
/-- R72: opcode 0x06. -/
theorem test_decode_decode : decode 0b00000110000000000000000000000000 = .ok .decode := by rfl
/-- R72: opcode 0x07, A = 0x4840D6. -/
theorem test_decode_probe : decode 0b00000111010010000100000011010110 = .ok (.probe 0x4840D6) := by rfl
/-- V-SYS-5, V-CRC-10, V-FM-8, V-SCAN-10: illegal words, each by its name. -/
theorem test_decode_refuses :
    decode 0x08000000 = .error .reservedOpcode ∧ decode 0xFF000000 = .error .reservedOpcode
      ∧ decode 0x05000003 = .error .reservedLength ∧ decode 0x05000004 = .error .mustBeZero
      ∧ decode 0x02010002 = .error .mustBeZero ∧ decode 0x04000001 = .error .mustBeZero := by
  refine ⟨rfl, rfl, rfl, rfl, rfl, rfl⟩

/-! ### States for tests -/

/-- The state after reset with turns to come. -/
def withTurns (ts : List Turn) : State := { State.reset with agenda := ts }

/-- An idle block in mode SURV. -/
def survState : State := { State.reset with mode := .surv }

/-- An idle block in mode FM. -/
def fmState : State := { State.reset with mode := .fm }

/-- A block with NOP in flight. -/
def busyState (ts : List Turn) : State := { State.reset with pending := some 0, agenda := ts }

/-- A block with buffer bytes written. -/
def withBytes (s : State) (a : Nat) (bs : List Byte) : State := { s with mem := cellsFrom a bs }

/-- The document's frame EX (95_test_vectors §0). -/
def exFrame : Frame := 0x8D4840D6202CC371C32CE0576098

/-- The state a step leads to, for reading fields of it. -/
def after (o : Host.Outcome State Fault Refusal) : State :=
  match o with
  | .next t => t
  | .fault _ => State.reset
  | .refused _ => State.reset

/-! ### One step of each command -/

/-- V-SYS-7: NOP after reset gives STATUS = 2. -/
theorem test_nop_status : (after (step (withTurns [.host (cmdWrite 0)]))).statusWord = 2 := by decide

/-- V-FFT-1: FFT 2 on (1,0), (2,0) gives (3,0), (−1,0). -/
theorem test_fft_two :
    (after (exec (.fft 2) (withBytes State.reset fftBase (bytesOfF64s [0x3FF0000000000000, 0, 0x4000000000000000, 0])))).fx 2
      = [{ re := 0x4008000000000000, im := 0 }, { re := 0xBFF0000000000000, im := 0 }] := by decide +kernel

/-- V-FFT-2 with the twiddles 95_test_vectors §0 tabulates: FFT 4 of 1, 2, 3, 4. -/
theorem test_fft_four_with_tabulated_twiddles :
    fftTransform (fun a => if a = 0xBFF921FB54442D18 then 0x3C91A62633145C07 else 0xBFF0000000000000)
      (fun a => if a = 0xBFF921FB54442D18 then 0xBFF0000000000000 else 0xBCA1A62633145C07) 2
      [{ re := 0x3FF0000000000000, im := 0 }, { re := 0x4000000000000000, im := 0 },
       { re := 0x4008000000000000, im := 0 }, { re := 0x4010000000000000, im := 0 }]
    = [{ re := 0x4024000000000000, im := 0 }, { re := 0xC000000000000000, im := 0x4000000000000000 },
       { re := 0xC000000000000000, im := 0 }, { re := 0xBFFFFFFFFFFFFFFF, im := 0xC000000000000000 }] := by decide +kernel

/-- V-FM-3 with the phases 95_test_vectors §0 tabulates: the second difference wraps. -/
theorem test_fmdemod_wraps_with_tabulated_phases :
    phaseDiffs (fun y _ => if y = 0xBFF8000000000000 then 0xC00909E385043B63 else 0x400909E385043B63) 0
      [(0, 126), (0, 129)] = ([0xC00909E385043B63, 0xBF9817CF3FF1B500], 0x400909E385043B63) := by decide +kernel

/-- V-SYS-6: in FM with IQ_LEN = 3, FMDEMOD 0 raises E_IQ_LEN, not E_DECIM. -/
theorem test_fmdemod_checks_length_first :
    (after (exec (.fmdemod 0) { fmState with iqLen := 3 })).errCode = .iqLen := by decide

/-- V-MAG-3: MAG on [227, 127, 127, 127] gives W = [36000, 0]. -/
theorem test_mag_first_block :
    (after (exec .mag { withBytes survState iqBase [227, 127, 127, 127] with iqLen := 4 })).samples = [36000, 0] := by
  decide +kernel

/-- V-MAG-2: byte 255 is 128 from the centre, byte 0 is 127. -/
theorem test_mag_extremes : pairMag .given (255, 255) = 65167 ∧ pairMag .given (0, 0) = 64658
    ∧ pairMag .given (126, 128) = 509 := by
  decide +kernel

/-- The samples of a pulse stream (95_test_vectors §0): idle samples, the preamble, then the frame's bits. -/
def pulses (f : Frame) (lead trail : Nat) : List Nat :=
  List.replicate lead 0 ++ (List.range 16).map (fun k => if k = 0 ∨ k = 2 ∨ k = 7 ∨ k = 9 then 36000 else 0)
    ++ (List.range 112).flatMap (fun b => if fbit f b then [36000, 0] else [0, 36000]) ++ List.replicate trail 0

/-- V-SCAN-1: one record of status 0x1871 at offset 5, SCAN_POS = 245. -/
theorem test_scan_finds_the_frame :
    let t := after (exec .scan { withBytes survState magBase (bytesOfSamples (pulses exFrame 5 10)) with magLen := 255 })
    t.scanPos = 245 ∧ t.mq.map (fun r => (decodeStatusWord r.decoded.status, r.decoded.aa, r.offset))
      = [(0x1871, 0x4840D6, 5)] := by decide +kernel

/-- V-SCAN-9: the correction is sequential. -/
theorem test_scan_correction :
    correctSamples [0, 0, 100, 90, 40] = [0, 0, 80, 90, 32]
      ∧ correctSamples [100, 50, 40, 60, 80, 80, 10, 20, 200, 100, 7]
        = [100, 50, 50, 60, 64, 80, 8, 20, 160, 100, 8] := by decide

/-- V-CRC-1, V-CRC-2: EX at its own length and at 56 bits. -/
theorem test_crc_example :
    crcResWord (after (exec (.crc 0) { State.reset with frameIn := exFrame })).crc = 0x1103
      ∧ (after (exec (.crc 1) { State.reset with frameIn := exFrame })).crc.computed = 0xB900F4
      ∧ (after (exec (.crc 1) { State.reset with frameIn := exFrame })).crc.parity = 0x202CC3 := by decide +kernel

/-- 44_decoder R140: the table is `x^(111−j) mod G`, from `x^24 mod G` at 87 down, and 0 from 88 on. -/
theorem test_crc_table_is_the_generators :
    crcTable.length = 112 ∧ crcTable[87]? = some 0xFFF409
      ∧ (∀ j : Nat, j < 87 → crcTable[j]? = (crcTable[j + 1]?).map
          (fun e : Word24 => if e.msb then (e <<< 1) ^^^ 0xFFF409 else e <<< 1))
      ∧ (∀ j : Nat, j < 24 → crcTable[88 + j]? = some 0)
      ∧ (∀ j : Nat, j < 88 → crcTable[j]? = some (xPowMod (111 - j))) := by decide +kernel

/-- V-DEC-1: EX is accepted as it is and inserted at slot 518. -/
theorem test_decode_example :
    let t := after (exec .decode { survState with frameIn := exFrame, now := 1000 })
    decodeStatusWord t.dec.status = 0x1871 ∧ t.cache = [(518, { addr := 0x4840D6, ts := 1000 })] := by decide +kernel

/-- R142: EX is DF17, from byte 0 = 0x8D; V-CRC-2: a short CRC does not see bits 56 on. -/
theorem test_format_and_short_crc : downlinkFormat exFrame = 17 ∧ frameByte exFrame 0 = 0x8D
    ∧ crc24 exFrame false = crc24 (frameOf exFrame false) false ∧ crc24 (1#112 <<< (111 - 56)) false = 0 := by decide +kernel

/-- V-DEC-2: EX with bit 5 inverted is repaired at 5. -/
theorem test_decode_repairs_one_bit :
    let t := after (exec .decode { survState with frameIn := 0x894840D6202CC371C32CE0576098, now := 1000 })
    decodeStatusWord t.dec.status = 0x18F1 ∧ errbitsWord t.dec = 0xFF05 ∧ t.dec.frame = exFrame := by decide +kernel

/-- V-PROBE-1: recent 60 units after the insertion, not 61. -/
theorem test_probe_ages :
    let s := { survState with cache := [(518, { addr := 0x4840D6, ts := 1000 })] }
    probeResWord (after (exec (.probe 0x4840D6) { s with now := 1060 })).probe = 0x02060001
      ∧ probeResWord (after (exec (.probe 0x4840D6) { s with now := 1061 })).probe = 0x02060000 := by decide +kernel

/-- V-SYS-8, V-SYS-9: a write of ID and a read of 0x03C are refused with E_BUS. -/
theorem test_bus_refusals :
    (after (step (withTurns [.host (writeOf 0 0)]))).statusWord = 0x704
      ∧ (after (step (withTurns [.host (readOf 0x3C)]))).statusWord = 0x704 := by decide

/-- V-SYS-17: with a command in flight a NOW write is refused with E_BUSY and lost. -/
theorem test_busy_write_refused :
    let t := after (step (busyState [.host (writeOf 0x020 5)]))
    t.errCode = .busy ∧ t.now = 0 ∧ t.busy = true := by decide

/-- 20_memory R63: a MAG word past MAG_LEN reads the same before and after an idle sequencer's turn. -/
theorem test_idle_sequencer_keeps_unspecified_words :
    let r := Turn.host (readOf 0x0800000)
    (after (Host.Core.run core 3 (withTurns [r, .sequencer, r]))).resp = (after (step (withTurns [r]))).resp := by rfl

/-- 00_scope R10, by hand: 2^53 + 1 is a tie and goes to the even 2^53, 1/3 rounds down, half the least subnormal goes to 0,
and the largest finite value doubled is an infinity. -/
theorem test_f64_rounding :
    f64Add 0x4340000000000000 0x3FF0000000000000 = 0x4340000000000000
      ∧ f64Div 0x3FF0000000000000 0x4008000000000000 = 0x3FD5555555555555
      ∧ f64Mul 0x0000000000000001 0x3FE0000000000000 = 0x0000000000000000
      ∧ f64Add 0x7FEFFFFFFFFFFFFF 0x7FEFFFFFFFFFFFFF = 0x7FF0000000000000 := by decide +kernel

/-- V-SYS-5 on a held turn: an illegal word is not held. -/
theorem test_held_illegal_word :
    let t := after (step (withTurns [.hostHeld (cmdWrite 0x08000000)]))
    t.errCode = .illegal ∧ t.pending = none := by decide

/-! ### Blocks with other parameters (00_scope R1) -/

/-- Legal parameters at the ends of their ranges, with another slot function. -/
def otherParams : Params where
  iqCap := 4
  fftNmax := 2
  msgDepth := 1
  magCenter := 128
  magScale := 362
  highDiv := 1
  oopDiv := 1
  slotFunction := .other

/-- R1, R110, R111: the two readings of the centre, and the largest entry at the largest scale, ⌊√2·128·362 + 1/2⌋. -/
theorem test_magnitude_of_other_parameters :
    pairMag otherParams (128, 128) = 0 ∧ pairMag otherParams (0, 0) = 65529 ∧ pairMag otherParams (128, 129) = 362 := by
  decide +kernel

/-- R15, R90, 20_memory R51: the capacities are the parameters'. -/
theorem test_capacities_of_other_parameters :
    (after (step { withTurns [.host (readOf 0x004)] with params := otherParams })).resp
        = some { data := 4, error := false }
      ∧ (after (step { withTurns [.host (readOf 0x0400004)] with params := otherParams })).errCode = .bus
      ∧ (after (exec (.fft 4) { State.reset with params := otherParams })).errCode = .fftSize := by decide

/-- R130 with MSG_DEPTH = 1: a second record drops the first. -/
theorem test_push_of_other_parameters :
    let t := (({ State.reset with params := otherParams } : State).pushRecord ⟨Decoded.reset, 1⟩).pushRecord ⟨Decoded.reset, 2⟩
    t.mq.map (·.offset) = [2] ∧ t.msgDrops = 1 ∧ t.msgOvf = true := by decide

/-! ### Witnesses: each statement's hypotheses are met -/

/-- The parameters R1 gives are legal, and so are others. -/
theorem witness_params_legal : Params.given.legal ∧ otherParams.legal :=
  ⟨⟨by decide, ⟨13, by decide⟩, by decide⟩, ⟨by decide, ⟨1, by decide⟩, by decide⟩⟩

theorem witness_DecodeOfEncode : (Instr.fft 0xFFFFFF).wellFormed = true ∧ (Instr.crc 2).wellFormed = true := by decide

theorem witness_EncodeOfDecode : decode 0x02000001 = .ok (.fmdemod 1) := by rfl

theorem witness_IllegalWords :
    (withTurns [.host (cmdWrite 0x05000003)]).busy = false
      ∧ (withTurns [.host (cmdWrite 0x05000003)]).agenda = .host (cmdWrite 0x05000003) :: []
      ∧ illegalWord 0x05000003 ∧ illegalWord 0x05000004 ∧ illegalWord 0x08000000 ∧ illegalWord 0xFFFFFFFF
      ∧ illegalWord 1 ∧ illegalWord 0x02010000
      ∧ ¬ illegalWord 0 ∧ ¬ illegalWord 0x01FFFFFF ∧ ¬ illegalWord 0x0200FFFF ∧ ¬ illegalWord 0x05000002
      ∧ ¬ illegalWord 0x07FFFFFF := by
  unfold illegalWord
  and_intros <;> decide

theorem witness_heldWord :
    (withTurns [.hostHeld (cmdWrite 0xFFFFFFFF)]).agenda = .hostHeld (cmdWrite 0xFFFFFFFF) :: []
      ∧ (Turn.hostHeld (cmdWrite 0xFFFFFFFF)).isAccess (cmdWrite 0xFFFFFFFF) ∧ illegalWord 0xFFFFFFFF :=
  ⟨by decide, .inr rfl, .inl (by decide)⟩

/-- A command that passes its checks and one that fails one. -/
theorem witness_issue : State.reset.busy = false ∧ issueError .nop (ownCheck .nop State.reset) State.reset = none
    ∧ issueError .mag (ownCheck .mag State.reset) State.reset = some .mode := by decide

theorem witness_StepRuns :
    decode 0 = .ok .nop
      ∧ (withTurns [.host (cmdWrite 0)]).busy = false
      ∧ (withTurns [.hostHeld (cmdWrite 0)]).agenda = .hostHeld (cmdWrite 0) :: []
      ∧ (busyState [.sequencer]).pending = some 0 ∧ (busyState [.sequencer]).agenda = .sequencer :: []
      ∧ (busyState []).agenda = [] := by refine ⟨rfl, ?_⟩; decide

theorem witness_idle : State.reset.busy = false ∧ survState.busy = false ∧ survState.mode = .surv
    ∧ fmState.busy = false ∧ fmState.mode = .fm := by decide

theorem witness_FftTransforms : State.reset.busy = false ∧ State.reset.mem.wf ∧ 1 ≤ 13
    ∧ (8192 : BitVec 24).toNat = 2 ^ 13 ∧ (8192 : BitVec 24).toNat ≤ Params.given.fftNmax
    ∧ (2 : BitVec 24).toNat = 2 ^ 1 := by decide

theorem not_legalFftLen_of {n : Nat} (h : n < 2 ∨ Params.given.fftNmax < n) : ¬ legalFftLen .given n := by
  rintro ⟨r, h1, rfl, h2⟩
  have : 2 ^ 1 ≤ 2 ^ r := Nat.pow_le_pow_right (by decide) h1
  omega

theorem witness_FftRefuses : ¬ legalFftLen .given (0 : BitVec 24).toNat ∧ ¬ legalFftLen .given (1 : BitVec 24).toNat
    ∧ ¬ legalFftLen .given (3 : BitVec 24).toNat ∧ ¬ legalFftLen .given (16384 : BitVec 24).toNat := by
  refine ⟨not_legalFftLen_of (by decide), not_legalFftLen_of (by decide), ?_, not_legalFftLen_of (by decide)⟩
  rintro ⟨r, h1, h2, -⟩
  cases r with
  | zero => omega
  | succ r =>
    have h3 : 3 = 2 * 2 ^ r := by rw [Nat.pow_succ] at h2; change 3 = _ at h2; omega
    omega

theorem witness_FftBlock : ([⟨1, 2⟩, ⟨3, 4⟩] : List Cplx).length = 2 * 1
    ∧ ([⟨1, 2⟩, ⟨3, 4⟩] : List Cplx)[0]? = some ⟨1, 2⟩ ∧ ([⟨1, 2⟩, ⟨3, 4⟩] : List Cplx)[0 + 1]? = some ⟨3, 4⟩ := by decide

/-- The second block of the first stage of four elements. -/
theorem witness_FftStages : (List.replicate 4 (⟨0, 0⟩ : Cplx)).length = 2 ^ 2 ∧ 0 < 2 ∧ 1 < 2 ^ (2 - (0 + 1)) ∧ 0 < 2 ^ 0
    ∧ (bitReversePermute 2 (List.replicate 4 ⟨0, 0⟩))[1 * 2 ^ (0 + 1) + 0 + 2 ^ 0]? = some ⟨0, 0⟩ := by decide

theorem witness_FftPermutes : 7 < 2 ^ 3 ∧ (List.replicate 8 (⟨0, 0⟩ : Cplx)).length = 2 ^ 3
    ∧ bitReverse 3 1 = 4 ∧ bitReverse 3 3 = 6 := by decide

theorem witness_Fmdemod : fmState.busy = false ∧ fmState.mode = .fm ∧ legalIqLen .given fmState.iqLen
    ∧ (1 : BitVec 16) ≠ 0 ∧ fmState.mem.wf
    ∧ legalIqLen .given ({ fmState with iqLen := 262144 } : State).iqLen := by unfold legalIqLen; decide

theorem witness_FmDifferences : ([(1, 2), (3, 4)] : List (Byte × Byte))[1]? = some (3, 4) := by decide

theorem witness_Boxcar : 0 < 1 ∧ 2 < 3 := by decide

theorem witness_Magnitude : 128 ≤ 128 ∧ magLut .given 128 128 = 65167 ∧ magLut .given 3 4 = 1800 := by decide +kernel

theorem witness_BlockCommands : ¬ legalIqLen .given ({ fmState with iqLen := 3 } : State).iqLen
    ∧ ¬ legalIqLen .given ({ survState with iqLen := 262146 } : State).iqLen
    ∧ legalIqLen .given ({ fmState with iqLen := 4 } : State).iqLen := by unfold legalIqLen; decide

theorem witness_Mag : survState.busy = false ∧ survState.mode = .surv
    ∧ legalIqLen .given ({ survState with iqLen := 2, magLen := 400 } : State).iqLen ∧ survState.mem.wf := by
  unfold legalIqLen; decide

theorem witness_Scan :
    ({ survState with magLen := 240 } : State).scanPos.toNat + Config.win ≤ ({ survState with magLen := 240 } : State).magLen.toNat
      ∧ ({ survState with magLen := 239 } : State).magLen.toNat
          < ({ survState with magLen := 239 } : State).scanPos.toNat + Config.win
      ∧ survState.scanPos.toNat ≤ survState.magLen.toNat := by decide

/-- V-SCAN-1: at offset 5 the preamble test holds and the attempts accept; at offset 4 it fails; without its frame the
preamble alone is not accepted. -/
theorem witness_ScanOffset :
    let w := pulses exFrame 5 10
    preambleTest .given (w.drop 5) = true ∧ (attempts w 5 survState).isSome = true
      ∧ preambleTest .given (w.drop 4) = false
      ∧ preambleTest .given ((w.take 21).drop 5) = true ∧ attempts (w.take 21 ++ List.replicate 224 0) 5 survState = none := by
  decide +kernel

theorem witness_PreambleTests : 5 + 240 ≤ (pulses exFrame 5 0).length ∧ 1 ≤ 5 := by decide +kernel

theorem witness_SlicedBits : 0 + 240 ≤ (List.replicate 240 5).length ∧ 111 < 112
    ∧ (List.replicate 240 5)[0 + 16 + 2 * 111]? = some 5 ∧ (List.replicate 240 5)[0 + 16 + 2 * 111 + 1]? = some 5
    ∧ (List.replicate 112 Slice.one).length = 112 := by decide +kernel

theorem witness_Correction : ([9, 1, 8] : List Nat)[0 + 2]? = some 8
    ∧ (correctSamples [9, 1, 8])[0]? = some 9 ∧ (correctSamples [9, 1, 8])[0 + 1]? = some 1 := by decide

/-- The samples of V-SCAN-3 (a): preamble sample 3 at 13005, data bit 5 ambiguous. -/
def straddled : List Nat := (((pulses exFrame 5 0).set 8 13005).set 31 36000).set 32 36000

/-- V-SCAN-3 (a): the uncorrected attempt is rejected and the corrected one accepted; on the clean stream the uncorrected one
is accepted. -/
theorem witness_CorrectedAttempt :
    0 < ((sliceBits (dataRegion straddled 5)).take 56).countP (· == Slice.amb)
      ∧ attempt (dataRegion straddled 5) survState = none ∧ outOfPhase .given straddled 5 = true
      ∧ ((attempts straddled 5 survState).map (fun r => r.status.pc)) = some true
      ∧ ((attempts (pulses exFrame 5 0) 5 survState).map (fun r => r.status.pc)) = some false := by decide +kernel

theorem witness_Push : State.reset.mq.length ≤ Params.given.msgDepth
    ∧ (List.replicate 64 (⟨Decoded.reset, 0⟩ : Record)).length = Params.given.msgDepth := by decide

theorem witness_Crc : State.reset.busy = false ∧ (2 : BitVec 2).toNat < 3 ∧ (0 : BitVec 2).toNat < 3
    ∧ (3 : BitVec 2).toNat = 3 := by decide

theorem witness_SingleBit :
    frameOf exFrame true = exFrame ∧ crcMatches exFrame true = true ∧ 111 < frameBits true
      ∧ State.reset.ctrl.fix = true ∧ selfIdentifying (downlinkFormat (flip exFrame 111)) = true
      ∧ longFormat (downlinkFormat (flip exFrame 111)) = true
      ∧ frameOf 0x5D4840D6F8740F00000000000000 false = 0x5D4840D6F8740F00000000000000
      ∧ crcMatches 0x5D4840D6F8740F00000000000000 false = true
      ∧ selfIdentifying (downlinkFormat (flip 0x5D4840D6F8740F00000000000000 5)) = true
      ∧ longFormat (downlinkFormat (flip 0x5D4840D6F8740F00000000000000 5)) = false := by decide +kernel

theorem witness_DoubleBit :
    crcMatches exFrame true = true ∧ 20 < 77 ∧ 77 < 112
      ∧ ({ State.reset.ctrl with aggr := true } : Ctrl).fix = true
      ∧ ({ State.reset.ctrl with aggr := true } : Ctrl).aggr = true
      ∧ downlinkFormat (flip (flip exFrame 20) 77) = 17 ∧ downlinkFormat (flip (flip exFrame 5) 111) = 17 := by
  decide +kernel

/-- V-DEC-1, V-DEC-7 (b), V-DEC-3: an accepted frame of each kind and a rejected one. -/
theorem witness_Accepted :
    let c := State.reset.ctrl
    let cache : Cache := [(518, { addr := 0x4840D6, ts := 1000 })]
    (decodeFrame .given c 1000 [] exFrame).status.ok = true
      ∧ (decodeFrame .given c 1060 cache 0x20000B38AB0D0D00000000000000).status.ap = true
      ∧ (decodeFrame .given c 1061 cache 0x20000B38AB0D0D00000000000000).status.ok = false := by decide +kernel

/-- V-DEC-2, V-DEC-4 (b) at its lowest pair, V-DEC-1: a frame corrected at one bit, at two, and not at all. -/
theorem witness_Correction_counts :
    let c := { State.reset.ctrl with aggr := true }
    (decodeFrame .given c 0 [] (flip exFrame 5)).status.ncorr = 1
      ∧ (decodeFrame .given c 0 [] (flip (flip exFrame 5) 6)).status.ncorr = 2
      ∧ (decodeFrame .given c 0 [] exFrame).status.ncorr = 0
      ∧ parityField (frameOf exFrame true) true = crc24 (frameOf exFrame true) true := by decide +kernel

/-- V-DEC-9: two addresses that share a slot, and one of another slot. -/
theorem witness_Cache : (0x000119 : Word24) ≠ 0x4840D6 ∧ slotOf .given 0x000119 = slotOf .given 0x4840D6
    ∧ slotOf .given 0x000000 ≠ slotOf .given 0x4840D6 ∧ Params.given.slotFunction = .default := by decide +kernel

theorem witness_Modes : State.reset.busy = false ∧ State.reset.mode ≠ .fm ∧ State.reset.mode ≠ .surv
    ∧ State.reset.errCode ≠ .mode ∧ exec .mag State.reset = .next (State.reset.raise .mode)
    ∧ (State.reset.raise .mode).errCode = .mode := by
  refine ⟨by decide, by decide, by decide, by decide, rfl, rfl⟩

theorem witness_WrongAccesses :
    (Turn.host { readOf 0 with width := 16 }).isAccess { readOf 0 with width := 16 }
      ∧ ({ readOf 0 with width := 16 } : Access).width ≠ 32
      ∧ (({ writeOf 0x020 0 with lanes := 7 } : Access).kind = .write ∧ ({ writeOf 0x020 0 with lanes := 7 } : Access).lanes ≠ 0xF)
      ∧ (readOf 2).offset.toNat % 4 ≠ 0
      ∧ unmappedOffset .given (readOf 0x03C).offset.toNat ∧ unmappedOffset .given (readOf 0x0D0).offset.toNat
      ∧ unmappedOffset .given (readOf 0x3FFFFC).offset.toNat ∧ unmappedOffset .given (readOf 0x0440000).offset.toNat
      ∧ unmappedOffset .given (readOf 0x1400000).offset.toNat ∧ unmappedOffset .given (readOf 0xFFFFFFFC).offset.toNat := by
  unfold unmappedOffset
  refine ⟨.inl rfl, ?_⟩
  and_intros <;> decide

theorem witness_ReadOnly :
    (withTurns [.host (writeOf 0 0)]).agenda = .host (writeOf 0 0) :: []
      ∧ (Turn.host (writeOf 0 0)).isAccess (writeOf 0 0)
      ∧ readOnlyOffset .given 0x000 ∧ readOnlyOffset .given 0x0CC ∧ readOnlyOffset .given 0x0800000 ∧ readOnlyOffset .given 0x10FFFFC
      ∧ (Turn.host (readOf 0x094)).isAccess (readOf 0x094) ∧ (withTurns [.host (readOf 0x094)]).busy = false := by
  unfold readOnlyOffset
  exact ⟨by decide, .inl rfl, by decide, by decide, by decide, by decide, .inl rfl, by decide⟩

theorem witness_Busy :
    (busyState [.host (writeOf 0x020 5)]).busy = true ∧ writableOffset .given 0x020 ∧ writableOffset .given 0x043FFFC
      ∧ writableOffset .given 0x0C1FFFC ∧ readableBusyOffset .given 0x018 ∧ readableBusyOffset .given 0x0400000
      ∧ readableBusyOffset .given 0x043FFFC := by unfold writableOffset readableBusyOffset; decide

theorem witness_Reads :
    (withTurns [.hostHeld (readOf 0x018)]).agenda = .hostHeld (readOf 0x018) :: []
      ∧ (Turn.hostHeld (readOf 0x018)).isAccess (readOf 0x018) ∧ (readOf 0x018).kind = .read
      ∧ (readOf 0x018).place State.reset.params ≠ none ∧ (withTurns [.hostHeld (readOf 0x018)]).busy = false :=
  ⟨by decide, .inr rfl, by decide, by decide, by decide⟩

theorem witness_IqWindow : 4 * 0 < Params.given.iqCap ∧ 4 * 65535 < Params.given.iqCap
    ∧ (Turn.host (writeOf (0x0400000 + 4 * 65535) 7)).isAccess (writeOf (0x0400000 + 4 * 65535) 7)
    ∧ (Turn.host (readOf (0x0400000 + 4 * 65535))).isAccess (readOf (0x0400000 + 4 * 65535)) :=
  ⟨by decide, by decide, .inl rfl, .inl rfl⟩

/-- Element 0 of a transform buffer, read at its last word. -/
theorem witness_FftWindow :
    (withTurns [.host (readOf (0x0C00000 + 16 * 0 + 4 * 3))]).busy = false ∧ State.reset.mem.wf ∧ 3 < 4
      ∧ ∃ e, ((withTurns [.host (readOf (0x0C00000 + 16 * 0 + 4 * 3))]).fx Params.given.fftNmax)[0]? = some e :=
  ⟨by decide, by decide, by decide, _, rfl⟩

/-- One valid sample of each stream. -/
theorem witness_Windows :
    let s := { withBytes State.reset magBase (bytesOfSamples [36000]) with magLen := 1 }
    let u := { withBytes State.reset audioBase (bytesOfF64s [0x3FF0000000000000]) with audioLen := 1 }
    s.busy = false ∧ s.mem.wf ∧ s.samples[0]? = some 36000 ∧ 0 < Params.given.magCap
      ∧ u.busy = false ∧ u.mem.wf ∧ (u.audio u.audioLen.toNat)[0]? = some 0x3FF0000000000000 ∧ 0 < Params.given.audioCap
      ∧ (withTurns [.host (readOf (0x0800000 + 4 * 0))]).busy = false := by
  decide +kernel

theorem witness_ModeWrite :
    (withTurns [.host (writeOf 0x014 3)]).agenda = .host (writeOf 0x014 3) :: []
      ∧ (Turn.host (writeOf 0x014 3)).isAccess (writeOf 0x014 3)
      ∧ (withTurns [.host (writeOf 0x014 3)]).busy = false ∧ (busyState [.host (writeOf 0x014 3)]).busy = true
      ∧ (2 : Word) ≠ 0 ∧ (2 : Word) ≠ 1 ∧ (2 : Word) ≠ 3 := ⟨by decide, .inl rfl, by decide⟩

theorem witness_StatusWrite :
    (busyState [.host (writeOf 0x018 0xE)]).agenda = .host (writeOf 0x018 0xE) :: []
      ∧ (Turn.host (writeOf 0x018 0xE)).isAccess (writeOf 0x018 0xE) := ⟨by decide, .inl rfl⟩

theorem witness_Pop :
    (withTurns [.host (writeOf 0x094 0)]).agenda = .host (writeOf 0x094 0) :: []
      ∧ (Turn.host (writeOf 0x094 0)).isAccess (writeOf 0x094 0)
      ∧ (busyState []).busy = true ∧ State.reset.mq = []
      ∧ ({ State.reset with mq := [⟨Decoded.reset, 0⟩] } : State).mq = ⟨Decoded.reset, 0⟩ :: [] :=
  ⟨by decide, .inl rfl, by decide⟩

theorem witness_PlainRegisters :
    (withTurns [.host (writeOf (0x040 + 4 * 3) 0xFFFFFFFF)]).busy = false
      ∧ (withTurns [.host (writeOf (0x040 + 4 * 3) 0xFFFFFFFF)]).agenda = .host (writeOf (0x040 + 4 * 3) 0xFFFFFFFF) :: []
      ∧ (Turn.host (writeOf (0x040 + 4 * 3) 0xFFFFFFFF)).isAccess (writeOf (0x040 + 4 * 3) 0xFFFFFFFF) ∧ 3 < 4
      ∧ (Turn.host (writeOf 0x010 5)).isAccess (writeOf 0x010 5) :=
  ⟨by decide, by decide, .inl rfl, by decide, .inl rfl⟩

theorem witness_ReadOnlyRegisters :
    (withTurns [.host (readOf 0x0B4)]).busy = false ∧ (Turn.host (readOf 0x0B4)).isAccess (readOf 0x0B4)
      ∧ headOr State.reset.mq (fun r => r.offset) = 0 := ⟨by decide, .inl rfl, by decide⟩

theorem witness_FrameRegisters :
    (withTurns [.host (readOf (0x0C0 + 4 * 3))]).busy = false ∧ 3 < 4 ∧ 7 < 8
      ∧ (Turn.host (readOf (0x0C0 + 4 * 3))).isAccess (readOf (0x0C0 + 4 * 3))
      ∧ (0 : Frame) = (match (withTurns []).mq with | [] => 0 | r :: _ => r.decoded.frame) :=
  ⟨by decide, by decide, by decide, .inl rfl, by decide⟩

theorem witness_Reset : (busyState [.reset]).agenda = .reset :: [] := by decide

theorem witness_reset_invariant : State.reset.mem.wf ∧ State.reset.cache.wf ∧ State.reset.pending = none
    ∧ step State.reset = .next State.reset := ⟨by decide, by decide, by decide, rfl⟩

theorem witness_FirstError :
    let s := { withTurns [.host (writeOf 0x018 0xA)] with err := true, errCode := .mode }
    s.err = true ∧ s.agenda.head? ≠ some .reset ∧ s.nextAccess = some (writeOf 0x018 0xA)
      ∧ (writeOf 0x018 0xA).place .given = some (.reg .status) ∧ (writeOf 0x018 0xA).data.getLsbD 2 = false := by decide

/-- The write above does not clear the error. -/
theorem witness_FirstError_not_cleared :
    ¬ ({ withTurns [.host (writeOf 0x018 0xA)] with err := true, errCode := .mode } : State).clearsError := by
  rintro ⟨-, h | ⟨a, h, -, -, hb⟩⟩
  · exact absurd h (by decide)
  · obtain rfl : writeOf 0x018 0xA = a := by injection h
    exact absurd hb (by decide)

/-- A run of one NOP that records no error. -/
theorem witness_cleanRun :
    (withTurns [.host (cmdWrite 0)]).cleanRun 1 { State.reset with done := true, draw := 1, resp := some ⟨0, false⟩ } := by
  refine ⟨⟨rfl, ⟨by decide, rfl⟩, ?_⟩, rfl, ?_⟩
  · intro k u hk h
    obtain rfl : k = 0 := by omega
    obtain rfl : _ = u := by injection h
    exact fun ho => absurd (ho.1 _ (List.mem_cons_self ..)) (by decide)
  · intro k u hk h
    obtain rfl : k = 0 := by omega
    obtain rfl : _ = u := by injection h
    exact fun hc => Bool.noConfusion hc.1

/-- R211: the run ends with the host's last access while BUSY is 0; a reset still to come is no part of it. -/
theorem test_run_ends_before_a_trailing_reset :
    (withTurns [.host (writeOf 0x020 5), .reset]).runEnds 1
      { withTurns [.reset] with now := 5, draw := 1, resp := some ⟨0, false⟩ } := by
  refine ⟨rfl, ⟨by decide, rfl⟩, ?_⟩
  intro k u hk h
  obtain rfl : k = 0 := by omega
  obtain rfl : _ = u := by injection h
  exact fun ho => absurd (ho.1 _ (List.mem_cons_self ..)) (by decide)

theorem witness_idleSequencer : (withTurns [.sequencer]).agenda = .sequencer :: [] ∧ (withTurns [.sequencer]).busy = false := by
  decide

theorem witness_OnlyDecoding :
    (withTurns [.host (cmdWrite 0x06000000)]).running = some .decode
      ∧ (withTurns [.host (cmdWrite 0x06000000)]).agenda.head? ≠ some .reset
      ∧ (withTurns [.host (writeOf 0x094 0)]).running ≠ some .scan
      ∧ (withTurns [.host (writeOf 0x094 0)]).nextAccess = some (writeOf 0x094 0) := by decide

theorem witness_CommandsLeave : exec .mag State.reset = .next (State.reset.raise .mode)
    ∧ iqBase ≤ iqBase + 262143 ∧ iqBase + 262143 < iqBase + Params.given.iqCap := ⟨rfl, by decide, by decide⟩

/-- Finite operands, zero and not zero, an exact zero sum, and the largest integer that R10 converts. -/
theorem witness_Arithmetic : f64IsFinite 0x7FEFFFFFFFFFFFFF = true ∧ f64IsFinite 0x8000000000000000 = true
    ∧ f64Units 0x0000000000000001 ≠ 0 ∧ f64Units 0x8000000000000000 = 0
    ∧ f64Value 0x3FF0000000000000 + f64Value 0xBFF0000000000000 = 0 ∧ 2 ^ 53 - 1 < 2 ^ 53 := by decide +kernel

/-- Finite arguments and a NaN. -/
theorem witness_FreeFunctions : f64IsFinite 0x405FE00000000000 = true ∧ f64IsNaN 0x7FF8000000000000 = true := by decide

/-- A tie: 5/2 rounds to 2, and 3 is as near. -/
theorem witness_Rounding : roundShift 5 1 = 2
    ∧ ((2 * 2 ^ 1 : Nat) - (5 : Int)).natAbs = ((3 * 2 ^ 1 : Nat) - (5 : Int)).natAbs := by decide

end Sys2Proof.Tests
end

/-! ## Reads of registers, and the frame registers -/

section
namespace Sys2Proof.Machine

theorem mem_regMap_of_regAt {o : Nat} {r : Reg} (h : regAt o = some r) : (o, r) ∈ regMap := by
  obtain ⟨x, hx, rfl⟩ := Option.map_eq_some_iff.mp h
  have ho : x.1 = o := by simpa using List.find?_some hx
  exact ho ▸ List.mem_of_find?_eq_some hx

/-- Every register stands on a word offset below 0x100 (10_state R14). -/
theorem regAt_offset {o : Nat} {r : Reg} (h : regAt o = some r) : o < 0x100 ∧ o % 4 = 0 := by
  have hall : ∀ x ∈ regMap, x.1 < 0x100 ∧ x.1 % 4 = 0 := by decide
  exact hall _ (mem_regMap_of_regAt h)

/-- A whole-word read of a register's offset is for that register. -/
theorem place_readOf_reg {o : Nat} {r : Reg} (p : Params) (h : regAt o = some r) :
    (readOf o).place p = some (.reg r) := by
  obtain ⟨hlt, hmod⟩ := regAt_offset h
  have ho : (readOf o).offset.toNat = o := Nat.mod_eq_of_lt (by omega : o < 2 ^ 32)
  simp [Access.place, ho, hmod, placeAt, hlt, h, show (readOf o).width = 32 from rfl,
    show (readOf o).kind = .read from rfl]

/-- A read of a place by an idle block's host answers the place's word and changes nothing else, on either turn. -/
theorem step_read_idle {s : State} {rest : List Turn} {x : Turn} {a : Access} {p : Place} (hb : s.busy = false)
    (ha : s.agenda = x :: rest) (hx : x.isAccess a) (hk : a.kind = .read) (hp : a.place s.params = some p) :
    step s = .next (s.answered rest a (s.windowWord a.offset p)) := by
  have hturn : ∀ held, hostTurn held a { s with agenda := rest }
      = .next (s.answered rest a (s.windowWord a.offset p)) := by
    intro held
    have hb' : ({ s with agenda := rest } : State).busy = false := hb
    have hword : ({ s with agenda := rest } : State).placeWord a.offset p = s.windowWord a.offset p := by
      simp only [State.placeWord, hb', Bool.false_and, Bool.false_eq_true, if_false]
      rfl
    simp [hostTurn, hostAccess, hk, hp, hb', hword, State.answered, State.tookTurn, State.respond, hb]
  obtain rfl | rfl := hx
  · simpa [step, ha, takeTurn] using hturn false
  · simpa [step, ha, takeTurn] using hturn true

/-- Bit `b` of byte `i` of a frame register's word is that bit of the frame's byte (10_state R26). -/
theorem getLsbD_frameWord (f : Frame) (k : Nat) {i b : Nat} (hi : i < 4) (hb : b < 8) :
    (frameWord f k).getLsbD (8 * i + b) = (frameByte f (4 * k + i)).getLsbD b := by
  unfold frameWord
  obtain rfl | rfl | rfl | rfl : i = 0 ∨ i = 1 ∨ i = 2 ∨ i = 3 := by omega
  · rw [BitVec.getLsbD_append, if_pos (by omega)]
    simp
  · rw [BitVec.getLsbD_append, if_neg (by omega), BitVec.getLsbD_append, if_pos (by omega)]
    simp
  · rw [BitVec.getLsbD_append, if_neg (by omega), BitVec.getLsbD_append, if_neg (by omega), BitVec.getLsbD_append,
      if_pos (by omega)]
    congr 1
    omega
  · rw [BitVec.getLsbD_append, if_neg (by omega), BitVec.getLsbD_append, if_neg (by omega), BitVec.getLsbD_append,
      if_neg (by omega)]
    congr 1
    omega

/-- A byte's most significant bit is the first on the air (00_scope R5); past byte 13 every bit is 0. -/
theorem getLsbD_frameByte (f : Frame) (k : Nat) {b : Nat} (hb : b < 8) :
    (frameByte f k).getLsbD b = (decide (k < 14) && fbit f (8 * k + (7 - b))) := by
  unfold frameByte
  by_cases hk : k < 14
  · have hpos : 8 * (13 - k) + b = 112 - 1 - (8 * k + (7 - b)) := by omega
    have hlt : 8 * k + (7 - b) < 112 := by omega
    simp only [hk, if_true, decide_true, Bool.true_and, fbit, BitVec.getLsbD_extractLsb', BitVec.getMsbD, hb, hlt, hpos]
  · simp [hk]

theorem frameWord_zero (k : Nat) : frameWord 0 k = 0 := by
  have hbyte : ∀ j, frameByte 0 j = 0 := fun j => by simp [frameByte]
  simp only [frameWord, hbyte]
  rfl

/-- The word of the oldest record's frame register, 0 as of an all-0 frame when there is none (10_state R34). -/
theorem regWord_msgFrame (s : State) (k : Fin 4) :
    s.regWord (.msgFrame k) = frameWord (match s.mq with | [] => 0 | r :: _ => r.decoded.frame) k := by
  simp only [State.regWord, State.headWord]
  cases s.mq with
  | nil => exact (frameWord_zero k).symm
  | cons r q => rfl

theorem regAt_frameRegs (k : Fin 4) : regAt (0x040 + 4 * k) = some (.frameIn k)
    ∧ regAt (0x080 + 4 * k) = some (.decFrame k) ∧ regAt (0x0C0 + 4 * k) = some (.msgFrame k) := by
  decide +revert

/-- The register of a group's word `k` reads that word of the group's frame. -/
theorem exists_frameReg (s : State) {base k : Nat} {f : Frame} (hk : k < 4)
    (h : (base = 0x040 ∧ f = s.frameIn) ∨ (base = 0x080 ∧ f = s.dec.frame) ∨
      (base = 0x0C0 ∧ f = (match s.mq with | [] => 0 | r :: _ => r.decoded.frame))) :
    ∃ r, regAt (base + 4 * k) = some r ∧ s.regWord r = frameWord f k := by
  obtain ⟨hin, hdec, hmsg⟩ := regAt_frameRegs ⟨k, hk⟩
  obtain ⟨rfl, rfl⟩ | ⟨rfl, rfl⟩ | ⟨rfl, rfl⟩ := h
  · exact ⟨_, hin, rfl⟩
  · exact ⟨_, hdec, rfl⟩
  · exact ⟨_, hmsg, regWord_msgFrame s ⟨k, hk⟩⟩

/-- Settles O48: an idle read answers the register's word, and each bit of that word is a bit of a frame byte. -/
theorem frameRegistersPackTheBytes : Obligations.FrameRegistersPackTheBytes := by
  intro s rest x base k i b f hbusy ha hf hk hi hb hx
  obtain ⟨r, hreg, hword⟩ := exists_frameReg s hk hf
  refine ⟨s.regWord r, step_read_idle hbusy ha hx rfl (place_readOf_reg s.params hreg), ?_⟩
  rw [hword, getLsbD_frameWord f k hi hb, getLsbD_frameByte f (4 * k + i) hb]

end Sys2Proof.Machine
end

/-! ## Binary64: signs, classes and order by the magnitude bits -/

section
namespace Sys2Proof.Machine

theorem f64IsNaN_iff (a : F64) : f64IsNaN a = true ↔ 2047 * 2 ^ 52 < f64Mag a := by
  have := f64Mag_lt a
  simp only [f64IsNaN, f64ExpField_eq, f64Frac_eq, Bool.and_eq_true, beq_iff_eq, bne_iff_ne, ne_eq]
  omega

theorem f64IsInf_iff (a : F64) : f64IsInf a = true ↔ f64Mag a = 2047 * 2 ^ 52 := by
  have := f64Mag_lt a
  simp only [f64IsInf, f64ExpField_eq, f64Frac_eq, Bool.and_eq_true, beq_iff_eq]
  omega

theorem f64IsNaN_eq_false_iff (a : F64) : f64IsNaN a = false ↔ f64Mag a ≤ 2047 * 2 ^ 52 := by
  rw [← Bool.not_eq_true, f64IsNaN_iff, Nat.not_lt]

theorem f64IsNaN_of_finite {a : F64} (h : f64IsFinite a = true) : f64IsNaN a = false :=
  (f64IsNaN_eq_false_iff a).mpr (Nat.le_of_lt ((f64IsFinite_iff a).mp h))

theorem f64IsInf_of_finite {a : F64} (h : f64IsFinite a = true) : f64IsInf a = false := by
  rw [← Bool.not_eq_true, f64IsInf_iff]
  exact Nat.ne_of_lt ((f64IsFinite_iff a).mp h)

@[simp] theorem f64Sign_neg (a : F64) : f64Sign (f64Neg a) = !f64Sign a := by
  have hmask : (1#1 ++ 0#63 : F64).msb = true := by decide
  rw [f64Sign, f64Neg, BitVec.msb_xor, hmask, Bool.xor_true, f64Sign]

@[simp] theorem f64Mag_neg (a : F64) : f64Mag (f64Neg a) = f64Mag a := by
  have h : (f64Neg a).extractLsb' 0 63 = a.extractLsb' 0 63 := by
    apply BitVec.eq_of_getLsbD_eq
    intro i hi
    have hz : (1#1 ++ 0#63).getLsbD i = false := by
      rw [BitVec.getLsbD_append, if_pos hi, BitVec.getLsbD_zero]
    simp only [f64Neg, BitVec.getLsbD_extractLsb', BitVec.getLsbD_xor, Nat.zero_add, hz, Bool.xor_false]
  rw [f64Mag, f64Mag, h]

@[simp] theorem f64IsNaN_neg (a : F64) : f64IsNaN (f64Neg a) = f64IsNaN a := by
  rw [Bool.eq_iff_iff, f64IsNaN_iff, f64IsNaN_iff, f64Mag_neg]

@[simp] theorem f64IsFinite_neg (a : F64) : f64IsFinite (f64Neg a) = f64IsFinite a := by
  rw [Bool.eq_iff_iff, f64IsFinite_iff, f64IsFinite_iff, f64Mag_neg]

@[simp] theorem f64Sign_inf (p : Bool) : f64Sign (f64Inf p) = p := f64Sign_pack ..

@[simp] theorem f64Mag_inf (p : Bool) : f64Mag (f64Inf p) = 2047 * 2 ^ 52 := f64Mag_pack ..

@[simp] theorem f64Neg_inf (p : Bool) : f64Neg (f64Inf p) = f64Inf (!p) := f64_eq_of_sign_mag (by simp) (by simp)

@[simp] theorem f64IsInf_inf (p : Bool) : f64IsInf (f64Inf p) = true := by rw [f64IsInf_iff, f64Mag_inf]

@[simp] theorem f64IsNaN_inf (p : Bool) : f64IsNaN (f64Inf p) = false :=
  (f64IsNaN_eq_false_iff _).mpr (Nat.le_of_eq (f64Mag_inf p))

/-- A NaN result is a NaN whatever its free bits are (40_spectral R95 (b)). -/
@[simp] theorem f64IsNaN_nan (op : F64Op) (a b : F64) : f64IsNaN (f64NaN op a b) = true := by
  have hfrac : f64Frac (Config.nanBits op a b) < 2 ^ 52 := BitVec.isLt _
  simp only [f64IsNaN_iff, f64NaN, f64Mag_pack]
  split <;> omega

/-! ### Operations on a NaN -/

theorem f64AddAs_nan (op : F64Op) {a b : F64} (h : f64IsNaN a = true ∨ f64IsNaN b = true) :
    f64IsNaN (f64AddAs op a b) = true := by
  rw [f64AddAs, if_pos (by simpa using h), f64IsNaN_nan]

theorem f64Mul_nan {a b : F64} (h : f64IsNaN a = true ∨ f64IsNaN b = true) : f64IsNaN (f64Mul a b) = true := by
  rw [f64Mul, if_pos (by simpa using h), f64IsNaN_nan]

theorem f64Div_nan {a b : F64} (h : f64IsNaN a = true ∨ f64IsNaN b = true) : f64IsNaN (f64Div a b) = true := by
  rw [f64Div, if_pos (by simpa using h), f64IsNaN_nan]

/-! ### The ranges of the free functions -/

/-- What `f64InRange` lets through has magnitude bits at most the bound's. -/
theorem f64Mag_inRange_le (bound v : F64) : f64Mag (f64InRange bound v) ≤ f64Mag bound := by
  unfold f64InRange
  split
  · assumption
  · exact Nat.zero_le _

theorem f64Key_le_mag (a : F64) : f64Key a ≤ f64Mag a := by
  unfold f64Key
  split <;> omega

theorem neg_mag_le_f64Key (a : F64) : -(f64Mag a : Int) ≤ f64Key a := by
  unfold f64Key
  split <;> omega

/-- A value brought into the range of a positive bound, no NaN, lies between the bound's negation and the bound. -/
theorem f64InRange_bounds {bound : F64} (hs : f64Sign bound = false) (hn : f64IsNaN bound = false) (v : F64) :
    f64Le (f64Neg bound) (f64InRange bound v) = true ∧ f64Le (f64InRange bound v) bound = true := by
  have hmag := f64Mag_inRange_le bound v
  have hnan : f64IsNaN (f64InRange bound v) = false :=
    (f64IsNaN_eq_false_iff _).mpr (Nat.le_trans hmag ((f64IsNaN_eq_false_iff bound).mp hn))
  have hpos : f64Key bound = f64Mag bound := by simp [f64Key, hs]
  have hneg : f64Key (f64Neg bound) = -(f64Mag bound : Int) := by simp [f64Key, hs]
  have hle := f64Key_le_mag (f64InRange bound v)
  have hge := neg_mag_le_f64Key (f64InRange bound v)
  constructor
  · have : f64Key (f64Neg bound) ≤ f64Key (f64InRange bound v) := by omega
    simp [f64Le, hn, hnan, this]
  · have : f64Key (f64InRange bound v) ≤ f64Key bound := by omega
    simp [f64Le, hn, hnan, this]

/-- Settles O59: COS, SIN and ATAN2 pass through `f64InRange`, and every operation tests for a NaN first. -/
theorem freeFunctionsKeepTheirRanges : Obligations.FreeFunctionsKeepTheirRanges := by
  intro a b
  refine ⟨f64InRange_bounds (by decide) (by decide) _, f64InRange_bounds (by decide) (by decide) _, ?_, ?_⟩
  · intro ha hb
    rw [f64Atan2, ha, hb]
    exact f64InRange_bounds (by decide) (by decide) _
  · intro h
    exact ⟨f64AddAs_nan .add h, f64AddAs_nan .sub (by simpa using h), f64Mul_nan h, f64Div_nan h⟩

end Sys2Proof.Machine
end

/-! ## Rounding -/

section
namespace Sys2Proof.Machine
/- The statements name powers of two with exponents to 2200, which the elaborator has to compute as numerals. -/
set_option exponentiation.threshold 2300

/-! ### Rounding to an integer -/

/-- `n` is the integer nearest to `x / d`, the even one of two that are as near. -/
def NearestEven (n x d : Nat) : Prop :=
  2 * (n * d) ≤ 2 * x + d ∧ 2 * x ≤ 2 * (n * d) + d ∧
    (2 * (n * d) = 2 * x + d ∨ 2 * x = 2 * (n * d) + d → n % 2 = 0)

/-- An exact quotient is the integer nearest to itself. -/
theorem nearestEven_of_eq {n x d : Nat} (hd : 0 < d) (h : n * d = x) : NearestEven n x d := by
  subst h
  exact ⟨by omega, by omega, by omega⟩

theorem nearestEven_mul_right_iff {n x d c : Nat} (hc : 0 < c) :
    NearestEven n (x * c) (d * c) ↔ NearestEven n x d := by
  have hlo : 2 * (n * (d * c)) = 2 * (n * d) * c := by simp only [Nat.mul_assoc]
  have hlo' : 2 * (x * c) + d * c = (2 * x + d) * c := by rw [Nat.add_mul, Nat.mul_assoc]
  have hhi : 2 * (x * c) = 2 * x * c := (Nat.mul_assoc ..).symm
  have hhi' : 2 * (n * d) * c + d * c = (2 * (n * d) + d) * c := (Nat.add_mul ..).symm
  rw [NearestEven, hlo, hlo', hhi, hhi', Nat.mul_le_mul_right_iff hc, Nat.mul_le_mul_right_iff hc,
    Nat.mul_left_inj (Nat.ne_of_gt hc), Nat.mul_left_inj (Nat.ne_of_gt hc), NearestEven]

/-- No integer is nearer than the nearest one, which is even when another is as near. -/
theorem NearestEven.nearest {n x d : Nat} (hd : 0 < d) (h : NearestEven n x d) (c : Nat) :
    ((n * d : Nat) - (x : Int)).natAbs ≤ ((c * d : Nat) - (x : Int)).natAbs ∧
    (((n * d : Nat) - (x : Int)).natAbs = ((c * d : Nat) - (x : Int)).natAbs → c ≠ n → n % 2 = 0) := by
  obtain ⟨hlo, hhi, htie⟩ := h
  obtain hc | rfl | hc := Nat.lt_trichotomy c n
  · have hstep : c * d + d ≤ n * d := Nat.succ_mul c d ▸ Nat.mul_le_mul_right d hc
    exact ⟨by omega, fun _ _ => htie (by omega)⟩
  · exact ⟨Nat.le_refl _, fun _ hne => absurd rfl hne⟩
  · have hstep : n * d + d ≤ c * d := Nat.succ_mul n d ▸ Nat.mul_le_mul_right d hc
    exact ⟨by omega, fun _ _ => htie (by omega)⟩

/-- The nearest integer is at most any integer above the quotient. -/
theorem NearestEven.le_of_lt {n x d c : Nat} (h : NearestEven n x d) (hx : x < c * d) : n ≤ c := by
  obtain ⟨hlo, -, -⟩ := h
  refine Nat.le_of_not_lt fun hgt => ?_
  have hstep : c * d + d ≤ n * d := Nat.succ_mul c d ▸ Nat.mul_le_mul_right d hgt
  omega

/-- The nearest integer is at least any integer that the quotient reaches. -/
theorem NearestEven.ge_of_le {n x d c : Nat} (hd : 0 < d) (h : NearestEven n x d) (hx : c * d ≤ x) : c ≤ n := by
  obtain ⟨-, hhi, -⟩ := h
  refine Nat.le_of_not_lt fun hlt => ?_
  have hstep : n * d + d ≤ c * d := Nat.succ_mul n d ▸ Nat.mul_le_mul_right d hlt
  omega

/-- `roundShift` rounds to nearest, ties to even (00_scope R10). -/
theorem roundShift_nearestEven (m k : Nat) : NearestEven (roundShift m k) m (2 ^ k) := by
  have hdiv := Nat.div_add_mod' m (2 ^ k)
  have hlt := Nat.mod_lt m (Nat.two_pow_pos k)
  cases k with
  | zero => exact nearestEven_of_eq Nat.one_pos (by simp [roundShift])
  | succ k =>
    have hhalf : 2 ^ (k + 1) = 2 * 2 ^ k := Nat.pow_succ'
    simp only [roundShift, Nat.shiftRight_eq_div_pow, Nat.succ_ne_zero, if_false, Nat.add_sub_cancel]
    generalize m / 2 ^ (k + 1) = q at *
    generalize m % 2 ^ (k + 1) = r at *
    rw [hhalf] at hdiv hlt ⊢
    split
    next hup =>
      have hmul : (q + 1) * (2 * 2 ^ k) = q * (2 * 2 ^ k) + 2 * 2 ^ k := Nat.succ_mul ..
      simp only [Bool.or_eq_true, decide_eq_true_eq, Bool.and_eq_true, beq_iff_eq] at hup
      refine ⟨?_, ?_, ?_⟩ <;> rw [hmul] <;> omega
    next hdown =>
      simp only [Bool.or_eq_true, decide_eq_true_eq, Bool.and_eq_true, beq_iff_eq] at hdown
      refine ⟨?_, ?_, ?_⟩ <;> omega

/-! ### Rounding to a binary64 -/

/-- The magnitude bits `M` stand for the magnitude nearest to `x / d`: `x / d` lies between the midpoints to the
encodings next to `M`, and on one of them only when `M` is even. -/
def NearestMag (M x d : Nat) : Prop :=
  (0 < M → (unitsOfMag (M - 1) + unitsOfMag M) * d ≤ 2 * x) ∧ 2 * x ≤ (unitsOfMag M + unitsOfMag (M + 1)) * d ∧
    ((0 < M ∧ 2 * x = (unitsOfMag (M - 1) + unitsOfMag M) * d) ∨ 2 * x = (unitsOfMag M + unitsOfMag (M + 1)) * d →
      M % 2 = 0)

theorem unitsOfMag_le {m n : Nat} (h : m ≤ n) : unitsOfMag m ≤ unitsOfMag n := by
  obtain h | rfl := Nat.lt_or_eq_of_le h
  · exact Nat.le_of_lt (unitsOfMag_lt h)
  · exact Nat.le_refl _

/-- Magnitude bits are ordered as the magnitudes are. -/
theorem unitsOfMag_lt_iff {m n : Nat} : unitsOfMag m < unitsOfMag n ↔ m < n :=
  ⟨fun h => Nat.lt_of_not_le fun hle => Nat.not_le_of_lt h (unitsOfMag_le hle), unitsOfMag_lt⟩

/-- Among all encodings' magnitudes none is nearer than the nearest one, which is even when another is as near. -/
theorem NearestMag.nearest {M x d : Nat} (hd : 0 < d) (h : NearestMag M x d) (C : Nat) :
    ((unitsOfMag M * d : Nat) - (x : Int)).natAbs ≤ ((unitsOfMag C * d : Nat) - (x : Int)).natAbs ∧
    (((unitsOfMag M * d : Nat) - (x : Int)).natAbs = ((unitsOfMag C * d : Nat) - (x : Int)).natAbs →
      unitsOfMag C ≠ unitsOfMag M → M % 2 = 0) := by
  obtain ⟨hlo, hhi, htie⟩ := h
  simp only [Nat.add_mul] at hlo hhi htie
  obtain hC | rfl | hC := Nat.lt_trichotomy C M
  · have hpos : 0 < M := by omega
    have hstep := Nat.mul_le_mul_right d (unitsOfMag_le (show C ≤ M - 1 by omega))
    have hless := Nat.mul_lt_mul_of_pos_right (unitsOfMag_lt hC) hd
    have := hlo hpos
    exact ⟨by omega, fun _ _ => htie (.inl ⟨hpos, by omega⟩)⟩
  · exact ⟨Nat.le_refl _, fun _ hne => absurd rfl hne⟩
  · have hstep := Nat.mul_le_mul_right d (unitsOfMag_le (show M + 1 ≤ C by omega))
    have hless := Nat.mul_lt_mul_of_pos_right (unitsOfMag_lt hC) hd
    exact ⟨by omega, fun _ _ => htie (.inr (by omega))⟩

/-- Halfway between a power of two's magnitude and the one before it. -/
theorem midpoint_below_binade (k : Nat) :
    unitsOfMag ((k + 3) * 2 ^ 52 - 1) + unitsOfMag ((k + 3) * 2 ^ 52) = 2 * ((2 ^ 54 - 1) * 2 ^ k) := by
  have hlast : (k + 3) * 2 ^ 52 - 1 = (k + 2) * 2 ^ 52 + (2 ^ 52 - 1) := by omega
  have hfirst := unitsOfMag_normal (k + 3) 0 (by omega) (by decide)
  rw [Nat.add_zero] at hfirst
  rw [hlast, hfirst, unitsOfMag_normal (k + 2) _ (by omega) (by decide), show k + 2 - 1 = k + 1 from rfl,
    show k + 3 - 1 = k + 2 from rfl, Nat.pow_add 2 k 1, Nat.pow_add 2 k 2]
  omega

/-- Halfway between the largest finite magnitude and the one past it stands the overflow threshold of R10. -/
theorem overflow_midpoint :
    unitsOfMag (2047 * 2 ^ 52 - 1) + unitsOfMag (2047 * 2 ^ 52) = 2 * ((2 ^ 54 - 1) * 2 ^ 2044) := by
  have h := midpoint_below_binade 2044
  rwa [show 2044 + 3 = 2047 from rfl] at h

/-- Rounded to a finite magnitude, `x / d` lies below the overflow threshold: the largest finite encoding is odd. -/
theorem NearestMag.lt_overflow {M x d : Nat} (hd : 0 < d) (h : NearestMag M x d) (hM : M < 2047 * 2 ^ 52) :
    x < (2 ^ 54 - 1) * 2 ^ 2044 * d := by
  have hmid := overflow_midpoint
  generalize (2 ^ 54 - 1) * 2 ^ 2044 = threshold at *
  obtain ⟨-, hhi, htie⟩ := h
  obtain rfl | hlt : M = 2047 * 2 ^ 52 - 1 ∨ M < 2047 * 2 ^ 52 - 1 := by omega
  · rw [Nat.sub_add_cancel (by decide), hmid, Nat.mul_assoc] at hhi htie
    exact Nat.lt_of_le_of_ne (by omega) fun heq => absurd (htie (.inr (by omega))) (by decide)
  · have hup := Nat.mul_lt_mul_of_pos_right
      (Nat.add_lt_add (unitsOfMag_lt hlt) (unitsOfMag_lt (show M + 1 < 2047 * 2 ^ 52 by omega))) hd
    rw [hmid, Nat.mul_assoc] at hup
    omega

/-- Rounded to an infinity's magnitude bits or past them, `x / d` reaches the overflow threshold. -/
theorem NearestMag.overflow_le {M x d : Nat} (h : NearestMag M x d) (hM : 2047 * 2 ^ 52 ≤ M) :
    (2 ^ 54 - 1) * 2 ^ 2044 * d ≤ x := by
  have hmid := overflow_midpoint
  generalize (2 ^ 54 - 1) * 2 ^ 2044 = threshold at *
  have hdown := Nat.mul_le_mul_right d
    (Nat.add_le_add (unitsOfMag_le (show 2047 * 2 ^ 52 - 1 ≤ M - 1 by omega)) (unitsOfMag_le hM))
  rw [hmid, Nat.mul_assoc] at hdown
  have := h.1 (by omega)
  omega

/-- The encoding of the nearest magnitude bits, an infinity's from theirs on, is the rounded value. -/
theorem f64Rounded_pack {M x d : Nat} (hd : 0 < d) (h : NearestMag M x d) (sign : Bool) :
    f64Rounded (f64Pack sign (min M (2047 * 2 ^ 52))) sign x d := by
  unfold f64Rounded
  by_cases hM : M < 2047 * 2 ^ 52
  · have hmag : f64Mag (f64Pack sign (min M (2047 * 2 ^ 52))) = M := by
      rw [f64Mag_pack]
      omega
    rw [if_neg (Nat.not_le_of_lt (h.lt_overflow hd hM))]
    refine ⟨f64Sign_pack .., (f64IsFinite_iff _).mpr (by omega), fun c _ => ?_⟩
    obtain ⟨hle, htie⟩ := h.nearest hd (f64Mag c)
    simp only [f64Units_eq, f64Frac_eq, hmag]
    exact ⟨hle, fun heq hne => by have := htie heq hne; omega⟩
  · rw [if_pos (h.overflow_le (by omega)), Nat.min_eq_right (by omega), f64Inf]

/-- A significand at its place: with exponent field `k` below it (0, or a normal significand) it stands for `sig · 2^k`,
a carry out of it included. -/
theorem unitsOfMag_encode {k sig : Nat} (hk : k = 0 ∨ 2 ^ 52 ≤ sig) (hs : sig ≤ 2 ^ 53) :
    unitsOfMag (k * 2 ^ 52 + sig) = sig * 2 ^ k := by
  by_cases hsub : sig < 2 ^ 52
  · obtain rfl : k = 0 := by omega
    rw [Nat.zero_mul, Nat.zero_add, unitsOfMag_subnormal hsub, Nat.pow_zero, Nat.mul_one]
  · by_cases hcarry : sig = 2 ^ 53
    · rw [hcarry, show k * 2 ^ 52 + 2 ^ 53 = (k + 2) * 2 ^ 52 + 0 by omega,
        unitsOfMag_normal (k + 2) 0 (by omega) (by decide), show k + 2 - 1 = k + 1 from rfl, Nat.pow_succ]
      omega
    · obtain ⟨f, rfl⟩ : ∃ f, sig = 2 ^ 52 + f := ⟨sig - 2 ^ 52, by omega⟩
      rw [show k * 2 ^ 52 + (2 ^ 52 + f) = (k + 1) * 2 ^ 52 + f by omega,
        unitsOfMag_normal (k + 1) f (by omega) (by omega), Nat.add_sub_cancel]

/-- One encoding on, the magnitude is at least one last place more. -/
theorem unitsOfMag_encode_succ {k sig : Nat} (hk : k = 0 ∨ 2 ^ 52 ≤ sig) (hs : sig ≤ 2 ^ 53) :
    sig * 2 ^ k + 2 ^ k ≤ unitsOfMag (k * 2 ^ 52 + sig + 1) := by
  have hplace : k ≤ (k * 2 ^ 52 + sig) / 2 ^ 52 - 1 := by omega
  rw [unitsOfMag_succ, unitsOfMag_encode hk hs]
  exact Nat.add_le_add_left (Nat.pow_le_pow_right (by decide) hplace) _

/-- Rounding to an integer number of last places, in the binade of the value, is rounding to the nearest encoding. -/
theorem nearestMag_of_nearestEven {k sig x d : Nat} (hd : 0 < d) (h : NearestEven sig x (2 ^ k * d))
    (hlow : 0 < k → 2 ^ 52 * (2 ^ k * d) ≤ x) (hhigh : x < 2 ^ 53 * (2 ^ k * d)) :
    NearestMag (k * 2 ^ 52 + sig) x d := by
  have hD : 0 < 2 ^ k * d := Nat.mul_pos (Nat.two_pow_pos k) hd
  have hsle : sig ≤ 2 ^ 53 := h.le_of_lt hhigh
  have hsge : k = 0 ∨ 2 ^ 52 ≤ sig := (Nat.eq_zero_or_pos k).imp_right fun hk => h.ge_of_le hD (hlow hk)
  obtain ⟨hlo, hhi, htie⟩ := h
  have hparity : (k * 2 ^ 52 + sig) % 2 = sig % 2 := by omega
  have hMd : unitsOfMag (k * 2 ^ 52 + sig) * d = sig * (2 ^ k * d) := by
    rw [unitsOfMag_encode hsge hsle, Nat.mul_assoc]
  have hupd : sig * (2 ^ k * d) + 2 ^ k * d ≤ unitsOfMag (k * 2 ^ 52 + sig + 1) * d := by
    have := Nat.mul_le_mul_right d (unitsOfMag_encode_succ hsge hsle)
    rwa [Nat.add_mul, Nat.mul_assoc] at this
  have hdown : 0 < k * 2 ^ 52 + sig → unitsOfMag (k * 2 ^ 52 + sig - 1) * d + 2 ^ k * d = sig * (2 ^ k * d) ∨
      (unitsOfMag (k * 2 ^ 52 + sig - 1) * d < sig * (2 ^ k * d) ∧ sig * (2 ^ k * d) ≤ x) := by
    intro hpos
    by_cases hbinade : 0 < k ∧ sig = 2 ^ 52
    · obtain ⟨hk, rfl⟩ := hbinade
      have hlt := Nat.mul_lt_mul_of_pos_right (unitsOfMag_lt (Nat.sub_one_lt_of_lt hpos)) hd
      exact .inr ⟨hMd ▸ hlt, hlow hk⟩
    · obtain ⟨t, rfl⟩ : ∃ t, sig = t + 1 := ⟨sig - 1, by omega⟩
      left
      rw [show k * 2 ^ 52 + (t + 1) - 1 = k * 2 ^ 52 + t by omega, unitsOfMag_encode (by omega) (by omega),
        Nat.mul_assoc, Nat.succ_mul]
  simp only [NearestMag, Nat.add_mul, hMd, hparity]
  refine ⟨fun hpos => ?_, by omega, ?_⟩
  · have := hdown hpos
    omega
  · rintro (⟨hpos, heq⟩ | heq)
    · have := hdown hpos
      exact htie (by omega)
    · exact htie (by omega)

/-- The integer `m` stands for `x / d` in a rounding: it is the quotient, or it is odd, of 55 bits or more, and its
neighbours bound the quotient strictly. -/
def StandsFor (m x d : Nat) : Prop :=
  m * d = x ∨ (m % 2 = 1 ∧ 2 ^ 54 ≤ m ∧ (m - 1) * d < x ∧ x < (m + 1) * d)

/-- Rounding off two bits or more of an odd stand-in rounds the quotient itself: an odd integer is on no midpoint. -/
theorem NearestEven.of_standsFor {n m x d j : Nat} (hd : 0 < d) (h : NearestEven n m (2 ^ j)) (hm : StandsFor m x d)
    (hj : 2 ^ 54 ≤ m → 2 ≤ j) : NearestEven n x (2 ^ j * d) := by
  obtain rfl | ⟨hodd, hbig, hlt, hgt⟩ := hm
  · exact (nearestEven_mul_right_iff hd).mpr h
  · obtain ⟨i, rfl⟩ : ∃ i, j = i + 2 := ⟨j - 2, by have := hj hbig; omega⟩
    obtain ⟨t, rfl⟩ : ∃ t, m = t + 1 := ⟨m - 1, by omega⟩
    obtain ⟨hlo, hhi, -⟩ := h
    have hplace : 2 ^ (i + 2) = 4 * 2 ^ i := by rw [Nat.pow_add, Nat.mul_comm]
    have hmult : n * 2 ^ (i + 2) = 4 * (n * 2 ^ i) := by rw [hplace, Nat.mul_left_comm]
    rw [hmult, hplace] at hlo hhi
    have hlo' : 4 * (n * 2 ^ i) ≤ t + 2 * 2 ^ i := by omega
    have hhi' : t + 2 ≤ 4 * (n * 2 ^ i) + 2 * 2 ^ i := by omega
    have hlod := Nat.mul_le_mul_right d hlo'
    have hhid := Nat.mul_le_mul_right d hhi'
    have hprod : n * (2 ^ (i + 2) * d) = 4 * (n * 2 ^ i) * d := by rw [← Nat.mul_assoc, hmult]
    have hplaced : 2 ^ (i + 2) * d = 2 * (2 * 2 ^ i * d) := by rw [hplace, ← Nat.mul_assoc, ← Nat.mul_assoc]
    simp only [Nat.add_mul, Nat.add_sub_cancel, Nat.one_mul] at hlt hgt hlod hhid
    rw [NearestEven, hprod, hplaced]
    exact ⟨by omega, by omega, by omega⟩

/-- A power of two that a stand-in reaches, the quotient reaches. -/
theorem StandsFor.two_pow_le {m x d l : Nat} (h : StandsFor m x d) (hl : 2 ^ l ≤ m) : 2 ^ l * d ≤ x := by
  obtain rfl | ⟨hodd, hbig, hlt, -⟩ := h
  · exact Nat.mul_le_mul_right d hl
  · have hle : 2 ^ l ≤ m - 1 := by
      cases l with
      | zero => omega
      | succ l =>
        have : 2 ^ (l + 1) = 2 * 2 ^ l := Nat.pow_succ'
        omega
    exact Nat.le_of_lt (Nat.lt_of_le_of_lt (Nat.mul_le_mul_right d hle) hlt)

/-- A power of two that a stand-in stays below, the quotient stays below. -/
theorem StandsFor.lt_two_pow {m x d l : Nat} (hd : 0 < d) (h : StandsFor m x d) (hl : m < 2 ^ l) : x < 2 ^ l * d := by
  obtain rfl | ⟨-, -, -, hgt⟩ := h
  · exact Nat.mul_lt_mul_of_pos_right hl hd
  · exact Nat.lt_of_lt_of_le hgt (Nat.mul_le_mul_right d hl)

/-- The exponent field below the significand that `f64Round` gives `m · 2^(e − 2200)`. -/
def roundField (m e : Nat) : Nat := max (e + m.log2 - 52) 1126 - 1126

theorem roundField_add (m e : Nat) : roundField m e + 1126 = max (e + m.log2 - 52) 1126 := by
  unfold roundField
  omega

/-- The significand that `f64Round` gives `m · 2^(e − 2200)`, its last place being `2^(roundField m e − 1074)`. -/
def roundSig (m e : Nat) : Nat :=
  if roundField m e + 1126 ≤ e then m <<< (e - (roundField m e + 1126)) else roundShift m (roundField m e + 1126 - e)

theorem f64Round_eq (sign : Bool) {m : Nat} (hm : m ≠ 0) (e : Nat) :
    f64Round sign m e = f64Pack sign (min (roundField m e * 2 ^ 52 + roundSig m e) (2047 * 2 ^ 52)) := by
  unfold f64Round roundSig
  rw [if_neg hm, roundField_add]
  unfold roundField
  generalize max (e + m.log2 - 52) 1126 = p
  rfl

/-- The significand is the value rounded to an integer number of last places. -/
theorem roundSig_nearestEven {m e x d : Nat} (hm : m ≠ 0) (hd : 0 < d)
    (h : StandsFor m (x * 2 ^ 1126) (2 ^ e * d)) : NearestEven (roundSig m e) x (2 ^ roundField m e * d) := by
  have hlog := Nat.le_log2 (k := 54) hm
  have hfield := roundField_add m e
  rw [roundSig]
  generalize roundField m e = k at *
  split
  next hle =>
    obtain ⟨i, rfl⟩ : ∃ i, e = k + 1126 + i := ⟨e - (k + 1126), by omega⟩
    obtain heq | ⟨-, hbig, -⟩ := h
    · refine nearestEven_of_eq (Nat.mul_pos (Nat.two_pow_pos k) hd) ?_
      rw [Nat.add_sub_cancel_left, Nat.shiftLeft_eq]
      refine Nat.eq_of_mul_eq_mul_right (Nat.two_pow_pos 1126) (Eq.trans ?_ heq)
      simp only [Nat.pow_add]
      ac_rfl
    · have := hlog.mpr hbig
      omega
  next hgt =>
    have hnear := (roundShift_nearestEven m (k + 1126 - e)).of_standsFor (Nat.mul_pos (Nat.two_pow_pos e) hd) h
      (fun hbig => by have := hlog.mpr hbig; omega)
    have hscale : 2 ^ (k + 1126 - e) * (2 ^ e * d) = 2 ^ k * d * 2 ^ 1126 := by
      rw [← Nat.mul_assoc, ← Nat.pow_add, Nat.sub_add_cancel (by omega), Nat.pow_add, Nat.mul_right_comm]
    rwa [hscale, nearestEven_mul_right_iff (Nat.two_pow_pos 1126)] at hnear

/-- Above the least exponent field the significand is normal. -/
theorem roundField_low {m e x d : Nat} (hm : m ≠ 0) (h : StandsFor m (x * 2 ^ 1126) (2 ^ e * d))
    (hk : 0 < roundField m e) : 2 ^ 52 * (2 ^ roundField m e * d) ≤ x := by
  have hexp : 52 + roundField m e + 1126 = m.log2 + e := by
    have := roundField_add m e
    omega
  refine Nat.le_of_mul_le_mul_right ?_ (Nat.two_pow_pos 1126)
  calc 2 ^ 52 * (2 ^ roundField m e * d) * 2 ^ 1126 = 2 ^ (52 + roundField m e + 1126) * d := by
        rw [Nat.pow_add, Nat.pow_add, ← Nat.mul_assoc, Nat.mul_right_comm]
    _ = 2 ^ m.log2 * (2 ^ e * d) := by rw [hexp, Nat.pow_add, Nat.mul_assoc]
    _ ≤ x * 2 ^ 1126 := h.two_pow_le (Nat.log2_self_le hm)

/-- The significand has no more than 53 bits before it is rounded. -/
theorem roundField_high {m e x d : Nat} (hd : 0 < d) (h : StandsFor m (x * 2 ^ 1126) (2 ^ e * d)) :
    x < 2 ^ 53 * (2 ^ roundField m e * d) := by
  have hexp : m.log2 + 1 + e ≤ 53 + roundField m e + 1126 := by
    have := roundField_add m e
    omega
  refine Nat.lt_of_mul_lt_mul_right (a := 2 ^ 1126) ?_
  calc x * 2 ^ 1126 < 2 ^ (m.log2 + 1) * (2 ^ e * d) :=
        h.lt_two_pow (Nat.mul_pos (Nat.two_pow_pos e) hd) Nat.lt_log2_self
    _ = 2 ^ (m.log2 + 1 + e) * d := by rw [Nat.pow_add _ _ e, Nat.mul_assoc]
    _ ≤ 2 ^ (53 + roundField m e + 1126) * d := Nat.mul_le_mul_right d (Nat.pow_le_pow_right (by decide) hexp)
    _ = 2 ^ 53 * (2 ^ roundField m e * d) * 2 ^ 1126 := by
        rw [Nat.pow_add, Nat.pow_add, ← Nat.mul_assoc, Nat.mul_right_comm]

/-- `f64Round` gives the binary64 nearest to the magnitude `x / d` that its argument `m · 2^e` stands for. -/
theorem f64Round_rounded {m e x d : Nat} (hd : 0 < d) (h : StandsFor m (x * 2 ^ 1126) (2 ^ e * d)) (sign : Bool) :
    f64Rounded (f64Round sign m e) sign x d := by
  obtain rfl | hm := Nat.eq_zero_or_pos m
  · obtain rfl : x = 0 := by
      obtain heq | ⟨hodd, -⟩ := h
      · rw [Nat.zero_mul] at heq
        exact (Nat.mul_eq_zero.mp heq.symm).resolve_right (Nat.ne_of_gt (Nat.two_pow_pos 1126))
      · omega
    have hzero : NearestMag (0 * 2 ^ 52 + 0) 0 d :=
      nearestMag_of_nearestEven hd (nearestEven_of_eq (by omega) (Nat.zero_mul _)) (by omega) (by omega)
    exact f64Rounded_pack hd hzero sign
  · rw [f64Round_eq sign (Nat.ne_of_gt hm) e]
    exact f64Rounded_pack hd (nearestMag_of_nearestEven hd (roundSig_nearestEven (Nat.ne_of_gt hm) hd h)
      (roundField_low (Nat.ne_of_gt hm) h) (roundField_high hd h)) sign

end Sys2Proof.Machine
end

/-! ## The binary64 operations -/

section
namespace Sys2Proof.Machine

/- The statements name powers of two with exponents to 2200, which the elaborator has to compute as numerals. -/
set_option exponentiation.threshold 2300

/-! ### Values of finite operands -/

theorem unitsOfMag_zero : unitsOfMag 0 = 0 := unitsOfMag_subnormal (by decide)

theorem f64Units_eq_zero_iff (a : F64) : f64Units a = 0 ↔ f64Mag a = 0 := by
  have hlt := unitsOfMag_lt_iff (m := 0) (n := f64Mag a)
  rw [unitsOfMag_zero] at hlt
  rw [f64Units_eq]
  omega

theorem f64IsZero_eq (a : F64) : f64IsZero a = decide (f64Units a = 0) := by
  rw [Bool.eq_iff_iff, decide_eq_true_eq, f64Units_eq_zero_iff, f64IsZero, beq_iff_eq]

theorem one_le_f64Scale (a : F64) : 1 ≤ f64Scale a := by
  unfold f64Scale
  split <;> omega

theorem f64Scale_lt (a : F64) : f64Scale a < 2048 := by
  have : f64ExpField a < 2 ^ 11 := BitVec.isLt _
  unfold f64Scale
  split <;> omega

theorem f64Sig_lt (a : F64) : f64Sig a < 2 ^ 53 := by
  have : f64Frac a < 2 ^ 52 := BitVec.isLt _
  unfold f64Sig
  split <;> omega

/-- The magnitude is the significand at its scale. -/
theorem f64Units_eq_sig (a : F64) : f64Units a = f64Sig a * 2 ^ (f64Scale a - 1) := by
  unfold f64Units f64Sig f64Scale
  split
  · simp
  · rw [Nat.add_comm (f64Frac a)]

theorem f64Value_neg (a : F64) : f64Value (f64Neg a) = -f64Value a := by
  unfold f64Value
  cases h : f64Sign a <;> simp [h, f64Units_eq]

/-- The signed significand at a scale `e` counts units of `2^(e−1)`. -/
theorem f64Value_eq_sigAt (a : F64) {e : Nat} (h1 : 1 ≤ e) (he : e ≤ f64Scale a) :
    f64Value a = f64SigAt a e * 2 ^ (e - 1) := by
  have hunits : f64Units a = (f64Sig a <<< (f64Scale a - e)) * 2 ^ (e - 1) := by
    rw [f64Units_eq_sig, Nat.shiftLeft_eq, Nat.mul_assoc, ← Nat.pow_add,
      show f64Scale a - e + (e - 1) = f64Scale a - 1 by omega]
  have hcast : (f64Units a : Int) = ((f64Sig a <<< (f64Scale a - e) : Nat) : Int) * 2 ^ (e - 1) := by
    rw [hunits, Int.natCast_mul, Int.natCast_pow]
    rfl
  unfold f64Value f64SigAt
  rw [hcast]
  split
  · exact (Int.neg_mul ..).symm
  · rfl

/-- Magnitude bits order the values as the values are. -/
theorem f64Key_lt_iff (a b : F64) : f64Key a < f64Key b ↔ f64Value a < f64Value b := by
  have hab := unitsOfMag_lt_iff (m := f64Mag a) (n := f64Mag b)
  have hba := unitsOfMag_lt_iff (m := f64Mag b) (n := f64Mag a)
  have ha := f64Units_eq_zero_iff a
  have hb := f64Units_eq_zero_iff b
  simp only [f64Units_eq] at ha hb
  simp only [f64Key, f64Value, f64Units_eq]
  split <;> split <;> omega

theorem f64Key_le_iff (a b : F64) : f64Key a ≤ f64Key b ↔ f64Value a ≤ f64Value b := by
  rw [← Int.not_lt, f64Key_lt_iff, Int.not_lt]

theorem f64Lt_finite {a b : F64} (ha : f64IsFinite a = true) (hb : f64IsFinite b = true) :
    f64Lt a b = decide (f64Value a < f64Value b) := by
  simp [f64Lt, f64IsNaN_of_finite ha, f64IsNaN_of_finite hb, f64Key_lt_iff]

theorem f64Le_finite {a b : F64} (ha : f64IsFinite a = true) (hb : f64IsFinite b = true) :
    f64Le a b = decide (f64Value a ≤ f64Value b) := by
  simp [f64Le, f64IsNaN_of_finite ha, f64IsNaN_of_finite hb, f64Key_le_iff]

/-! ### Sum, product and quotient of finite operands -/

/-- A finite sum is an integer at the smaller scale, rounded once; an exact zero has its own sign. -/
theorem f64AddAs_finite (op : F64Op) {a b : F64} (ha : f64IsFinite a = true) (hb : f64IsFinite b = true) :
    ∃ (e : Nat) (sum : Int), f64Value a + f64Value b = sum * 2 ^ e ∧ f64AddAs op a b
      = f64Round (if sum = 0 then f64Sign a && f64Sign b else decide (sum < 0)) sum.natAbs (e + 1126) := by
  have ha1 := one_le_f64Scale a
  have hb1 := one_le_f64Scale b
  obtain ⟨e, he⟩ : ∃ e, min (f64Scale a) (f64Scale b) = e + 1 := ⟨min (f64Scale a) (f64Scale b) - 1, by omega⟩
  refine ⟨e, f64SigAt a (e + 1) + f64SigAt b (e + 1), ?_, ?_⟩
  · rw [f64Value_eq_sigAt a (e := e + 1) (by omega) (by omega), f64Value_eq_sigAt b (e := e + 1) (by omega) (by omega),
      ← Int.add_mul, Nat.add_sub_cancel]
  · simp only [f64AddAs, f64IsNaN_of_finite ha, f64IsNaN_of_finite hb, f64IsInf_of_finite ha, f64IsInf_of_finite hb,
      he, Bool.or_self, Bool.false_eq_true, if_false]
    split
    next hzero => simp [hzero, f64Round]
    next hne => rfl

/-- A finite sum is the exact sum rounded once. -/
theorem f64AddAs_rounded (op : F64Op) {a b : F64} (ha : f64IsFinite a = true) (hb : f64IsFinite b = true) :
    f64Rounded (f64AddAs op a b) (if f64Value a + f64Value b = 0 then f64Sign a && f64Sign b
      else decide (f64Value a + f64Value b < 0)) (f64Value a + f64Value b).natAbs 1 := by
  obtain ⟨e, sum, hsum, hadd⟩ := f64AddAs_finite op ha hb
  have hpos : (0 : Int) < 2 ^ e := Int.pow_pos (by decide)
  have hzero : sum * 2 ^ e = 0 ↔ sum = 0 := by
    rw [Int.mul_eq_zero, or_iff_left (Int.ne_of_gt hpos)]
  have hneg : sum * 2 ^ e < 0 ↔ sum < 0 := by
    simpa only [Int.zero_mul] using Int.mul_lt_mul_right (b := sum) (c := 0) hpos
  have hunits : sum.natAbs * (2 ^ (e + 1126) * 1) = (sum * 2 ^ e).natAbs * 2 ^ 1126 := by
    rw [Int.natAbs_mul, Int.natAbs_pow, Nat.mul_one, Nat.pow_add, Nat.mul_assoc]
    rfl
  rw [hsum, hadd]
  simp only [hzero, hneg]
  exact f64Round_rounded Nat.one_pos (.inl hunits) _

/-- A finite product is the exact product rounded once. -/
theorem f64Mul_rounded {a b : F64} (ha : f64IsFinite a = true) (hb : f64IsFinite b = true) :
    f64Rounded (f64Mul a b) (f64Sign a != f64Sign b) (f64Units a * f64Units b) (2 ^ 1074) := by
  have hmul : f64Mul a b = f64Round (f64Sign a != f64Sign b) (f64Sig a * f64Sig b) (f64Scale a + f64Scale b + 50) := by
    simp [f64Mul, f64IsNaN_of_finite ha, f64IsNaN_of_finite hb, f64IsInf_of_finite ha, f64IsInf_of_finite hb]
  have hunits : f64Sig a * f64Sig b * (2 ^ (f64Scale a + f64Scale b + 50) * 2 ^ 1074)
      = f64Units a * f64Units b * 2 ^ 1126 := by
    obtain ⟨i, hi⟩ := Nat.exists_eq_add_of_le' (one_le_f64Scale a)
    obtain ⟨j, hj⟩ := Nat.exists_eq_add_of_le' (one_le_f64Scale b)
    rw [f64Units_eq_sig, f64Units_eq_sig, hi, hj, Nat.add_sub_cancel, Nat.add_sub_cancel, ← Nat.pow_add,
      show i + 1 + (j + 1) + 50 + 1074 = i + j + 1126 by omega, Nat.pow_add, Nat.pow_add]
    ac_rfl
  rw [hmul]
  exact f64Round_rounded (Nat.two_pow_pos 1074) (.inl hunits) _

/-- Twice a quotient with a last bit for the remainder stands for twice the exact quotient. -/
theorem standsFor_sticky {n s : Nat} (hs : 0 < s) (hbig : 2 ^ 53 * s ≤ n ∨ n = 0) :
    StandsFor (2 * (n / s) + if n % s = 0 then 0 else 1) (2 * n) s := by
  have hdiv := Nat.div_add_mod' n s
  have hlt := Nat.mod_lt n hs
  split
  next hzero =>
    left
    rw [Nat.add_zero, Nat.mul_assoc]
    omega
  next hrem =>
    right
    have hq : 2 ^ 53 ≤ n / s := by
      rw [Nat.le_div_iff_mul_le hs]
      refine hbig.resolve_right ?_
      rintro rfl
      simp at hrem
    refine ⟨by omega, by omega, ?_, ?_⟩
    · rw [Nat.add_sub_cancel, Nat.mul_assoc]
      omega
    · rw [Nat.add_assoc, Nat.add_mul, Nat.mul_assoc]
      omega

theorem StandsFor.mul_right {m x d c : Nat} (hc : 0 < c) (h : StandsFor m x d) : StandsFor m (x * c) (d * c) := by
  obtain rfl | ⟨hodd, hbig, hlt, hgt⟩ := h
  · exact .inl (Nat.mul_assoc ..).symm
  · refine .inr ⟨hodd, hbig, ?_, ?_⟩
    · rw [← Nat.mul_assoc]
      exact Nat.mul_lt_mul_of_pos_right hlt hc
    · rw [← Nat.mul_assoc]
      exact Nat.mul_lt_mul_of_pos_right hgt hc

/-- A finite quotient by a divisor that is not zero is the exact quotient rounded once. -/
theorem f64Div_rounded {a b : F64} (ha : f64IsFinite a = true) (hb : f64IsFinite b = true) (hne : f64Units b ≠ 0) :
    f64Rounded (f64Div a b) (f64Sign a != f64Sign b) (f64Units a * 2 ^ 1074) (f64Units b) := by
  have hsig : 0 < f64Sig b := by
    rw [f64Units_eq_sig] at hne
    exact Nat.pos_of_ne_zero (Nat.mul_ne_zero_iff.mp hne).1
  have hdiv : f64Div a b = f64Round (f64Sign a != f64Sign b) (2 * ((f64Sig a <<< 120) / f64Sig b)
      + if (f64Sig a <<< 120) % f64Sig b = 0 then 0 else 1) (f64Scale a + 2079 - f64Scale b) := by
    simp [f64Div, f64IsNaN_of_finite ha, f64IsNaN_of_finite hb, f64IsInf_of_finite ha, f64IsInf_of_finite hb,
      f64IsZero_eq, hne]
  have hbig : 2 ^ 53 * f64Sig b ≤ f64Sig a <<< 120 ∨ f64Sig a <<< 120 = 0 := by
    have := f64Sig_lt b
    rw [Nat.shiftLeft_eq]
    omega
  have hstands := (standsFor_sticky hsig hbig).mul_right (Nat.two_pow_pos (f64Scale a + 2078))
  have hnum : 2 * (f64Sig a <<< 120) * 2 ^ (f64Scale a + 2078) = f64Units a * 2 ^ 1074 * 2 ^ 1126 := by
    have ha1 := one_le_f64Scale a
    have hexp : 1 + (120 + (f64Scale a + 2078)) = f64Scale a - 1 + (1074 + 1126) := by omega
    calc 2 * (f64Sig a <<< 120) * 2 ^ (f64Scale a + 2078) = f64Sig a * 2 ^ (1 + (120 + (f64Scale a + 2078))) := by
          rw [Nat.shiftLeft_eq, Nat.pow_add 2 1, Nat.pow_add 2 120, Nat.pow_one, Nat.mul_left_comm 2,
            Nat.mul_assoc, Nat.mul_assoc]
      _ = f64Units a * 2 ^ 1074 * 2 ^ 1126 := by
          rw [hexp, f64Units_eq_sig, Nat.pow_add, Nat.pow_add, Nat.mul_assoc, Nat.mul_assoc]
  have hden : f64Sig b * 2 ^ (f64Scale a + 2078) = 2 ^ (f64Scale a + 2079 - f64Scale b) * f64Units b := by
    have hb1 := one_le_f64Scale b
    have hlt := f64Scale_lt b
    have hexp : f64Scale a + 2078 = f64Scale b - 1 + (f64Scale a + 2079 - f64Scale b) := by omega
    rw [hexp, f64Units_eq_sig, Nat.pow_add, Nat.mul_left_comm, Nat.mul_comm (2 ^ (f64Scale a + 2079 - f64Scale b)),
      ← Nat.mul_assoc, Nat.mul_comm (f64Sig b)]
  rw [hnum, hden] at hstands
  rw [hdiv]
  exact f64Round_rounded (Nat.pos_of_ne_zero hne) hstands _

/-! ### Infinite operands and zero divisors -/

theorem f64AddAs_inf_left (op : F64Op) (p : Bool) {a : F64} (ha : f64IsFinite a = true) :
    f64AddAs op (f64Inf p) a = f64Inf p := by
  simp [f64AddAs, f64IsNaN_of_finite ha, f64IsInf_of_finite ha]

theorem f64AddAs_inf_right (op : F64Op) (p : Bool) {a : F64} (ha : f64IsFinite a = true) :
    f64AddAs op a (f64Inf p) = f64Inf p := by
  simp [f64AddAs, f64IsNaN_of_finite ha, f64IsInf_of_finite ha]

/-- Infinities of one sign add to it; of opposite signs they give a NaN. -/
theorem f64AddAs_inf_inf (op : F64Op) (p q : Bool) :
    f64AddAs op (f64Inf p) (f64Inf q) = if p = q then f64Inf p else f64NaN op (f64Inf p) (f64Inf q) := by
  by_cases h : p = q <;> simp [f64AddAs, h]

theorem f64Mul_inf_left (p : Bool) {a : F64} (ha : f64IsFinite a = true) : f64Mul (f64Inf p) a
    = if f64Units a = 0 then f64NaN .mul (f64Inf p) a else f64Inf (p != f64Sign a) := by
  have hinf : f64Units (f64Inf p) ≠ 0 := by simp [f64Units_eq_zero_iff]
  simp [f64Mul, f64IsNaN_of_finite ha, f64IsInf_of_finite ha, f64IsZero_eq, hinf]

theorem f64Mul_inf_right (p : Bool) {a : F64} (ha : f64IsFinite a = true) : f64Mul a (f64Inf p)
    = if f64Units a = 0 then f64NaN .mul a (f64Inf p) else f64Inf (f64Sign a != p) := by
  have hinf : f64Units (f64Inf p) ≠ 0 := by simp [f64Units_eq_zero_iff]
  simp [f64Mul, f64IsNaN_of_finite ha, f64IsInf_of_finite ha, f64IsZero_eq, hinf]

theorem f64Mul_inf_inf (p q : Bool) : f64Mul (f64Inf p) (f64Inf q) = f64Inf (p != q) := by
  simp [f64Mul, f64IsZero]

theorem f64Div_inf_left (p : Bool) {a : F64} (ha : f64IsFinite a = true) :
    f64Div (f64Inf p) a = f64Inf (p != f64Sign a) := by
  simp [f64Div, f64IsNaN_of_finite ha, f64IsInf_of_finite ha]

theorem f64Div_inf_right (p : Bool) {a : F64} (ha : f64IsFinite a = true) :
    f64Div a (f64Inf p) = f64Zero (f64Sign a != p) := by
  simp [f64Div, f64IsNaN_of_finite ha, f64IsInf_of_finite ha]

theorem f64Div_inf_inf (p q : Bool) : f64Div (f64Inf p) (f64Inf q) = f64NaN .div (f64Inf p) (f64Inf q) := by
  simp [f64Div]

/-- A zero divisor gives an infinity, or a NaN when the dividend is a zero too. -/
theorem f64Div_zero {a b : F64} (ha : f64IsFinite a = true) (hb : f64IsFinite b = true) (hz : f64Units b = 0) :
    f64Div a b = if f64Units a = 0 then f64NaN .div a b else f64Inf (f64Sign a != f64Sign b) := by
  simp [f64Div, f64IsNaN_of_finite ha, f64IsNaN_of_finite hb, f64IsInf_of_finite ha, f64IsInf_of_finite hb,
    f64IsZero_eq, hz]

/-! ### Integers -/

/-- An integer below `2^53` has room for all its bits: its encoding is its significand shifted to 53 bits. -/
theorem f64OfNat_eq {n : Nat} (hn : n ≠ 0) (h : n < 2 ^ 53) :
    f64OfNat n = f64Pack false ((n.log2 + 1022) * 2 ^ 52 + n * 2 ^ (52 - n.log2)) ∧ n * 2 ^ (52 - n.log2) < 2 ^ 53
      ∧ 2 ^ 52 ≤ n * 2 ^ (52 - n.log2) ∧ n.log2 ≤ 52 := by
  have hlog : n.log2 < 53 := (Nat.log2_lt hn).mpr h
  have hfield : roundField n 2200 = n.log2 + 1022 := by
    have := roundField_add n 2200
    omega
  have hshift : 2200 - (n.log2 + 1022 + 1126) = 52 - n.log2 := by omega
  have hsig : roundSig n 2200 = n * 2 ^ (52 - n.log2) := by
    rw [roundSig, hfield, if_pos (by omega), Nat.shiftLeft_eq, hshift]
  have hwidth : n.log2 + (52 - n.log2) = 52 := by omega
  have hhigh : n * 2 ^ (52 - n.log2) < 2 ^ 53 := by
    calc n * 2 ^ (52 - n.log2) < 2 ^ (n.log2 + 1) * 2 ^ (52 - n.log2) :=
          Nat.mul_lt_mul_of_pos_right Nat.lt_log2_self (Nat.two_pow_pos _)
      _ = 2 ^ 53 := by rw [← Nat.pow_add, Nat.add_right_comm, hwidth]
  have hlow : 2 ^ 52 ≤ n * 2 ^ (52 - n.log2) := by
    calc 2 ^ 52 = 2 ^ n.log2 * 2 ^ (52 - n.log2) := by rw [← Nat.pow_add, hwidth]
      _ ≤ n * 2 ^ (52 - n.log2) := Nat.mul_le_mul_right _ (Nat.log2_self_le hn)
  refine ⟨?_, hhigh, hlow, by omega⟩
  rw [f64OfNat, f64Round_eq false hn, hfield, hsig, Nat.min_eq_left (by omega)]

/-- Integers below `2^53` convert exactly. -/
theorem f64OfNat_exact {n : Nat} (h : n < 2 ^ 53) :
    f64IsFinite (f64OfNat n) = true ∧ f64Value (f64OfNat n) = ((n * 2 ^ 1074 : Nat) : Int) := by
  obtain rfl | hn := Nat.eq_zero_or_pos n
  · decide
  · obtain ⟨heq, hhigh, hlow, hlog⟩ := f64OfNat_eq (Nat.ne_of_gt hn) h
    have hmag : f64Mag (f64OfNat n) = (n.log2 + 1022) * 2 ^ 52 + n * 2 ^ (52 - n.log2) := by
      rw [heq, f64Mag_pack, Nat.mod_eq_of_lt (by omega)]
    refine ⟨(f64IsFinite_iff _).mpr (by omega), ?_⟩
    have hsign : f64Sign (f64OfNat n) = false := by rw [heq, f64Sign_pack]
    rw [f64Value, hsign, if_neg Bool.false_ne_true, f64Units_eq, hmag, unitsOfMag_encode (.inr hlow) (Nat.le_of_lt hhigh),
      Nat.mul_assoc, ← Nat.pow_add, show 52 - n.log2 + (n.log2 + 1022) = 1074 by omega]

/-! ### The obligation -/

/-- Settles O58: sum, product and quotient each put `f64Round` on an integer that stands for the exact result
(`StandsFor`), and `f64Round` gives the nearest encoding (`f64Round_rounded`). -/
theorem roundingIsNearestTiesToEven : Obligations.RoundingIsNearestTiesToEven := by
  refine ⟨fun m k n => (roundShift_nearestEven m k).nearest (Nat.two_pow_pos k) n, ?_, ?_,
    fun n hn => f64OfNat_exact hn, fun a ha => ⟨by rwa [f64IsFinite_neg], f64Value_neg a⟩⟩
  · intro a b ha hb
    have hsub := f64AddAs_rounded .sub ha (b := f64Neg b) (by rwa [f64IsFinite_neg])
    rw [f64Value_neg, f64Sign_neg, ← Int.sub_eq_add_neg] at hsub
    refine ⟨f64AddAs_rounded .add ha hb, hsub, f64Mul_rounded ha hb, f64Div_rounded ha hb, ?_, ?_,
      f64Lt_finite ha hb, f64Le_finite ha hb⟩
    · intro hz hne
      rw [f64Div_zero ha hb hz, if_neg hne]
    · intro hz hz'
      rw [f64Div_zero ha hb hz, if_pos hz', f64IsNaN_nan]
  · intro p q a ha
    refine ⟨f64AddAs_inf_left .add p ha, f64AddAs_inf_right .add p ha,
      f64AddAs_inf_left .sub p (by rwa [f64IsFinite_neg]), ?_, ?_, ?_, f64Div_inf_left p ha,
      f64Div_inf_right p ha, f64Mul_inf_inf p q, ?_, ?_, ?_⟩
    · rw [f64Sub, f64Neg_inf, f64AddAs_inf_right .sub _ ha]
    · intro hne
      rw [f64Mul_inf_left p ha, f64Mul_inf_right p ha, if_neg hne, if_neg hne]
      exact ⟨rfl, rfl⟩
    · intro hz
      rw [f64Mul_inf_left p ha, f64Mul_inf_right p ha, if_pos hz, if_pos hz]
      exact ⟨f64IsNaN_nan .., f64IsNaN_nan ..⟩
    · rw [f64Div_inf_inf, f64IsNaN_nan]
    · rintro rfl
      simp [f64Add, f64Sub, f64AddAs_inf_inf]
    · intro hpq
      simp [f64Add, f64Sub, f64AddAs_inf_inf, hpq]

end Sys2Proof.Machine
end

/-! ## What commands leave of the host's inputs -/

section
namespace Sys2Proof.Machine

/-- `t` holds what the host alone writes as `s` does: every byte below the MAG window, CTRL, MODE, NOW, IQ_LEN, FRAME_IN; and
the parameters. -/
def State.SameHostInputs (s t : State) : Prop :=
  (∀ a, a < magBase → t.byte a = s.byte a) ∧ t.ctrl = s.ctrl ∧ t.mode = s.mode ∧ t.now = s.now ∧ t.iqLen = s.iqLen
    ∧ t.frameIn = s.frameIn ∧ t.params = s.params

theorem State.SameHostInputs.refl (s : State) : s.SameHostInputs s :=
  ⟨fun _ _ => rfl, rfl, rfl, rfl, rfl, rfl, rfl⟩

theorem State.SameHostInputs.trans {s t u : State} (h : s.SameHostInputs t) (h' : t.SameHostInputs u) :
    s.SameHostInputs u := by
  obtain ⟨hbyte, hctrl, hmode, hnow, hlen, hframe, hparams⟩ := h
  obtain ⟨hbyte', hctrl', hmode', hnow', hlen', hframe', hparams'⟩ := h'
  exact ⟨fun a ha => (hbyte' a ha).trans (hbyte a ha), hctrl'.trans hctrl, hmode'.trans hmode, hnow'.trans hnow,
    hlen'.trans hlen, hframe'.trans hframe, hparams'.trans hparams⟩

/-- A store from the MAG window on reaches no byte of IQ. -/
theorem State.sameHostInputs_putBytes (s : State) {a : Nat} (bs : List Byte) (h : magBase ≤ a) :
    s.SameHostInputs (s.putBytes a bs) :=
  ⟨fun x hx => s.byte_put_outside a bs x (.inl (Nat.lt_of_lt_of_le hx h)), rfl, rfl, rfl, rfl, rfl, rfl⟩

theorem acceptFrame_sameHostInputs (r : Decoded) (j : Nat) (s : State) : s.SameHostInputs (acceptFrame r j s) := by
  simp [State.SameHostInputs, acceptFrame, State.byte]

theorem scanOffset_sameHostInputs (w : List Nat) (j : Nat) (s : State) :
    s.SameHostInputs (scanOffset w j s).1 := by
  unfold scanOffset
  split
  · split
    · exact acceptFrame_sameHostInputs ..
    · exact .refl s
  · exact .refl s

theorem scanLoop_sameHostInputs (w : List Nat) (len fuel j : Nat) (s : State) :
    s.SameHostInputs (scanLoop w len fuel j s).1 := by
  induction fuel generalizing j s with
  | zero => exact .refl s
  | succ fuel ih =>
    unfold scanLoop
    split
    · exact (scanOffset_sameHostInputs w j s).trans (ih ..)
    · exact .refl s

/-- The effect of a command writes its own result registers, and buffer bytes of W, FX or AU only. -/
theorem commandEffect_sameHostInputs (i : Instr) (s : State) : s.SameHostInputs (commandEffect i s) := by
  cases i with
  | nop => exact .refl s
  | fft n => exact s.sameHostInputs_putBytes _ (by decide)
  | fmdemod f => exact s.sameHostInputs_putBytes (a := audioBase) _ (by decide)
  | mag => exact s.sameHostInputs_putBytes (a := magBase) _ (Nat.le_refl magBase)
  | scan => exact scanLoop_sameHostInputs ..
  | crc lsel => exact .refl s
  | decode => exact .refl s
  | probe a => exact .refl s

/-- Run or refused, a command keeps the host's inputs: besides its effect it changes PENDING, DONE, ERR, ERRCODE and the
bus response. -/
theorem exec_sameHostInputs {i : Instr} {s t : State} (h : exec i s = .next t) : s.SameHostInputs t := by
  rw [exec_eq_runCommand] at h
  obtain ⟨-, rfl⟩ | ⟨-, e, -, rfl⟩ | ⟨-, -, rfl⟩ := runCommand_cases h
  · exact .refl s
  · exact .refl s
  · exact commandEffect_sameHostInputs i (s.start (encode i))

/-- The IQ window ends below the MAG window (00_scope R1, 20_memory R50). -/
theorem iqBase_add_iqCap_le {p : Params} (h : p.legal) : iqBase + p.iqCap ≤ magBase := by
  obtain ⟨⟨-, hcap⟩, -⟩ := h
  unfold iqBase magBase
  omega

/-- Settles O57: a command stores buffer bytes from the MAG window on only, and IQ ends below it. -/
theorem commandsLeaveTheHostsInputs : Obligations.CommandsLeaveTheHostsInputs := by
  intro i s t hlegal h
  have hiq := iqBase_add_iqCap_le hlegal
  obtain ⟨hbyte, hrest⟩ := exec_sameHostInputs h
  exact ⟨fun a _ ha => hbyte a (by omega), hrest⟩

end Sys2Proof.Machine
end

/-! ## What registers read -/

section
namespace Sys2Proof.Machine

/-- A host read, on either turn, answers the place's word and changes nothing else. -/
theorem step_read {s : State} {rest : List Turn} {x : Turn} {a : Access} {p : Place} (ha : s.agenda = x :: rest)
    (hx : x.isAccess a) (hk : a.kind = .read) (hp : a.place s.params = some p) :
    step s = .next (s.answered rest a ((s.tookTurn rest a).placeWord a.offset p)) := by
  have hturn : ∀ held, hostTurn held a { s with agenda := rest }
      = .next (s.answered rest a ((s.tookTurn rest a).placeWord a.offset p)) := by
    intro held
    have hbusy : ({ s with agenda := rest } : State).busy = s.busy := rfl
    cases hb : s.busy <;>
      simp [hostTurn, hostAccess, hk, hp, hbusy, hb, State.answered, State.tookTurn, State.respond, State.redraw]
  obtain rfl | rfl := hx
  · simpa [step, ha, takeTurn] using hturn false
  · simpa [step, ha, takeTurn] using hturn true

/-- STATUS reads its word, busy or not (20_memory R64 (c)). -/
theorem step_read_status {s : State} {rest : List Turn} {x : Turn} (ha : s.agenda = x :: rest)
    (hx : x.isAccess (readOf 0x018)) : step s = .next (s.answered rest (readOf 0x018) s.statusWord) := by
  have hword : (s.tookTurn rest (readOf 0x018)).placeWord (readOf 0x018).offset (.reg .status) = s.statusWord := by
    simp only [State.placeWord, Place.readableWhileBusy, Bool.not_true, Bool.and_false, Bool.false_eq_true, if_false]
    rfl
  rw [step_read ha hx rfl (place_readOf_reg s.params (r := .status) rfl), hword]

/-! ### STATUS -/

/-- The enables of the three interrupt causes in the CTRL word (10_state R16). -/
theorem ctrlWord_enables (c : Ctrl) : (ctrlWord c).getLsbD 8 = c.ieDone ∧ (ctrlWord c).getLsbD 9 = c.ieErr
    ∧ (ctrlWord c).getLsbD 10 = c.ieMsg := by
  refine ⟨?_, ?_, ?_⟩ <;> · simp only [ctrlWord, BitVec.getLsbD_append]; simp

/-- The six flags of the STATUS word, from bit 0 up (10_state R18). -/
theorem statusWord_flags (s : State) : s.statusWord.getLsbD 0 = s.busy ∧ s.statusWord.getLsbD 1 = s.done
    ∧ s.statusWord.getLsbD 2 = s.err ∧ s.statusWord.getLsbD 3 = s.msgOvf ∧ s.statusWord.getLsbD 4 = s.msgav
    ∧ s.statusWord.getLsbD 5 = s.irq := by
  refine ⟨?_, ?_, ?_, ?_, ?_, ?_⟩ <;> · simp only [State.statusWord, BitVec.getLsbD_append]; simp

/-- ERRCODE stands in bits 11:8 of the STATUS word, and the reserved fields beside it are 0 (10_state R18). -/
theorem statusWord_fields (s : State) : s.statusWord.extractLsb' 6 2 = 0
    ∧ s.statusWord.extractLsb' 8 4 = errCodeBits s.errCode ∧ s.statusWord.extractLsb' 12 20 = 0 := by
  refine ⟨?_, ?_, ?_⟩ <;> · simp only [State.statusWord, BitVec.extractLsb'_append_eq_ite]; simp

theorem State.msgav_eq (s : State) : s.msgav = decide (0 < s.mq.length) := by
  cases h : s.mq <;> simp [State.msgav, h]

/-- Settles O49: a STATUS read answers `statusWord`, whose fields the layout lemmas name. -/
theorem statusReadsItsFields : Obligations.StatusReadsItsFields := by
  intro s rest x ha hx
  obtain ⟨hbusy, hdone, herr, hovf, hav, hirq⟩ := statusWord_flags s
  obtain ⟨hgap, hcode, htop⟩ := statusWord_fields s
  obtain ⟨hieDone, hieErr, hieMsg⟩ := ctrlWord_enables s.ctrl
  refine ⟨s.statusWord, step_read_status ha hx, hbusy, hdone, herr, hovf, hav.trans s.msgav_eq, ?_, hirq.symm, hgap,
    htop, ?_⟩
  · rw [hirq, hdone, herr, hav, hieDone, hieErr, hieMsg, State.irq]
  · rw [hcode]
    cases s.errCode <;> decide

/-! ### The words of the other registers -/

/-- Fields put side by side are the low one and the high one shifted past it. -/
theorem setWidth_append_eq_or {n m : Nat} (w : Nat) (x : BitVec n) (y : BitVec m) :
    (x ++ y).setWidth w = y.setWidth w ||| x.setWidth w <<< m := by
  apply BitVec.eq_of_getLsbD_eq
  intro i hi
  simp only [BitVec.getLsbD_setWidth, BitVec.getLsbD_append, BitVec.getLsbD_or, BitVec.getLsbD_shiftLeft, hi]
  by_cases h : i < m
  · simp [h]
  · have hlt : i - m < w := by omega
    simp [h, hlt, BitVec.getLsbD_of_ge y i (by omega)]

theorem ctrlWord_eq (c : Ctrl) :
    ctrlWord c = (BitVec.ofBool c.fix).setWidth 32 ||| ((BitVec.ofBool c.aggr).setWidth 32 <<< 1)
      ||| ((BitVec.ofBool c.ieDone).setWidth 32 <<< 8) ||| ((BitVec.ofBool c.ieErr).setWidth 32 <<< 9)
      ||| ((BitVec.ofBool c.ieMsg).setWidth 32 <<< 10) := by
  rw [← BitVec.setWidth_eq (ctrlWord c), ctrlWord]
  simp only [setWidth_append_eq_or, BitVec.shiftLeft_or_distrib, ← BitVec.shiftLeft_add]
  simp [BitVec.or_assoc]

theorem crcResWord_eq (c : CrcResult) :
    crcResWord c = (BitVec.ofBool c.ok).setWidth 32 ||| ((BitVec.ofBool c.long).setWidth 32 <<< 1)
      ||| (c.df.setWidth 32 <<< 8) := by
  rw [← BitVec.setWidth_eq (crcResWord c), crcResWord]
  simp only [setWidth_append_eq_or, BitVec.shiftLeft_or_distrib, ← BitVec.shiftLeft_add]
  simp [BitVec.or_assoc]

theorem probeResWord_eq (p : ProbeResult) :
    probeResWord p = (BitVec.ofBool p.recent).setWidth 32 ||| (p.slot.setWidth 32 <<< 16) := by
  rw [← BitVec.setWidth_eq (probeResWord p), probeResWord]
  simp only [setWidth_append_eq_or, BitVec.shiftLeft_or_distrib, ← BitVec.shiftLeft_add]
  simp

/-- The decode status word is 44_decoder R154's formula. -/
theorem decodeStatusWord_eq (d : DecodeStatus) : decodeStatusWord d = statusFormula d := by
  rw [← BitVec.setWidth_eq (decodeStatusWord d), decodeStatusWord, statusFormula]
  simp only [setWidth_append_eq_or, BitVec.shiftLeft_or_distrib, ← BitVec.shiftLeft_add]
  simp [BitVec.or_assoc]

theorem errbitsWord_eq (d : Decoded) : errbitsWord d = d.e0.setWidth 32 ||| (d.e1.setWidth 32 <<< 8) := by
  rw [← BitVec.setWidth_eq (errbitsWord d), errbitsWord]
  simp only [setWidth_append_eq_or, BitVec.shiftLeft_or_distrib, ← BitVec.shiftLeft_add]
  simp

theorem word24_eq (v : Word24) : word24 v = v.setWidth 32 := by
  rw [← BitVec.setWidth_eq (word24 v), word24]
  simp only [setWidth_append_eq_or]
  simp

theorem extractLsb'_zero_eq_setWidth (v : F64) : v.extractLsb' 0 32 = v.setWidth 32 :=
  (BitVec.setWidth_eq_extractLsb' (by decide)).symm

theorem State.headWord_eq (s : State) (field : Record → Word) : s.headWord field = headOr s.mq field := by
  cases h : s.mq <;> simp [State.headWord, headOr, h]

/-- The register at the offset `y.1` shows the word `y.2`. -/
def State.ShowsAt (s : State) (y : Nat × Word) : Prop := ∃ r, regAt y.1 = some r ∧ s.regWord r = y.2

theorem State.ShowsAt.step_eq {s : State} {rest : List Turn} {x : Turn} {y : Nat × Word} (h : s.ShowsAt y)
    (hb : s.busy = false) (ha : s.agenda = x :: rest) (hx : x.isAccess (readOf y.1)) :
    step s = .next (s.answered rest (readOf y.1) y.2) := by
  obtain ⟨r, hr, hword⟩ := h
  rw [← hword]
  exact step_read_idle hb ha hx rfl (place_readOf_reg s.params hr)

/-- Settles O47: folded by the layout lemmas, each word of the list is the model's own word of the register at its offset. -/
theorem readOnlyRegistersShowTheirState : Obligations.ReadOnlyRegistersShowTheirState := by
  intro s rest x o v hb ha hx hmem
  suffices h : s.ShowsAt (o, v) from h.step_eq hb ha hx
  refine (?_ : ∀ y ∈ _, s.ShowsAt y) _ hmem
  simp only [← ctrlWord_eq, ← crcResWord_eq, ← probeResWord_eq, ← decodeStatusWord_eq, ← errbitsWord_eq, ← word24_eq,
    ← extractLsb'_zero_eq_setWidth, ← State.headWord_eq]
  simp only [List.cons_append, List.nil_append, List.forall_mem_cons, List.not_mem_nil, false_implies, implies_true,
    and_true]
  and_intros <;> exact ⟨_, rfl, rfl⟩

end Sys2Proof.Machine
end

/-! ## Reset -/

section
namespace Sys2Proof.Machine

/-- The word a register reads after a reset (10_state R43): ID and the capacities aside, CTRL has FIX set, DEC_ERRBITS names
no position, and the rest is 0. -/
def resetWord (p : Params) : Reg → Word
  | .id => 0x4C525331
  | .capIq => BitVec.ofNat 32 p.iqCap
  | .capFft => BitVec.ofNat 32 p.fftNmax
  | .capMsg => BitVec.ofNat 32 p.msgDepth
  | .ctrl => 1
  | .decErrbits => 0x0000FFFF
  | _ => 0

theorem resetTurn_regWord (s : State) (r : Reg) : (resetTurn s).regWord r = resetWord s.params r := by
  cases r with
  | ctrl => exact (by decide : ctrlWord State.reset.ctrl = 1)
  | status => exact (by decide : State.reset.statusWord = 0)
  | lastPhaseHi => exact (by decide : State.reset.lastPhase.extractLsb' 32 32 = 0)
  | crcCalc | crcField | decAa | decCrcf | decCrcc => exact (by decide : word24 0 = 0)
  | crcRes => exact (by decide : crcResWord State.reset.crc = 0)
  | probeRes => exact (by decide : probeResWord State.reset.probe = 0)
  | decStatus => exact (by decide : decodeStatusWord Decoded.reset.status = 0)
  | decErrbits => exact (by decide : errbitsWord Decoded.reset = 0xFFFF)
  | frameIn k | decFrame k => exact frameWord_zero k
  | _ => rfl

/-- The reset values of R43 by offset. -/
theorem resetWord_regMap (p : Params) : ∀ x ∈ regMap, resetWord p x.2 =
    if x.1 = 0x000 then 0x4C525331 else if x.1 = 0x004 then BitVec.ofNat 32 p.iqCap
      else if x.1 = 0x008 then BitVec.ofNat 32 p.fftNmax else if x.1 = 0x00C then BitVec.ofNat 32 p.msgDepth
      else if x.1 = 0x010 then 1 else if x.1 = 0x068 then 0x0000FFFF else 0 := by
  simp only [regMap, List.cons_append, List.nil_append, List.forall_mem_cons, List.not_mem_nil, false_implies,
    implies_true, and_true]
  and_intros <;> rfl

/-- Settles O50: the step is `resetTurn`, whose registers read `resetWord`. -/
theorem resetLeavesTheResetValues : Obligations.ResetLeavesTheResetValues := by
  intro s rest ha
  have hstep : step s = .next (resetTurn { s with agenda := rest }) := by simp [step, ha, takeTurn]
  exact ⟨_, hstep, rfl, rfl, rfl, rfl, rfl, rfl, fun _ => rfl, rfl, rfl,
    fun o r hr => (resetTurn_regWord _ r).trans (resetWord_regMap s.params (o, r) (mem_regMap_of_regAt hr))⟩

/-- The parameters R1 gives are within its bounds; FFT_NMAX is `2^13`. -/
theorem Params.given_legal : Params.given.legal := by
  refine ⟨by decide, ⟨13, ?_⟩, ?_⟩ <;> decide

theorem State.reset_inv : State.reset.Inv where
  paramsLegal := Params.given_legal
  memWf := List.Pairwise.nil
  memBacked := List.forall_mem_nil _
  cacheWf := ⟨List.Pairwise.nil, List.forall_mem_nil _⟩
  cacheSlots := List.forall_mem_nil _
  scanPosLe := Nat.le_refl 0
  magLenLe := Nat.zero_le _
  audioLenLe := Nat.zero_le _
  mqLength := Nat.zero_le _
  mqRecords := List.forall_mem_nil _
  errCodes := by decide
  pendingLegal := fun _ h => nomatch h

/-- Settles O51: the lists are empty, the lengths 0, no error is recorded and nothing is in flight. -/
theorem resetMeetsTheInvariant : Obligations.ResetMeetsTheInvariant := ⟨State.reset_inv, rfl⟩

end Sys2Proof.Machine
end

/-! ## Command words decode to their command -/

section
namespace Sys2Proof

/-- The opcode of a word put together from opcode and operand (30_encoding R70). -/
theorem wordOpcode_append (op : BitVec 8) (x : BitVec 24) : wordOpcode (op ++ x) = op :=
  BitVec.extractLsb'_append_eq_left

theorem wordOperand_append (op : BitVec 8) (x : BitVec 24) : wordOperand (op ++ x) = x :=
  BitVec.extractLsb'_append_eq_right

theorem decode_encode_fmdemod (f : BitVec 16) : decode (encode (.fmdemod f)) = .ok (.fmdemod f) := by
  have hop : wordOpcode (encode (.fmdemod f)) = 2 :=
    (BitVec.extractLsb'_append_eq_of_le (by decide)).trans (by decide)
  have hzero : (encode (.fmdemod f)).extractLsb' 16 8 = 0 :=
    (BitVec.extractLsb'_append_eq_of_le (by decide)).trans (by decide)
  have hfield : (encode (.fmdemod f)).extractLsb' 0 16 = f := BitVec.extractLsb'_append_eq_right
  simp [decode, hop, decodeF, hzero, hfield]

theorem decode_encode_crc {lsel : BitVec 2} (h : lsel ≠ 3#2) : decode (encode (.crc lsel)) = .ok (.crc lsel) := by
  have hop : wordOpcode (encode (.crc lsel)) = 5 :=
    (BitVec.extractLsb'_append_eq_of_le (by decide)).trans (by decide)
  have hzero : (encode (.crc lsel)).extractLsb' 2 22 = 0 :=
    (BitVec.extractLsb'_append_eq_of_le (by decide)).trans (by decide)
  have hfield : (encode (.crc lsel)).extractLsb' 0 2 = lsel := BitVec.extractLsb'_append_eq_right
  simp [decode, hop, decodeL, hzero, hfield, h]

/-- A command decodes from its own word. -/
theorem decode_encode {i : Instr} (h : i.wellFormed = true) : decode (encode i) = .ok i := by
  cases i with
  | nop | mag | scan | decode => rfl
  | fft n => simp [encode, decode, wordOpcode_append, wordOperand_append]
  | fmdemod f => exact decode_encode_fmdemod f
  | crc lsel => exact decode_encode_crc (by simpa only [Instr.wellFormed, bne_iff_ne] using h)
  | probe a => simp [encode, decode, wordOpcode_append, wordOperand_append]

end Sys2Proof
end

/-! ## The buffers' views by index -/

section
namespace Sys2Proof.Machine

/-- The binary64 value at a buffer offset, low word first (20_memory R52). -/
def State.f64At (s : State) (a : Nat) : F64 := s.word (a + 4) ++ s.word a

theorem pairsOfBytes_length : ∀ bs : List Byte, (pairsOfBytes bs).length = bs.length / 2
  | [] => rfl
  | [_] => by simp [pairsOfBytes]
  | i :: q :: rest => by
    simp only [pairsOfBytes, List.length_cons, pairsOfBytes_length rest]
    omega

theorem State.iqPairs_length (s : State) : s.iqPairs.length = s.iqLen.toNat / 2 := by
  rw [State.iqPairs, pairsOfBytes_length, State.bytes_length]

theorem samplesOfBytes_map_range' (f : Nat → Byte) (a n : Nat) :
    samplesOfBytes ((List.range' a (4 * n)).map f)
      = (List.range' a n 4).map (fun x => (f (x + 1) ++ f x).toNat) := by
  induction n generalizing a with
  | zero => rfl
  | succ n ih => simp [Nat.mul_succ, List.range'_succ, samplesOfBytes, ih]

/-- Four bytes after a word are the word their append makes. -/
theorem append_bytes_eq_append_word (x : Word) (b3 b2 b1 b0 : Byte) :
    (x ++ b3 ++ b2 ++ b1 ++ b0 : F64) = x ++ (b3 ++ b2 ++ b1 ++ b0 : Word) := by
  apply BitVec.eq_of_toNat_eq
  simp only [BitVec.toNat_append, Nat.shiftLeft_or_distrib, Nat.or_assoc, ← Nat.shiftLeft_add]

/-- Bytes taken eight by eight are the values at every eighth offset. -/
theorem f64sOfBytes_map_byte (s : State) (a n : Nat) :
    f64sOfBytes ((List.range' a (8 * n)).map s.byte) = (List.range' a n 8).map s.f64At := by
  induction n generalizing a with
  | zero => rfl
  | succ n ih =>
    have hword := append_bytes_eq_append_word (s.word (a + 4)) (s.byte (a + 3)) (s.byte (a + 2)) (s.byte (a + 1))
      (s.byte a)
    simp only [State.word, Nat.add_assoc, Nat.reduceAdd] at hword
    simp [Nat.mul_succ, List.range'_succ, f64sOfBytes, ih, State.f64At, State.word, Nat.add_assoc, hword]

theorem cplxOfF64s_map_range' (g : Nat → F64) (a n : Nat) :
    cplxOfF64s ((List.range' a (2 * n) 8).map g) = (List.range' a n 16).map (fun x => ⟨g x, g (x + 8)⟩) := by
  induction n generalizing a with
  | zero => rfl
  | succ n ih => simp [Nat.mul_succ, List.range'_succ, cplxOfF64s, ih]

/-- In canonical form the valid samples are the samples at their indices. -/
theorem State.samples_eq_map (s : State) (hm : s.mem.wf) :
    s.samples = (List.range' magBase s.magLen.toNat 4).map (fun x => (s.byte (x + 1) ++ s.byte x).toNat) := by
  rw [State.samples, State.bytes_eq_map s hm, samplesOfBytes_map_range']

theorem State.audio_eq_map (s : State) (hm : s.mem.wf) (n : Nat) :
    s.audio n = (List.range' audioBase n 8).map s.f64At := by
  rw [State.audio, State.bytes_eq_map s hm, f64sOfBytes_map_byte]

theorem State.fx_eq_map (s : State) (hm : s.mem.wf) (n : Nat) :
    s.fx n = (List.range' fftBase n 16).map (fun x => ⟨s.f64At x, s.f64At (x + 8)⟩) := by
  rw [State.fx, State.bytes_eq_map s hm, show 16 * n = 8 * (2 * n) by omega, f64sOfBytes_map_byte,
    cplxOfF64s_map_range']

theorem State.samples_length (s : State) (hm : s.mem.wf) : s.samples.length = s.magLen.toNat := by
  simp [State.samples_eq_map s hm]

theorem State.fx_length (s : State) (hm : s.mem.wf) (n : Nat) : (s.fx n).length = n := by
  simp [State.fx_eq_map s hm]

end Sys2Proof.Machine
end

/-! ## How many bytes a command stores -/

section
namespace Sys2Proof.Machine

@[simp] theorem bytesOfWord_length (v : Word) : (bytesOfWord v).length = 4 := rfl

@[simp] theorem bytesOfSamples_length (xs : List Nat) : (bytesOfSamples xs).length = 4 * xs.length := by
  induction xs with
  | nil => rfl
  | cons x xs ih => simp [bytesOfSamples, ih]; omega

@[simp] theorem bytesOfF64s_length (vs : List F64) : (bytesOfF64s vs).length = 8 * vs.length := by
  induction vs with
  | nil => rfl
  | cons v vs ih => simp [bytesOfF64s, bytesOfF64, ih]; omega

@[simp] theorem f64sOfCplx_length (xs : List Cplx) : (f64sOfCplx xs).length = 2 * xs.length := by
  induction xs with
  | nil => rfl
  | cons x xs ih => simp [f64sOfCplx, ih]; omega

@[simp] theorem boxcar_length (f n : Nat) (ds : List F64) : (boxcar f n ds).length = n := by
  induction n generalizing ds with
  | zero => rfl
  | succ n ih => simp [boxcar, ih]

theorem butterflies_length (wlen w : Cplx) (us ts : List Cplx) :
    (butterflies wlen w us ts).1.length = min us.length ts.length
      ∧ (butterflies wlen w us ts).2.length = min us.length ts.length := by
  induction us generalizing w ts with
  | nil => simp [butterflies]
  | cons u us ih =>
    cases ts with
    | nil => simp [butterflies]
    | cons t ts =>
      obtain ⟨h1, h2⟩ := ih (cplxMul w wlen) ts
      simp [butterflies, h1, h2]

theorem fftBlock_length_le (wlen : Cplx) (h : Nat) (xs : List Cplx) : (fftBlock wlen h xs).length ≤ xs.length := by
  obtain ⟨h1, h2⟩ := butterflies_length wlen { re := f64One, im := 0 } (xs.take h) (xs.drop h)
  simp only [fftBlock, List.length_append, h1, h2, List.length_take, List.length_drop]
  omega

theorem fftBlocks_length_le (wlen : Cplx) (h n : Nat) (xs : List Cplx) :
    (fftBlocks wlen h n xs).length ≤ xs.length := by
  induction n generalizing xs with
  | zero => exact Nat.le_refl _
  | succ n ih =>
    have hhead := fftBlock_length_le wlen h (xs.take (2 * h))
    have htail := ih (xs.drop (2 * h))
    simp only [List.length_take, List.length_drop] at hhead htail
    simp only [fftBlocks, List.length_append]
    omega

/-- The transform is no longer than its input. -/
theorem fftTransform_length_le (cos sin : F64 → F64) (r : Nat) (xs : List Cplx) :
    (fftTransform cos sin r xs).length ≤ xs.length := by
  have hstages : ∀ (ks : List Nat) (ys : List Cplx), (ks.foldl (fftStage cos sin) ys).length ≤ ys.length := by
    intro ks
    induction ks with
    | nil => exact fun _ => Nat.le_refl _
    | cons k ks ih => exact fun ys => Nat.le_trans (ih _) (fftBlocks_length_le ..)
  simpa only [fftTransform, bitReversePermute, List.length_map, List.length_range] using
    hstages (List.range r) (bitReversePermute r xs)

end Sys2Proof.Machine
end

/-! ## The invariant, update by update -/

section
namespace Sys2Proof.Machine

variable {s t : State}

/-! ### Issue checks -/

theorem checkIqLen_eq_some {e : ErrCode} (h : checkIqLen s = some e) : e = .iqLen := by
  simp only [checkIqLen, Option.ite_none_right_eq_some, Option.some.injEq] at h
  exact h.2.symm

theorem ownCheck_ne_noError (i : Instr) (s : State) : ownCheck i s ≠ some .noError := by
  cases i with
  | fft n => simp [ownCheck, checkFftSize]
  | fmdemod f =>
    simp only [ownCheck, checkFmdemod]
    cases h : checkIqLen s with
    | none => simp
    | some e => simp [checkIqLen_eq_some h]
  | mag => simp [ownCheck, checkIqLen]
  | _ => simp [ownCheck]

theorem issueError_ne_noError {i : Instr} {s : State} {e : ErrCode} (h : issueError i (ownCheck i s) s = some e) :
    e ≠ .noError := by
  rintro rfl
  unfold issueError at h
  split at h
  · cases h
  · split at h
    · cases h
    · exact ownCheck_ne_noError i s h

/-- What the checks of an accepted command established. -/
theorem issueError_eq_none {i : Instr} {own : Option ErrCode} {s : State} (h : issueError i own s = none) :
    i.wellFormed = true ∧ permitted i s.mode = true ∧ own = none := by
  unfold issueError at h
  split at h
  case isTrue => cases h
  case isFalse hwf =>
    split at h
    case isTrue => cases h
    case isFalse hmode => exact ⟨by simpa using hwf, by simpa using hmode, h⟩

/-- A block length that passed its check. -/
theorem checkIqLen_eq_none (h : checkIqLen s = none) : s.iqLen.toNat % 2 = 0 ∧ s.iqLen.toNat ≤ s.params.iqCap := by
  simp only [checkIqLen, Bool.or_eq_true, decide_eq_true_eq, ite_eq_right_iff, reduceCtorEq, imp_false, not_or] at h
  omega

theorem checkFmdemod_eq_none {f : BitVec 16} (h : checkFmdemod f s = none) : checkIqLen s = none ∧ f ≠ 0 := by
  unfold checkFmdemod at h
  split at h
  · simp at h
  · simp_all

theorem checkFftSize_eq_none {p : Params} {n : Nat} (h : checkFftSize p n = none) : n ≤ p.fftNmax := by
  refine Nat.le_of_not_lt fun hn => ?_
  simp [checkFftSize, hn] at h

/-- The issue checks look at MODE, IQ_LEN and the parameters only. -/
theorem issueError_congr (i : Instr) (hm : t.mode = s.mode) (hl : t.iqLen = s.iqLen) (hp : t.params = s.params) :
    issueError i (ownCheck i t) t = issueError i (ownCheck i s) s := by
  have hown : ownCheck i t = ownCheck i s := by
    cases i <;> simp only [ownCheck, checkFmdemod, checkIqLen, hl, hp]
  rw [hown, issueError, issueError, hm]

theorem issueError_start (i : Instr) (s : State) (w : Word) :
    issueError i (ownCheck i (s.start w)) (s.start w) = issueError i (ownCheck i s) s :=
  issueError_congr i rfl rfl rfl

/-- The command in flight stays one that passed its checks while those fields stay. -/
theorem State.Inv.pendingLegal_of_eq (h : s.Inv) (hw : t.pending = s.pending) (hm : t.mode = s.mode)
    (hl : t.iqLen = s.iqLen) (hp : t.params = s.params) :
    ∀ w, t.pending = some w → ∃ i, decode w = .ok i ∧ issueError i (ownCheck i t) t = none := by
  intro w hpend
  obtain ⟨i, hdec, hi⟩ := h.pendingLegal w (hw ▸ hpend)
  exact ⟨i, hdec, (issueError_congr i hm hl hp).trans hi⟩

/-! ### The updates every command and access shares -/

theorem State.Inv.redraw (h : s.Inv) : s.redraw.Inv :=
  { h with pendingLegal := h.pendingLegal_of_eq rfl rfl rfl rfl }

theorem State.Inv.respond (h : s.Inv) (v : Word) : (s.respond v).Inv :=
  { h with pendingLegal := h.pendingLegal_of_eq rfl rfl rfl rfl }

theorem State.Inv.tookTurn (h : s.Inv) (rest : List Turn) (a : Access) : (s.tookTurn rest a).Inv :=
  { h with pendingLegal := h.pendingLegal_of_eq rfl rfl rfl rfl }

theorem State.Inv.raise (h : s.Inv) {e : ErrCode} (he : e ≠ .noError) : (s.raise e).Inv :=
  { h with
    pendingLegal := h.pendingLegal_of_eq rfl rfl rfl rfl
    errCodes := by
      have := h.errCodes
      cases herr : s.err <;> simp_all }

theorem State.Inv.busError (h : s.Inv) {e : ErrCode} (he : e ≠ .noError) : (s.busError e).Inv :=
  { h.raise he with pendingLegal := h.pendingLegal_of_eq rfl rfl rfl rfl }

theorem State.Inv.writeStatus (h : s.Inv) (v : Word) : (s.writeStatus v).Inv :=
  { h with
    pendingLegal := h.pendingLegal_of_eq rfl rfl rfl rfl
    errCodes := by
      have := h.errCodes
      cases herr : v.getLsbD 2 <;> simp_all }

theorem State.Inv.complete (h : s.Inv) : s.complete.Inv := { h with pendingLegal := fun _ hw => nomatch hw }

/-- Another FIFO of accepted records within its depth; MSG_DROPS and MSG_OVF are free. -/
theorem State.Inv.withFifo (h : s.Inv) {q : List Record} (hlen : q.length ≤ s.params.msgDepth)
    (hq : ∀ r ∈ q, r.decoded.status.valid = true ∧ r.decoded.status.ok = true) (drops : Word) (ovf : Bool) :
    ({ s with mq := q, msgDrops := drops, msgOvf := ovf } : State).Inv :=
  { h with
    pendingLegal := h.pendingLegal_of_eq rfl rfl rfl rfl
    mqLength := hlen
    mqRecords := hq }

theorem State.Inv.popRecord (h : s.Inv) : s.popRecord.Inv :=
  h.withFifo (Nat.le_trans (s.mq.length_tail ▸ Nat.sub_le ..) h.mqLength)
    (fun r hr => h.mqRecords r (List.mem_of_mem_tail hr)) _ _

theorem State.Inv.pushRecord (h : s.Inv) {r : Record}
    (hr : r.decoded.status.valid = true ∧ r.decoded.status.ok = true) : (s.pushRecord r).Inv := by
  obtain ⟨-, -, hdepth, -⟩ := h.paramsLegal
  have hlen := s.pushRecord_length r hdepth h.mqLength
  have hrecords : ∀ q : List Record, (∀ x ∈ q, x ∈ s.mq) →
      ∀ x ∈ q ++ [r], x.decoded.status.valid = true ∧ x.decoded.status.ok = true := by
    intro q hq x hx
    obtain hx | hx := List.mem_append.mp hx
    · exact h.mqRecords x (hq x hx)
    · exact List.mem_singleton.mp hx ▸ hr
  by_cases hfull : s.mq.length = s.params.msgDepth
  · rw [State.pushRecord_full s r hfull] at hlen ⊢
    exact h.withFifo hlen (hrecords _ fun _ => List.mem_of_mem_tail) _ _
  · rw [State.pushRecord_room s r hfull] at hlen ⊢
    exact h.withFifo hlen (hrecords _ fun _ => id) _ _

/-- A store whose bytes all fall on backed offsets. -/
theorem State.Inv.putBytes (h : s.Inv) {a : Nat} {bs : List Byte}
    (hb : ∀ x, a ≤ x → x < a + bs.length → backedOffset s.params x) : (s.putBytes a bs).Inv :=
  { h with
    pendingLegal := h.pendingLegal_of_eq rfl rfl rfl rfl
    memWf := Memory.put_wf h.memWf a bs
    memBacked := by
      intro c hc
      obtain hc | ⟨hc, -⟩ := Memory.mem_put hc
      · obtain ⟨hlo, hhi⟩ := mem_cellsFrom hc
        exact hb c.1 hlo hhi
      · exact h.memBacked c hc }

theorem State.Inv.start (h : s.Inv) {i : Instr} (hi : issueError i (ownCheck i s) s = none) :
    (s.start (encode i)).Inv :=
  { h with
    pendingLegal := by
      rintro w hw
      obtain rfl : encode i = w := Option.some.inj hw
      obtain ⟨hwf, -, -⟩ := issueError_eq_none hi
      exact ⟨i, decode_encode hwf, (issueError_start i s _).trans hi⟩ }

end Sys2Proof.Machine
end

/-! ## The invariant through commands -/

section
namespace Sys2Proof.Machine

variable {s : State}

/-! ### Stores within a window -/

theorem State.Inv.putSamples (h : s.Inv) {xs : List Nat} (hlen : xs.length ≤ s.params.magCap) :
    (s.putSamples xs).Inv := by
  refine h.putBytes fun x hlo hhi => .inr (.inl ⟨hlo, ?_⟩)
  rw [bytesOfSamples_length] at hhi
  omega

theorem State.Inv.putFx (h : s.Inv) {xs : List Cplx} (hlen : xs.length ≤ s.params.fftNmax) : (s.putFx xs).Inv := by
  refine h.putBytes fun x hlo hhi => .inr (.inr (.inl ⟨hlo, ?_⟩))
  rw [bytesOfF64s_length, f64sOfCplx_length] at hhi
  omega

theorem State.Inv.putAudio (h : s.Inv) {vs : List F64} (hlen : vs.length ≤ s.params.audioCap) :
    (s.putAudio vs).Inv := by
  refine h.putBytes fun x hlo hhi => .inr (.inr (.inr ⟨hlo, ?_⟩))
  rw [bytesOfF64s_length] at hhi
  omega

/-! ### FFT, FMDEMOD, MAG -/

theorem effectFft_inv (h : s.Inv) {n : BitVec 24} (hn : checkFftSize s.params n.toNat = none) :
    (effectFft n s).Inv := by
  refine h.putFx (Nat.le_trans (fftTransform_length_le ..) ?_)
  rw [s.fx_length h.memWf]
  exact checkFftSize_eq_none hn

theorem effectFmdemod_inv (h : s.Inv) {f : BitVec 16} (hf : checkFmdemod f s = none) : (effectFmdemod f s).Inv := by
  obtain ⟨hiq, -⟩ := checkFmdemod_eq_none hf
  obtain ⟨-, hcap⟩ := checkIqLen_eq_none hiq
  have hn : s.iqPairs.length / f.toNat ≤ s.params.audioCap := by
    refine Nat.le_trans (Nat.div_le_self ..) ?_
    rw [s.iqPairs_length]
    exact Nat.div_le_div_right hcap
  have hput := h.putAudio (vs := boxcar f.toNat (s.iqPairs.length / f.toNat)
    (phaseDiffs f64Atan2 s.lastPhase s.iqPairs).1) (by simpa using hn)
  exact { hput with
    audioLenLe := Nat.le_trans (Nat.mod_le ..) hn
    pendingLegal := h.pendingLegal_of_eq rfl rfl rfl rfl }

/-- The window after MAG holds the carried samples and one per pair, which fit in 32 bits and in MAG_CAP. -/
theorem effectMag_inv (h : s.Inv) (hiq : checkIqLen s = none) : (effectMag s).Inv := by
  obtain ⟨-, hcap⟩ := checkIqLen_eq_none hiq
  obtain ⟨⟨-, hmax⟩, -⟩ := h.paramsLegal
  have hpos := h.scanPosLe
  have htail : min Config.magTail s.magLen.toNat + s.iqLen.toNat / 2 ≤ s.params.magCap := by
    unfold Params.magCap
    omega
  have hsmall : s.params.magCap < 2 ^ 32 := by
    unfold Params.magCap Config.magTail Config.win Config.pre
    omega
  have hput := h.putSamples (xs := s.samples.drop (s.magLen.toNat - min Config.magTail s.magLen.toNat)
    ++ s.iqPairs.map (pairMag s.params)) (by
      simp only [List.length_append, List.length_drop, s.samples_length h.memWf, List.length_map, s.iqPairs_length]
      omega)
  have hlen : (effectMag s).magLen.toNat = min Config.magTail s.magLen.toNat + s.iqLen.toNat / 2 := by
    simp only [effectMag, List.length_map, s.iqPairs_length, BitVec.toNat_ofNat]
    omega
  have hscan : (effectMag s).scanPos.toNat
      = s.scanPos.toNat - (s.magLen.toNat - min Config.magTail s.magLen.toNat) := by
    simp only [effectMag, BitVec.toNat_ofNat]
    omega
  exact { hput with
    scanPosLe := by omega
    magLenLe := Nat.le_trans (Nat.le_of_eq hlen) htail
    pendingLegal := h.pendingLegal_of_eq rfl rfl rfl rfl }

/-! ### DECODE -/

/-- An insertion puts the address in its own slot and leaves the other slots. -/
theorem Cache.insert_slots {c : Cache} {p : Params} (h : ∀ x ∈ c, slotOf p x.2.addr = x.1) (now : Word)
    (a : Word24) : ∀ x ∈ c.insert p now a, slotOf p x.2.addr = x.1 := by
  intro x hx
  obtain hx | hx := List.mem_append.mp hx
  · exact h x (List.mem_filter.mp hx).1
  · obtain rfl | hx := List.mem_cons.mp hx
    · rfl
    · exact h x (List.mem_filter.mp hx).1

theorem State.Inv.cacheAfter (h : s.Inv) (d : Decoded) :
    ({ s with cache := cacheAfter s.params s.cache s.now d } : State).Inv := by
  unfold Machine.cacheAfter
  split
  · exact { h with
      cacheWf := Cache.insert_wf h.cacheWf ..
      cacheSlots := Cache.insert_slots h.cacheSlots _ _
      pendingLegal := h.pendingLegal_of_eq rfl rfl rfl rfl }
  · exact { h with pendingLegal := h.pendingLegal_of_eq rfl rfl rfl rfl }

theorem effectDecode_inv (h : s.Inv) : (effectDecode s).Inv :=
  { h.cacheAfter (decodeFrame s.params s.ctrl s.now s.cache s.frameIn) with
    pendingLegal := h.pendingLegal_of_eq rfl rfl rfl rfl }

/-! ### SCAN -/

/-- An accepted attempt is a valid frame that matched or was confirmed (43_detector R128). -/
theorem attempt_accepted {region : List Nat} {r : Decoded} (h : attempt region s = some r) :
    r.status.valid = true ∧ r.status.ok = true := by
  unfold attempt at h
  simp only [Option.ite_none_left_eq_some, Option.ite_none_right_eq_some, Option.some.injEq] at h
  obtain ⟨-, hok, rfl⟩ := h
  exact ⟨rfl, hok⟩

theorem attempts_accepted {w : List Nat} {j : Nat} {r : Decoded} (h : attempts w j s = some r) :
    r.status.valid = true ∧ r.status.ok = true := by
  unfold attempts at h
  split at h
  case h_1 d hd => exact Option.some.inj h ▸ attempt_accepted hd
  case h_2 =>
    simp only [Option.ite_none_right_eq_some, Option.map_eq_some_iff] at h
    obtain ⟨-, d, hd, rfl⟩ := h
    obtain ⟨hvalid, hok⟩ := attempt_accepted hd
    exact ⟨hvalid, hok⟩

theorem acceptFrame_inv (h : s.Inv) {r : Decoded} (hr : r.status.valid = true ∧ r.status.ok = true) (j : Nat) :
    (acceptFrame r j s).Inv := (h.cacheAfter r).pushRecord hr

theorem scanOffset_inv (h : s.Inv) (w : List Nat) (j : Nat) : (scanOffset w j s).1.Inv := by
  unfold scanOffset
  split
  · split
    case h_1 r hr => exact acceptFrame_inv h (attempts_accepted hr) j
    case h_2 => exact h
  · exact h

theorem scanOffset_magLen (w : List Nat) (j : Nat) (s : State) : (scanOffset w j s).1.magLen = s.magLen := by
  unfold scanOffset
  split
  · split
    · simp [acceptFrame]
    · rfl
  · rfl

/-- A turn at an offset with a whole window left ends within that window. -/
theorem scanOffset_next_le (w : List Nat) (j : Nat) (s : State) : (scanOffset w j s).2 ≤ j + Config.win := by
  unfold scanOffset Config.win frameBits
  split
  · split
    · dsimp only
      split <;> omega
    · dsimp only
      omega
  · dsimp only
    omega

theorem scanLoop_inv (h : s.Inv) (w : List Nat) (len fuel j : Nat) : (scanLoop w len fuel j s).1.Inv := by
  induction fuel generalizing j s with
  | zero => exact h
  | succ fuel ih =>
    unfold scanLoop
    split
    · exact ih (scanOffset_inv h w j) _
    · exact h

theorem scanLoop_magLen (w : List Nat) (len fuel j : Nat) (s : State) :
    (scanLoop w len fuel j s).1.magLen = s.magLen := by
  induction fuel generalizing j s with
  | zero => rfl
  | succ fuel ih =>
    unfold scanLoop
    split
    · exact (ih ..).trans (scanOffset_magLen w j s)
    · rfl

/-- The loop never runs past the window's valid samples (43_detector R131). -/
theorem scanLoop_next_le (w : List Nat) {len j : Nat} (hj : j ≤ len) (fuel : Nat) (s : State) :
    (scanLoop w len fuel j s).2 ≤ len := by
  induction fuel generalizing j s with
  | zero => exact hj
  | succ fuel ih =>
    unfold scanLoop
    split
    case isTrue hwin => exact ih (Nat.le_trans (scanOffset_next_le w j s) hwin) _
    case isFalse => exact hj

theorem effectScan_inv (h : s.Inv) : (effectScan s).Inv := by
  have hloop := scanLoop_inv h s.samples s.magLen.toNat s.magLen.toNat s.scanPos.toNat
  have hpos : (effectScan s).scanPos.toNat ≤ (effectScan s).magLen.toNat := by
    simp only [effectScan, scanLoop_magLen, BitVec.toNat_ofNat]
    exact Nat.le_trans (Nat.mod_le ..) (scanLoop_next_le _ h.scanPosLe _ _)
  exact { hloop with
    scanPosLe := hpos
    pendingLegal := hloop.pendingLegal_of_eq rfl rfl rfl rfl }

/-! ### Every command -/

/-- The effect of a command that passed its checks. -/
theorem commandEffect_inv (h : s.Inv) {i : Instr} (hi : issueError i (ownCheck i s) s = none) :
    (commandEffect i s).Inv := by
  obtain ⟨-, -, hown⟩ := issueError_eq_none hi
  cases i with
  | nop => exact h
  | fft n => exact effectFft_inv h hown
  | fmdemod f => exact effectFmdemod_inv h hown
  | mag => exact effectMag_inv h hown
  | scan => exact effectScan_inv h
  | crc lsel => exact { h with pendingLegal := h.pendingLegal_of_eq rfl rfl rfl rfl }
  | decode => exact effectDecode_inv h
  | probe a => exact { h with pendingLegal := h.pendingLegal_of_eq rfl rfl rfl rfl }

theorem commandEffect_params (i : Instr) (s : State) : (commandEffect i s).params = s.params := by
  obtain ⟨-, -, -, -, -, -, hparams⟩ := commandEffect_sameHostInputs i s
  exact hparams

theorem exec_inv (h : s.Inv) {i : Instr} {t : State} (he : exec i s = .next t) : t.Inv ∧ t.params = s.params := by
  rw [exec_eq_runCommand] at he
  obtain ⟨-, rfl⟩ | ⟨-, e, hi, rfl⟩ | ⟨-, hi, rfl⟩ := runCommand_cases he
  · exact ⟨h.busError (by decide), rfl⟩
  · exact ⟨h.raise (issueError_ne_noError hi), rfl⟩
  · exact ⟨(commandEffect_inv (h.start hi) ((issueError_start i s _).trans hi)).complete, commandEffect_params i _⟩

theorem issue_inv (h : s.Inv) (i : Instr) : (issue i s).Inv ∧ (issue i s).params = s.params := by
  obtain ⟨-, ht⟩ | ⟨-, e, hi, ht⟩ | ⟨-, hi, ht⟩ := issue_cases i s <;> rw [ht]
  · exact ⟨h.busError (by decide), rfl⟩
  · exact ⟨h.raise (issueError_ne_noError hi), rfl⟩
  · exact ⟨h.start hi, rfl⟩

/-- The command in flight is the one that passed its checks. -/
theorem finish_inv (h : s.Inv) {t : State} (hf : finish s = .next t) : t.Inv ∧ t.params = s.params := by
  obtain ⟨-, rfl⟩ | ⟨w, i, hw, hdec, rfl⟩ := finish_cases hf
  · exact ⟨h, rfl⟩
  · obtain ⟨j, hdec', hj⟩ := h.pendingLegal w hw
    obtain rfl : i = j := Except.ok.inj (hdec.symm.trans hdec')
    exact ⟨(commandEffect_inv h hj).complete, commandEffect_params i s⟩

theorem sequencerTurn_inv (h : s.Inv) {t : State} (ht : sequencerTurn s = .next t) : t.Inv ∧ t.params = s.params := by
  cases hb : s.busy with
  | false =>
    rw [sequencerTurn_idle hb] at ht
    obtain rfl := Host.Outcome.next.inj ht
    exact ⟨h, rfl⟩
  | true =>
    rw [sequencerTurn_busy hb] at ht
    exact finish_inv h.redraw ht

end Sys2Proof.Machine
end

/-! ## Host accesses: their places, and the step that makes one -/

section
namespace Sys2Proof.Machine

/-! ### Places of the register space -/

/-- A whole-word access to a word offset is for what stands there. -/
theorem Access.place_of_word {a : Access} (p : Params) (hw : a.width = 32) (hl : a.kind = .write → a.lanes = 0xF)
    (ho : a.offset.toNat % 4 = 0) : a.place p = placeAt p a.offset.toNat := by
  have hl' : ¬ (a.kind = .write ∧ a.lanes ≠ 0xF) := fun ⟨hk, hne⟩ => hne (hl hk)
  rw [Access.place, if_neg (by simp [hw]), if_neg hl', if_neg (by simp [ho])]

theorem Access.place_some {a : Access} {p : Params} {q : Place} (h : a.place p = some q) :
    a.width = 32 ∧ ¬ (a.kind = .write ∧ a.lanes ≠ 0xF) ∧ a.offset.toNat % 4 = 0
      ∧ placeAt p a.offset.toNat = some q := by
  unfold Access.place at h
  simpa only [Option.ite_none_left_eq_some, ne_eq, Decidable.not_not] using h

theorem readOf_place {o : Nat} (p : Params) (ho : o < 2 ^ 32) (hmod : o % 4 = 0) :
    (readOf o).place p = placeAt p o := by
  have hoff : (readOf o).offset.toNat = o := Nat.mod_eq_of_lt ho
  rw [Access.place_of_word p rfl (by simp [readOf]) (by rw [hoff, hmod]), hoff]

theorem writeOf_place {o : Nat} (p : Params) (v : Word) (ho : o < 2 ^ 32) (hmod : o % 4 = 0) :
    (writeOf o v).place p = placeAt p o := by
  have hoff : (writeOf o v).offset.toNat = o := Nat.mod_eq_of_lt ho
  rw [Access.place_of_word p rfl (fun _ => rfl) (by rw [hoff, hmod]), hoff]

variable {p : Params} {o : Nat} {q : Place}

/-- `q` is what stands at the offset `o` (20_memory R50, R51). -/
def Place.standsAt (p : Params) (o : Nat) : Place → Prop
  | .reg r => regAt o = some r
  | .iq i => o = iqBase + i ∧ i < p.iqCap
  | .mag i => o = magBase + i ∧ i < 4 * p.magCap
  | .fft i => o = fftBase + i ∧ i < 16 * p.fftNmax
  | .audio i => o = audioBase + i ∧ i < 8 * p.audioCap

theorem standsAt_of_placeAt (h : placeAt p o = some q) : q.standsAt p o := by
  unfold placeAt at h
  repeat' split at h
  · obtain ⟨r, hr, rfl⟩ := Option.map_eq_some_iff.mp h
    exact hr
  all_goals cases h
  all_goals exact ⟨by omega, by omega⟩

/-- The windows' sizes within R1's bounds. -/
theorem Params.legal_sizes (h : p.legal) : p.iqCap ≤ 2 ^ 20 ∧ p.magCap = 239 + p.iqCap / 2
    ∧ p.fftNmax ≤ 2 ^ 16 ∧ p.audioCap = p.iqCap / 2 := by
  obtain ⟨⟨-, hiq⟩, ⟨r, -, hr, hfft⟩, -⟩ := h
  exact ⟨hiq, rfl, hfft ▸ Nat.pow_le_pow_right (by decide) hr, rfl⟩

/-- Within those bounds the windows do not overlap, so what stands at an offset is the place found there. -/
theorem placeAt_of_standsAt (hp : p.legal) (h : q.standsAt p o) : placeAt p o = some q := by
  obtain ⟨hiq, hmag, hfft, haudio⟩ := Params.legal_sizes hp
  unfold placeAt iqBase magBase fftBase audioBase
  cases q with
  | reg r =>
    obtain ⟨hlt, -⟩ := regAt_offset h
    rw [if_pos hlt, show regAt o = some r from h, Option.map_some]
  | iq i =>
    obtain ⟨rfl, hi⟩ := h
    unfold iqBase
    rw [if_neg (by omega), if_pos (by omega), Nat.add_sub_cancel_left]
  | mag i =>
    obtain ⟨rfl, hi⟩ := h
    unfold magBase
    rw [if_neg (by omega), if_neg (by omega), if_pos (by omega), Nat.add_sub_cancel_left]
  | fft i =>
    obtain ⟨rfl, hi⟩ := h
    unfold fftBase
    rw [if_neg (by omega), if_neg (by omega), if_neg (by omega), if_pos (by omega), Nat.add_sub_cancel_left]
  | audio i =>
    obtain ⟨rfl, hi⟩ := h
    unfold audioBase
    rw [if_neg (by omega), if_neg (by omega), if_neg (by omega), if_neg (by omega), if_pos (by omega),
      Nat.add_sub_cancel_left]

/-! ### The step that makes an access -/

/-- A host's turn is its access, after the bookkeeping of the turn. -/
theorem hostTurn_eq (held : Bool) (a : Access) (s : State) (rest : List Turn) :
    hostTurn held a { s with agenda := rest } = hostAccess held a (s.tookTurn rest a) := by
  by_cases h : a.kind = .read ∧ s.busy = false
  · have htook : s.tookTurn rest a = { s with agenda := rest } := by simp [State.tookTurn, h]
    exact htook ▸ if_pos h
  · have htook : s.tookTurn rest a = ({ s with agenda := rest } : State).redraw := by
      simp [State.tookTurn, State.redraw, h]
    exact htook ▸ if_neg h

section
variable {s : State} {rest : List Turn} {x : Turn} {a : Access} (ha : s.agenda = x :: rest) (hx : x.isAccess a)
include ha hx

/-- A step on which the host has the turn is its access. -/
theorem step_access : ∃ held, step s = hostAccess held a (s.tookTurn rest a) := by
  obtain rfl | rfl := hx
  · exact ⟨false, by rw [← hostTurn_eq]; simp [step, ha, takeTurn]⟩
  · exact ⟨true, by rw [← hostTurn_eq]; simp [step, ha, takeTurn]⟩

/-- An access without a place is refused with E_BUS (20_memory R56). -/
theorem step_refused_of_no_place (hp : a.place s.params = none) : step s = .next (s.refusedAccess rest a .bus) := by
  obtain ⟨held, hs⟩ := step_access ha hx
  simp only [hs, hostAccess, show a.place (s.tookTurn rest a).params = none from hp]
  rfl

theorem step_write_refused {e : ErrCode} (hk : a.kind = .write) (hp : a.place s.params = some q)
    (he : s.writeRefusal q = some e) :
    step s = .next (s.refusedAccess rest a e) := by
  obtain ⟨held, hs⟩ := step_access ha hx
  simp only [hs, hostAccess, show a.place (s.tookTurn rest a).params = some q from hp, hk,
    show (s.tookTurn rest a).writeRefusal q = some e from he]
  rfl

/-- An accepted write is answered with the word 0. -/
theorem step_write_accepted (hk : a.kind = .write) (hp : a.place s.params = some q) (he : s.writeRefusal q = none) :
    ∃ held, step s = writePlace held q a.data (s.answered rest a 0) := by
  obtain ⟨held, hs⟩ := step_access ha hx
  refine ⟨held, ?_⟩
  simp only [hs, hostAccess, show a.place (s.tookTurn rest a).params = some q from hp, hk,
    show (s.tookTurn rest a).writeRefusal q = none from he]
  rfl

end

end Sys2Proof.Machine
end

/-! ## The invariant through every step -/

section
namespace Sys2Proof.Machine

variable {s t : State}

theorem State.Inv.writeMode (h : s.Inv) (hb : s.busy = false) (v : Word) :
    (s.writeMode v).Inv ∧ (s.writeMode v).params = s.params := by
  have hpend := s.busy_eq_false_iff.mp hb
  unfold State.writeMode
  split
  · exact ⟨h.raise (by decide), rfl⟩
  · exact ⟨{ h with
      scanPosLe := Nat.le_refl 0
      magLenLe := Nat.zero_le _
      audioLenLe := Nat.zero_le _
      pendingLegal := fun w hw => nomatch hpend.symm.trans hw }, rfl⟩

/-- A word stored at a word offset of the IQ window; where IQ_CAP is no multiple of 4 the last word is whole
(log 10). -/
theorem State.Inv.putWord_iq (h : s.Inv) {i : Nat} (hi : i < s.params.iqCap) (hmod : i % 4 = 0) (v : Word) :
    (s.putBytes (iqBase + i) (bytesOfWord v)).Inv := by
  refine h.putBytes fun x hlo hhi => .inl ⟨by omega, ?_⟩
  rw [bytesOfWord_length] at hhi
  omega

theorem State.Inv.putWord_fft (h : s.Inv) {i : Nat} (hi : i < 16 * s.params.fftNmax) (hmod : i % 4 = 0) (v : Word) :
    (s.putBytes (fftBase + i) (bytesOfWord v)).Inv := by
  refine h.putBytes fun x hlo hhi => .inr (.inr (.inl ⟨by omega, ?_⟩))
  rw [bytesOfWord_length] at hhi
  omega

theorem issueWord_inv (h : s.Inv) {held : Bool} {v : Word} (hw : issueWord held v s = .next t) :
    t.Inv ∧ t.params = s.params := by
  unfold issueWord at hw
  split at hw
  · obtain rfl := Host.Outcome.next.inj hw
    exact ⟨h.raise (by decide), rfl⟩
  · split at hw
    · obtain rfl := Host.Outcome.next.inj hw
      exact issue_inv h _
    · exact exec_inv h hw

/-- A command runs only while STATUS alone is written. -/
theorem State.writeRefusal_eq_none {q : Place} (h : s.writeRefusal q = none) :
    q.readOnly = false ∧ (q = .reg .status ∨ s.busy = false) := by
  unfold State.writeRefusal at h
  split at h
  case isTrue => cases h
  case isFalse hro =>
    refine ⟨Bool.eq_false_iff.mpr hro, ?_⟩
    cases hb : s.busy with
    | false => exact .inr rfl
    | true => exact .inl (by simpa [hb] using h)

theorem writePlace_inv (h : s.Inv) {held : Bool} {q : Place} {o : Nat} {v : Word} (ho : o % 4 = 0)
    (hq : q.standsAt s.params o) (hok : s.writeRefusal q = none) (hw : writePlace held q v s = .next t) :
    t.Inv ∧ t.params = s.params := by
  obtain ⟨-, hidle⟩ := State.writeRefusal_eq_none hok
  cases q with
  | reg r =>
    cases r with
    | mode =>
      obtain rfl := Host.Outcome.next.inj hw
      exact h.writeMode (hidle.resolve_left (by decide)) v
    | status =>
      obtain rfl := Host.Outcome.next.inj hw
      exact ⟨h.writeStatus v, rfl⟩
    | cmd => exact issueWord_inv h hw
    | msgPop =>
      obtain rfl := Host.Outcome.next.inj hw
      exact ⟨h.popRecord, rfl⟩
    | iqLen =>
      have hpend := s.busy_eq_false_iff.mp (hidle.resolve_left (by decide))
      obtain rfl := Host.Outcome.next.inj hw
      exact ⟨{ h with pendingLegal := fun w hw => nomatch hpend.symm.trans hw }, rfl⟩
    | ctrl | now | frameIn k =>
      obtain rfl := Host.Outcome.next.inj hw
      exact ⟨{ h with pendingLegal := h.pendingLegal_of_eq rfl rfl rfl rfl }, rfl⟩
    | _ =>
      obtain rfl := Host.Outcome.next.inj hw
      exact ⟨h, rfl⟩
  | iq i =>
    obtain ⟨rfl, hi⟩ := hq
    obtain rfl := Host.Outcome.next.inj hw
    exact ⟨h.putWord_iq hi (by unfold iqBase at ho; omega) v, rfl⟩
  | fft i =>
    obtain ⟨rfl, hi⟩ := hq
    obtain rfl := Host.Outcome.next.inj hw
    exact ⟨h.putWord_fft hi (by unfold fftBase at ho; omega) v, rfl⟩
  | mag i | audio i =>
    obtain rfl := Host.Outcome.next.inj hw
    exact ⟨h, rfl⟩

theorem State.writeRefusal_ne_noError (s : State) (q : Place) : s.writeRefusal q ≠ some .noError := by
  unfold State.writeRefusal
  split
  · nofun
  · split
    · nofun
    · nofun

theorem hostAccess_inv (h : s.Inv) {held : Bool} {a : Access} (ht : hostAccess held a s = .next t) :
    t.Inv ∧ t.params = s.params := by
  obtain ⟨-, rfl⟩ | ⟨q, -, -, rfl⟩ | ⟨q, e, -, -, he, rfl⟩ | ⟨q, hq, -, hok, hw⟩ := hostAccess_cases ht
  · exact ⟨h.busError (by decide), rfl⟩
  · exact ⟨h.respond _, rfl⟩
  · exact ⟨h.busError fun hn => s.writeRefusal_ne_noError q (hn ▸ he), rfl⟩
  · obtain ⟨-, -, hmod, hplace⟩ := Access.place_some hq
    exact writePlace_inv (s := s.respond 0) (h.respond 0) hmod (standsAt_of_placeAt hplace) hok hw

theorem hostTurn_inv (h : s.Inv) {held : Bool} {a : Access} {rest : List Turn}
    (ht : hostTurn held a { s with agenda := rest } = .next t) : t.Inv ∧ t.params = s.params :=
  hostAccess_inv (s := s.tookTurn rest a) (h.tookTurn rest a) ((hostTurn_eq held a s rest).symm.trans ht)

theorem resetTurn_inv (h : s.Inv) : (resetTurn s).Inv :=
  { State.reset_inv with
    paramsLegal := h.paramsLegal
    memBacked := List.forall_mem_nil _
    cacheSlots := List.forall_mem_nil _
    magLenLe := Nat.zero_le _
    audioLenLe := Nat.zero_le _
    mqLength := Nat.zero_le _
    pendingLegal := fun _ hw => nomatch hw }

/-- Settles O52, by the cases of `step_cases`: each kind of turn keeps the invariant and the parameters. -/
theorem stepKeepsTheInvariant : Obligations.StepKeepsTheInvariant := by
  intro s t h hstep
  obtain ⟨-, -, rfl⟩ | ⟨-, -, ht⟩ | ⟨x, rest, -, ht⟩ := step_cases hstep
  · exact ⟨h, rfl⟩
  · exact sequencerTurn_inv h ht
  · have hrest : ({ s with agenda := rest } : State).Inv :=
      { h with pendingLegal := h.pendingLegal_of_eq rfl rfl rfl rfl }
    cases x with
    | host a | hostHeld a => exact hostTurn_inv h ht
    | sequencer => exact sequencerTurn_inv hrest ht
    | reset =>
      obtain rfl := Host.Outcome.next.inj ht
      exact ⟨resetTurn_inv hrest, rfl⟩

end Sys2Proof.Machine
end

/-! ## Refused accesses, and reads -/

section
namespace Sys2Proof.Machine

variable {p : Params} {o : Nat} {q : Place}

/-! ### The spec's lists of offsets as places -/

/-- Nothing stands at an unmapped offset (20_memory R55). -/
theorem placeAt_unmapped (hp : p.legal) (h : unmappedOffset p o) : placeAt p o = none := by
  obtain ⟨hiq, hmag, hfft, haudio⟩ := Params.legal_sizes hp
  have hregs : ∀ x ∈ regMap, x.1 ∉ [0x03C, 0x074, 0x078, 0x07C, 0x09C, 0x0B8, 0x0BC] ∧ x.1 < 0x0D0 := by decide
  refine Option.eq_none_iff_forall_ne_some.mpr fun q hq => ?_
  have hs := standsAt_of_placeAt hq
  unfold unmappedOffset at h
  cases q with
  | reg r =>
    obtain ⟨hnot, hlt⟩ := hregs _ (mem_regMap_of_regAt hs)
    have := h.resolve_left hnot
    omega
  | iq i | mag i | fft i | audio i =>
    obtain ⟨rfl, hi⟩ := hs
    simp only [iqBase, magBase, fftBase, audioBase, List.mem_cons, List.not_mem_nil, or_false] at h
    omega

/-- An offset of a list of registers is a word offset where a register of the list stands. -/
theorem exists_place_of_mem {P : Place → Prop} {l : List Nat} (hl : ∀ x ∈ l, ∃ r ∈ regAt x, P (.reg r))
    (h : o ∈ l) : ∃ q : Place, q.standsAt p o ∧ o % 4 = 0 ∧ P q := by
  obtain ⟨r, hr, hP⟩ := hl o h
  exact ⟨.reg r, hr, (regAt_offset hr).2, hP⟩

/-- A read-only offset is a word offset where something read-only stands. -/
theorem exists_place_of_readOnlyOffset (h : readOnlyOffset p o) :
    ∃ q : Place, q.standsAt p o ∧ o % 4 = 0 ∧ q.readOnly = true := by
  obtain h | h | h | ⟨hmod, hlo, hhi⟩ | ⟨hmod, hlo, hhi⟩ := h
  · exact exists_place_of_mem (by decide) h
  · exact exists_place_of_mem (by decide) h
  · exact exists_place_of_mem (by decide) h
  · exact ⟨.mag (o - magBase), ⟨by unfold magBase; omega, Nat.sub_lt_left_of_lt_add hlo hhi⟩, hmod, rfl⟩
  · exact ⟨.audio (o - audioBase), ⟨by unfold audioBase; omega, Nat.sub_lt_left_of_lt_add hlo hhi⟩, hmod, rfl⟩

/-- A writable offset is a word offset where something writable stands. -/
theorem exists_place_of_writableOffset (h : writableOffset p o) :
    ∃ q : Place, q.standsAt p o ∧ o % 4 = 0 ∧ q.readOnly = false := by
  obtain h | ⟨hmod, hlo, hhi⟩ | ⟨hmod, hlo, hhi⟩ := h
  · exact exists_place_of_mem (by decide) h
  · exact ⟨.iq (o - iqBase), ⟨by unfold iqBase; omega, Nat.sub_lt_left_of_lt_add hlo hhi⟩, hmod, rfl⟩
  · exact ⟨.fft (o - fftBase), ⟨by unfold fftBase; omega, Nat.sub_lt_left_of_lt_add hlo hhi⟩, hmod, rfl⟩

/-- An offset R64 (c) lists is a word offset of a place readable while a command runs. -/
theorem exists_place_of_readableBusyOffset (h : readableBusyOffset p o) :
    ∃ q : Place, q.standsAt p o ∧ o % 4 = 0 ∧ q.readableWhileBusy = true := by
  obtain h | ⟨hmod, hlo, hhi⟩ := h
  · exact exists_place_of_mem (by decide) h
  · exact ⟨.iq (o - iqBase), ⟨by unfold iqBase; omega, Nat.sub_lt_left_of_lt_add hlo hhi⟩, hmod, rfl⟩

theorem standsAt_lt (hp : p.legal) (h : q.standsAt p o) : o < 2 ^ 32 := by
  obtain ⟨hiq, hmag, hfft, haudio⟩ := Params.legal_sizes hp
  cases q with
  | reg r =>
    obtain ⟨hlt, -⟩ := regAt_offset h
    omega
  | iq i | mag i | fft i | audio i =>
    obtain ⟨rfl, hi⟩ := h
    simp only [iqBase, magBase, fftBase, audioBase]
    omega

/-- A whole-word read of an offset is for what stands there. -/
theorem readOf_place_of_standsAt (hp : p.legal) (h : q.standsAt p o) (hmod : o % 4 = 0) :
    (readOf o).place p = some q :=
  (readOf_place p (standsAt_lt hp h) hmod).trans (placeAt_of_standsAt hp h)

theorem writeOf_place_of_standsAt (hp : p.legal) (h : q.standsAt p o) (hmod : o % 4 = 0) (v : Word) :
    (writeOf o v).place p = some q :=
  (writeOf_place p v (standsAt_lt hp h) hmod).trans (placeAt_of_standsAt hp h)

theorem standsAt_status (h : (Place.reg .status).standsAt p o) : o = 0x018 := by
  have hmap : ∀ x ∈ regMap, x.2 = .status → x.1 = 0x018 := by decide
  exact hmap _ (mem_regMap_of_regAt h) rfl

/-! ### Refusals -/

/-- Settles O36: no place answers such an access. -/
theorem wrongAccessesAreRefused : Obligations.WrongAccessesAreRefused := by
  intro s rest x a hp ha hx hwrong
  refine step_refused_of_no_place ha hx (Option.eq_none_iff_forall_ne_some.mpr fun q hq => ?_)
  obtain ⟨hw, hl, hmod, hplace⟩ := Access.place_some hq
  obtain hw' | hl' | hmod' | hun := hwrong
  · exact hw' hw
  · exact hl hl'
  · exact hmod' hmod
  · exact nomatch (placeAt_unmapped hp hun).symm.trans hplace

/-- Settles O37: the list's offsets are read-only places, and CMD and MSG_POP are registers that read 0. -/
theorem readOnlyPlacesRefuseWrites : Obligations.ReadOnlyPlacesRefuseWrites := by
  intro s rest x o v hp ha
  refine ⟨fun hx ho => ?_, fun hx hb ho => ?_⟩
  · obtain ⟨q, hs, hmod, hro⟩ := exists_place_of_readOnlyOffset ho
    exact step_write_refused ha hx rfl (writeOf_place_of_standsAt hp hs hmod v) (by simp [State.writeRefusal, hro])
  · obtain rfl | rfl := ho
    · exact step_read_idle hb ha hx rfl (place_readOf_reg s.params (r := .cmd) rfl)
    · exact step_read_idle hb ha hx rfl (place_readOf_reg s.params (r := .msgPop) rfl)

/-! ### Reads -/

/-- The word of a place that R64 (c) lists, also while a command runs. -/
theorem placeWord_tookTurn_of_readable (s : State) (rest : List Turn) (a : Access) (off : Word)
    (hq : q.readableWhileBusy = true) : (s.tookTurn rest a).placeWord off q = s.windowWord off q := by
  simp only [State.placeWord, hq, Bool.not_true, Bool.and_false, Bool.false_eq_true, if_false]
  cases q with
  | reg r => rfl
  | iq i => rfl
  | mag i | fft i | audio i => exact nomatch hq

/-- STATUS is the one place whose word shows whether a command is in flight. -/
theorem windowWord_pending_none (s : State) (off : Word) (hs : q ≠ .reg .status) :
    ({ s with pending := none } : State).windowWord off q = s.windowWord off q := by
  cases q with
  | reg r =>
    cases r with
    | status => exact absurd rfl hs
    | _ => rfl
  | _ => rfl

/-- Settles O38: the listed offsets are writable, or readable, places. -/
theorem busyBlockRefusesWrites : Obligations.BusyBlockRefusesWrites := by
  intro s rest x o v hp hb ha
  refine ⟨fun hx ho hne => ?_, fun hx ho => ?_⟩
  · obtain ⟨q, hs, hmod, hro⟩ := exists_place_of_writableOffset ho
    have hq : q ≠ .reg .status := fun h => hne (standsAt_status (h ▸ hs))
    exact step_write_refused ha hx rfl (writeOf_place_of_standsAt hp hs hmod v)
      (by simp [State.writeRefusal, hro, hb, hq])
  · obtain ⟨q, hs, hmod, hread⟩ := exists_place_of_readableBusyOffset ho
    have hplace := readOf_place_of_standsAt hp hs hmod
    refine ⟨s.windowWord (readOf o).offset q, ?_, fun hne => ?_⟩
    · rw [step_read ha hx rfl hplace, placeWord_tookTurn_of_readable s rest (readOf o) _ hread]
    · have hq : q ≠ .reg .status := fun h => hne (standsAt_status (h ▸ hs))
      rw [step_read_idle (s := { s with pending := none }) rfl ha hx rfl hplace, windowWord_pending_none s _ hq]

/-- An idle block's answer to a read leaves every place's word as it was. -/
theorem windowWord_answered {s : State} {a : Access} (hb : s.busy = false) (hk : a.kind = .read) (v off : Word)
    (rest later : List Turn) (q : Place) :
    ({ s.answered rest a v with agenda := later } : State).windowWord off q = s.windowWord off q := by
  have hsame : { s.answered rest a v with agenda := later }
      = { s with agenda := later, resp := some { data := v, error := false } } := by
    simp [State.answered, State.tookTurn, hk, hb]
  rw [hsame]
  rfl

/-- Settles O39: a refused read is refused again, and an answered one leaves the word it read. -/
theorem readsHaveNoSideEffect : Obligations.ReadsHaveNoSideEffect := by
  refine ⟨fun s rest x a ha hx hk => ?_, fun s rest ha hb => ?_⟩
  · cases hp : a.place s.params with
    | none =>
      exact ⟨_, step_refused_of_no_place ha hx hp, rfl, fun hne => absurd rfl hne, fun _ =>
        ⟨_, step_refused_of_no_place (s := { s.refusedAccess rest a .bus with agenda := x :: rest }) rfl hx hp,
          rfl⟩⟩
    | some q =>
      cases hb : s.busy with
      | true => exact ⟨_, step_read ha hx hk hp, rfl, fun _ => ⟨rfl, rfl⟩, nofun⟩
      | false =>
        refine ⟨_, step_read_idle hb ha hx hk hp, rfl, fun _ => ⟨rfl, rfl⟩, fun _ => ⟨_, step_read_idle
          (s := { s.answered rest a (s.windowWord a.offset q) with agenda := x :: rest }) hb rfl hx hk hp, ?_⟩⟩
        rw [windowWord_answered hb hk]
        rfl
  · have hturn := sequencerTurn_idle (s := { s with agenda := rest }) hb
    simpa [step, ha, takeTurn] using hturn

end Sys2Proof.Machine
end

/-! ## The windows: words, elements and samples -/

section
namespace Sys2Proof.Machine

/-! ### The parts of a word -/

theorem extractLsb'_append_byte {n : Nat} (x : BitVec n) (b : Byte) (j : Nat) :
    (x ++ b).extractLsb' (8 + j) 8 = x.extractLsb' j 8 := by
  rw [BitVec.extractLsb'_append_eq_of_le (by omega), Nat.add_sub_cancel_left]

/-- The bytes of a buffer word, lowest offset lowest (20_memory R52). -/
theorem extractLsb'_word (s : State) (a : Nat) {i : Nat} (hi : i < 4) :
    (s.word a).extractLsb' (8 * i) 8 = s.byte (a + i) := by
  obtain rfl | rfl | rfl | rfl : i = 0 ∨ i = 1 ∨ i = 2 ∨ i = 3 := by omega
  · exact BitVec.extractLsb'_append_eq_right
  · exact (extractLsb'_append_byte _ _ 0).trans BitVec.extractLsb'_append_eq_right
  · exact (extractLsb'_append_byte _ _ 8).trans
      ((extractLsb'_append_byte _ _ 0).trans BitVec.extractLsb'_append_eq_right)
  · exact (extractLsb'_append_byte _ _ 16).trans
      ((extractLsb'_append_byte _ _ 8).trans BitVec.extractLsb'_append_eq_left)

theorem getElem_bytesOfWord (v : Word) {i : Nat} (hi : i < (bytesOfWord v).length) :
    (bytesOfWord v)[i] = v.extractLsb' (8 * i) 8 := by
  obtain rfl | rfl | rfl | rfl : i = 0 ∨ i = 1 ∨ i = 2 ∨ i = 3 := by rw [bytesOfWord_length] at hi; omega
  all_goals rfl

/-- The two words of a buffer value. -/
theorem extractLsb'_f64At (s : State) (a : Nat) {h : Nat} (hh : h < 2) :
    (s.f64At a).extractLsb' (32 * h) 32 = s.word (a + 4 * h) := by
  obtain rfl | rfl : h = 0 ∨ h = 1 := by omega
  · exact BitVec.extractLsb'_append_eq_right
  · exact BitVec.extractLsb'_append_eq_left

/-! ### Word writes -/

/-- What a word write of a place that stores its four bytes at `o` leaves. -/
theorem step_write_word {s : State} {rest : List Turn} {x : Turn} {o : Nat} {q : Place} {v : Word}
    (ha : s.agenda = x :: rest) (hx : x.isAccess (writeOf o v)) (hp : (writeOf o v).place s.params = some q)
    (hok : s.writeRefusal q = none)
    (hstore : ∀ held u, writePlace held q v u = .next (u.putBytes o (bytesOfWord v))) :
    ∃ t, step s = .next t ∧ (∀ i, i < 4 → t.byte (o + i) = v.extractLsb' (8 * i) 8)
      ∧ (∀ a, a < o ∨ o + 4 ≤ a → t.byte a = s.byte a)
      ∧ t = { s.answered rest (writeOf o v) 0 with mem := t.mem } := by
  obtain ⟨held, hs⟩ := step_write_accepted ha hx rfl hp hok
  refine ⟨_, hs.trans (hstore held _), fun i hi => ?_, fun a houtside => ?_, rfl⟩
  · exact (State.byte_put_inside _ o (bytesOfWord v) i hi).trans (getElem_bytesOfWord v hi)
  · exact State.byte_put_outside _ o (bytesOfWord v) a houtside

/-! ### The obligations -/

/-- Settles O40: the offset is a whole IQ place, read as a word and written as its four bytes. -/
theorem iqWindowHoldsItsBytes : Obligations.IqWindowHoldsItsBytes := by
  intro s rest x q v hp hb hq ha
  have hs : (Place.iq (4 * q)).standsAt s.params (0x0400000 + 4 * q) := ⟨rfl, hq⟩
  have hmod : (0x0400000 + 4 * q) % 4 = 0 := by omega
  refine ⟨fun hx => ⟨_, step_read_idle hb ha hx rfl (readOf_place_of_standsAt hp hs hmod), fun i hi => ?_⟩,
    fun hx => ?_⟩
  · exact extractLsb'_word s _ hi
  · exact step_write_word ha hx (writeOf_place_of_standsAt hp hs hmod v)
      (by simp [State.writeRefusal, Place.readOnly, hb]) (fun _ _ => rfl)

/-- An element of FX is the two values at its offset. -/
theorem State.fx_getElem? {s : State} (hm : s.mem.wf) {n k : Nat} {e : Cplx} (h : (s.fx n)[k]? = some e) :
    k < n ∧ e = ⟨s.f64At (fftBase + 16 * k), s.f64At (fftBase + 16 * k + 8)⟩ := by
  obtain ⟨hk, he⟩ := List.getElem?_eq_some_iff.mp h
  simp only [s.fx_eq_map hm, List.getElem_map, List.getElem_range'] at he
  exact ⟨by simpa [s.fx_length hm] using hk, he.symm⟩

/-- The word `h` of an element: the low and the high half of each part. -/
theorem word_of_element (s : State) (a : Nat) {h : Nat} (hh : h < 4) :
    (if h < 2 then s.f64At a else s.f64At (a + 8)).extractLsb' (32 * (h % 2)) 32 = s.word (a + 4 * h) := by
  have hpart : (if h < 2 then s.f64At a else s.f64At (a + 8)) = s.f64At (a + 8 * (h / 2)) := by
    obtain hlt | hge := Nat.lt_or_ge h 2
    · rw [if_pos hlt, show h / 2 = 0 by omega, Nat.mul_zero, Nat.add_zero]
    · rw [if_neg (by omega), show h / 2 = 1 by omega, Nat.mul_one]
  rw [hpart, extractLsb'_f64At s _ (Nat.mod_lt _ (by decide)),
    show a + 8 * (h / 2) + 4 * (h % 2) = a + 4 * h by omega]

/-- Settles O41: an element is the two values at its offset, and each of its four words is half of one of them. -/
theorem fftWindowShowsTheElements : Obligations.FftWindowShowsTheElements := by
  intro s rest x k h e v hp hb hm hh he ha
  obtain ⟨hk, rfl⟩ := State.fx_getElem? hm he
  have hs : (Place.fft (16 * k + 4 * h)).standsAt s.params (0x0C00000 + 16 * k + 4 * h) :=
    ⟨Nat.add_assoc .., by omega⟩
  have hmod : (0x0C00000 + 16 * k + 4 * h) % 4 = 0 := by omega
  refine ⟨fun hx => ?_, fun hx => ?_⟩
  · rw [step_read_idle hb ha hx rfl (readOf_place_of_standsAt hp hs hmod), word_of_element s _ hh, State.windowWord,
      Nat.add_assoc fftBase]
  · exact step_write_word ha hx (writeOf_place_of_standsAt hp hs hmod v)
      (by simp [State.writeRefusal, Place.readOnly, hb]) (fun _ _ => by rw [Nat.add_assoc]; rfl)

theorem State.samples_getElem? {s : State} (hm : s.mem.wf) {k y : Nat} (h : s.samples[k]? = some y) :
    k < s.magLen.toNat ∧ y = (s.sample k).toNat := by
  obtain ⟨hk, hy⟩ := List.getElem?_eq_some_iff.mp h
  simp only [s.samples_eq_map hm, List.getElem_map, List.getElem_range'] at hy
  exact ⟨s.samples_length hm ▸ hk, hy.symm⟩

theorem State.audio_getElem? {s : State} (hm : s.mem.wf) {n m : Nat} {y : F64} (h : (s.audio n)[m]? = some y) :
    m < n ∧ y = s.f64At (audioBase + 8 * m) := by
  obtain ⟨hk, hy⟩ := List.getElem?_eq_some_iff.mp h
  simp only [s.audio_eq_map hm, List.getElem_map, List.getElem_range'] at hy
  exact ⟨by simpa [s.audio_eq_map hm] using hk, hy.symm⟩

/-- A valid sample's window word is the sample, zero-extended (20_memory R60). -/
theorem windowWord_mag (s : State) (off : Word) {k : Nat} (hk : k < s.magLen.toNat) :
    s.windowWord off (.mag (4 * k)) = BitVec.ofNat 32 (s.sample k).toNat := by
  simp [State.windowWord, hk]

theorem windowWord_audio (s : State) (off : Word) {m h : Nat} (hm : m < s.audioLen.toNat) (hh : h < 2) :
    s.windowWord off (.audio (8 * m + 4 * h)) = (s.f64At (audioBase + 8 * m)).extractLsb' (32 * h) 32 := by
  have hdiv : (8 * m + 4 * h) / 8 = m := by omega
  rw [extractLsb'_f64At s _ hh, Nat.add_assoc]
  simp [State.windowWord, hdiv, hm]

/-- Settles O42: below MAG_LEN and AUDIO_LEN the window words are the samples of the index lemmas. -/
theorem magAndAudioWindowsShowTheirSamples : Obligations.MagAndAudioWindowsShowTheirSamples := by
  intro s rest x hp hb hm ha
  refine ⟨fun k hk hx => ?_, fun m h hlt hh hx => ?_⟩
  · have hs : (Place.mag (4 * k)).standsAt s.params (0x0800000 + 4 * k) :=
      ⟨rfl, Nat.mul_lt_mul_of_pos_left hk (by decide)⟩
    refine ⟨_, step_read_idle hb ha hx rfl (readOf_place_of_standsAt hp hs (by omega)), fun y hy => ?_⟩
    obtain ⟨hlen, rfl⟩ := State.samples_getElem? hm hy
    exact ⟨BitVec.isLt _, windowWord_mag s _ hlen⟩
  · have hs : (Place.audio (8 * m + 4 * h)).standsAt s.params (0x1000000 + 8 * m + 4 * h) :=
      ⟨Nat.add_assoc .., by unfold Params.audioCap; omega⟩
    refine ⟨_, step_read_idle hb ha hx rfl (readOf_place_of_standsAt hp hs (by omega)), fun y hy => ?_⟩
    obtain ⟨hlen, rfl⟩ := State.audio_getElem? hm hy
    exact windowWord_audio s _ hlen hh

end Sys2Proof.Machine
end

/-! ## Which words decode, and to what -/

section
namespace Sys2Proof

variable {v : Word} {i j : Instr}

/-! ### The word of a decoded command -/

/-- A word is its opcode and its operand field (30_encoding R70). -/
theorem wordOpcode_append_wordOperand (v : Word) : wordOpcode v ++ wordOperand v = v :=
  (BitVec.extractLsb'_append_extractLsb'_eq_extractLsb' rfl).trans BitVec.extractLsb'_eq_self

/-- A word is its opcode and the two parts of an operand field that is cut at bit `n` (30_encoding R72). -/
theorem append_three_fields {m k n : Nat} (x : BitVec (m + k + n)) :
    x.extractLsb' (n + k) m ++ x.extractLsb' n k ++ x.extractLsb' 0 n = x := by
  rw [BitVec.extractLsb'_append_extractLsb'_eq_extractLsb' rfl,
    BitVec.extractLsb'_append_extractLsb'_eq_extractLsb' (Nat.zero_add n).symm, BitVec.extractLsb'_eq_self]

theorem wordOpcode_eq_of_toNat {n : Nat} (h : (wordOpcode v).toNat = n) : wordOpcode v = BitVec.ofNat 8 n := by
  rw [← h, BitVec.ofNat_toNat, BitVec.setWidth_eq]

theorem decodeZ_eq_ok_iff : decodeZ i v = .ok j ↔ wordOperand v = 0#24 ∧ i = j := by
  by_cases hzero : wordOperand v = 0#24 <;> simp [decodeZ, hzero]

theorem decodeF_eq_ok_iff :
    decodeF v = .ok i ↔ v.extractLsb' 16 8 = 0#8 ∧ .fmdemod (v.extractLsb' 0 16) = i := by
  by_cases hzero : v.extractLsb' 16 8 = 0#8 <;> simp [decodeF, hzero]

theorem decodeL_eq_ok_iff :
    decodeL v = .ok i ↔ v.extractLsb' 2 22 = 0#22 ∧ v.extractLsb' 0 2 ≠ 3#2 ∧ .crc (v.extractLsb' 0 2) = i := by
  by_cases hzero : v.extractLsb' 2 22 = 0#22
  · by_cases hsel : v.extractLsb' 0 2 = 3#2 <;> simp [decodeL, hzero, hsel]
  · simp [decodeL, hzero]

/-- A format Z word is its opcode alone. -/
theorem word_of_decodeZ {n : Nat} (hop : (wordOpcode v).toNat = n) (h : decodeZ i v = .ok j) :
    i = j ∧ BitVec.ofNat 8 n ++ 0#24 = v := by
  obtain ⟨hzero, hij⟩ := decodeZ_eq_ok_iff.mp h
  refine ⟨hij, ?_⟩
  rw [← wordOpcode_eq_of_toNat hop, ← hzero, wordOpcode_append_wordOperand]

theorem encode_of_decodeF (hop : (wordOpcode v).toNat = 2) (h : decodeF v = .ok i) :
    encode i = v ∧ i.wellFormed = true := by
  obtain ⟨hzero, rfl⟩ := decodeF_eq_ok_iff.mp h
  refine ⟨?_, rfl⟩
  calc 0x02#8 ++ 0#8 ++ v.extractLsb' 0 16
      = wordOpcode v ++ v.extractLsb' 16 8 ++ v.extractLsb' 0 16 := by rw [wordOpcode_eq_of_toNat hop, hzero]
    _ = v := append_three_fields (m := 8) (k := 8) (n := 16) v

theorem encode_of_decodeL (hop : (wordOpcode v).toNat = 5) (h : decodeL v = .ok i) :
    encode i = v ∧ i.wellFormed = true := by
  obtain ⟨hzero, hlsel, rfl⟩ := decodeL_eq_ok_iff.mp h
  refine ⟨?_, by simpa [Instr.wellFormed] using hlsel⟩
  calc 0x05#8 ++ 0#22 ++ v.extractLsb' 0 2
      = wordOpcode v ++ v.extractLsb' 2 22 ++ v.extractLsb' 0 2 := by rw [wordOpcode_eq_of_toNat hop, hzero]
    _ = v := append_three_fields (m := 8) (k := 22) (n := 2) v

/-- A word that decodes is the word of its command, which is legal: by the arms of the opcode map (30_encoding R71). -/
theorem encode_of_decode (h : decode v = .ok i) : encode i = v ∧ i.wellFormed = true := by
  unfold decode at h
  split at h
  case h_1 | h_4 | h_5 | h_7 =>
    rename_i hop
    obtain ⟨rfl, hv⟩ := word_of_decodeZ hop h
    exact ⟨hv, rfl⟩
  case h_2 | h_8 =>
    rename_i hop
    obtain rfl := Except.ok.inj h
    refine ⟨?_, rfl⟩
    rw [encode, ← wordOpcode_append_wordOperand v, wordOperand_append, wordOpcode_eq_of_toNat hop]
  case h_3 hop => exact encode_of_decodeF hop h
  case h_6 hop => exact encode_of_decodeL hop h
  case h_9 => cases h

/-! ### The words that decode -/

theorem toNat_wordOpcode (v : Word) : (wordOpcode v).toNat = v.toNat / 2 ^ 24 := by
  rw [wordOpcode, BitVec.extractLsb'_toNat, Nat.shiftRight_eq_div_pow]
  omega

/-- When a field of a word is zero, in the plain arithmetic in which `illegalWord` writes R74. -/
theorem extractLsb'_eq_zero_iff (v : Word) (start len : Nat) :
    v.extractLsb' start len = 0 ↔ v.toNat % 2 ^ (start + len) / 2 ^ start = 0 := by
  rw [BitVec.toNat_eq, BitVec.extractLsb'_toNat, Nat.shiftRight_eq_div_pow, Nat.pow_add, Nat.mod_mul_right_div_self]
  rfl

theorem exists_decodeZ_iff : (∃ j, decodeZ i v = .ok j) ↔ v.toNat % 2 ^ 24 = 0 := by
  simpa [decodeZ_eq_ok_iff, wordOperand] using extractLsb'_eq_zero_iff v 0 24

theorem exists_decodeF_iff : (∃ j, decodeF v = .ok j) ↔ v.toNat % 2 ^ 24 / 2 ^ 16 = 0 := by
  simpa [decodeF_eq_ok_iff] using extractLsb'_eq_zero_iff v 16 8

theorem exists_decodeL_iff : (∃ j, decodeL v = .ok j) ↔ v.toNat % 2 ^ 24 / 4 = 0 ∧ v.toNat % 4 ≠ 3 := by
  have hsel : v.extractLsb' 0 2 = 3 ↔ v.toNat % 4 = 3 := by
    rw [BitVec.toNat_eq, BitVec.extractLsb'_toNat]
    rfl
  simpa [decodeL_eq_ok_iff, ← hsel] using fun _ => extractLsb'_eq_zero_iff v 2 22

end Sys2Proof

namespace Sys2Proof.Machine

/-- The words that R73 and R74 do not list are those that decode, opcode by opcode (30_encoding R75). -/
theorem exists_decode_iff {v : Word} : (∃ i, decode v = .ok i) ↔ ¬ illegalWord v := by
  unfold decode
  simp only [illegalWord, ← toNat_wordOpcode]
  split
  case h_1 hop | h_4 hop | h_5 hop | h_7 hop => simp [exists_decodeZ_iff, hop]
  case h_2 hop | h_8 hop => simp [hop]
  case h_3 hop => simp [exists_decodeF_iff, hop]
  case h_6 hop => simp [exists_decodeL_iff, hop]
  case h_9 =>
    have hop : 8 ≤ (wordOpcode v).toNat := by simp only [imp_false] at *; omega
    simp [hop]

theorem issueWord_illegal {v : Word} (h : illegalWord v) (held : Bool) (s : State) :
    issueWord held v s = .next (s.recorded .illegal) := by
  unfold issueWord
  split
  case h_1 => rfl
  case h_2 i hi => exact absurd h (exists_decode_iff.mp ⟨i, hi⟩)

theorem issueWord_command {v : Word} {i : Instr} (h : decode v = .ok i) (held : Bool) (s : State) :
    issueWord held v s = if held then .next (issue i s) else exec i s := by
  rw [issueWord, h]

/-! ### The step that writes CMD -/

/-- A host's turn that writes CMD: a `held` one leaves the command in flight, the other runs it (log 2). -/
def cmdTurn (held : Bool) (v : Word) : Turn := if held then .hostHeld (cmdWrite v) else .host (cmdWrite v)

theorem exists_cmdTurn_of_isAccess {x : Turn} {v : Word} (h : x.isAccess (cmdWrite v)) : ∃ held, x = cmdTurn held v := by
  obtain rfl | rfl := h
  · exact ⟨false, rfl⟩
  · exact ⟨true, rfl⟩

/-- On an idle block a write of CMD issues its word (45_system R170). -/
theorem step_cmdTurn {s : State} {rest : List Turn} {held : Bool} {v : Word} (hb : s.busy = false)
    (ha : s.agenda = cmdTurn held v :: rest) :
    step s = issueWord held v (s.answered rest (cmdWrite v) 0) := by
  have hturn : step s = hostTurn held (cmdWrite v) { s with agenda := rest } := by
    cases held <;> simp [step, ha, cmdTurn, takeTurn]
  have hplace : (cmdWrite v).place (s.tookTurn rest (cmdWrite v)).params = some (.reg .cmd) :=
    writeOf_place _ v (by decide) (by decide)
  have hok : (s.tookTurn rest (cmdWrite v)).writeRefusal (.reg .cmd) = none := by
    simp [State.writeRefusal, Place.readOnly, show (s.tookTurn rest (cmdWrite v)).busy = false from hb]
  rw [hturn, hostTurn_eq]
  simp only [hostAccess, hplace, show (cmdWrite v).kind = .write from rfl, hok]
  rfl

end Sys2Proof.Machine
end

/-! ## The statements of 30_encoding -/

section
namespace Sys2Proof.Machine

/-- Settles O1: by the command's constructor; CRC alone needs its well-formedness. -/
theorem decodeOfEncodeIsTheCommand : Obligations.DecodeOfEncodeIsTheCommand := fun _ => decode_encode

/-- Settles O2: by the opcode, the word put together again from its fields. -/
theorem encodeOfDecodeIsTheWord : Obligations.EncodeOfDecodeIsTheWord := fun _ _ => encode_of_decode

/-- Settles O3: each word is computed. -/
theorem specWordsDecode : Obligations.SpecWordsDecode := ⟨rfl, rfl, rfl, rfl, rfl, rfl, rfl, rfl⟩

/-- Settles O4: a write of CMD issues its word, and the words R73 and R74 list are those the decoder rejects. -/
theorem illegalWordsRaiseIllegal : Obligations.IllegalWordsRaiseIllegal := by
  intro s rest x v hb ha hx
  refine ⟨fun hbad => ?_, fun hgood => ?_⟩
  · obtain ⟨held, rfl⟩ := exists_cmdTurn_of_isAccess hx
    exact (step_cmdTurn hb ha).trans (issueWord_illegal hbad held _)
  · obtain ⟨i, hi⟩ := exists_decode_iff.mpr hgood
    refine ⟨i, hi, ?_, ?_⟩
    · rintro rfl
      exact (step_cmdTurn (held := false) hb ha).trans (issueWord_command hi false _)
    · rintro rfl
      exact (step_cmdTurn (held := true) hb ha).trans (issueWord_command hi true _)

end Sys2Proof.Machine
end

/-! ## The FFT length check -/

section
namespace Sys2Proof.Machine

variable {p : Params} {n : Nat}

theorem isPow2_iff : isPow2 n = true ↔ ∃ r, n = 2 ^ r := by
  simp only [isPow2, Bool.and_eq_true, bne_iff_ne, beq_iff_eq]
  constructor
  · rintro ⟨hne, hand⟩
    exact (Nat.and_sub_one_eq_zero_iff_isPowerOfTwo hne).mp hand
  · rintro ⟨r, rfl⟩
    have hne : 2 ^ r ≠ 0 := Nat.ne_of_gt (Nat.two_pow_pos r)
    exact ⟨hne, (Nat.and_sub_one_eq_zero_iff_isPowerOfTwo hne).mpr ⟨r, rfl⟩⟩

/-- The check passes the lengths of 40_spectral R90 and no other. -/
theorem checkFftSize_eq_none_iff : checkFftSize p n = none ↔ legalFftLen p n := by
  have hpass : checkFftSize p n = none ↔ 2 ≤ n ∧ isPow2 n = true ∧ n ≤ p.fftNmax := by
    simp only [checkFftSize, ite_eq_right_iff, reduceCtorEq, imp_false, Bool.or_eq_true, Bool.not_eq_true',
      decide_eq_true_eq, not_or, Nat.not_lt, Bool.not_eq_false, and_assoc]
  rw [hpass, isPow2_iff]
  constructor
  · rintro ⟨htwo, ⟨r, rfl⟩, hmax⟩
    exact ⟨r, Nat.pos_of_ne_zero (by rintro rfl; exact absurd htwo (by decide)), rfl, hmax⟩
  · rintro ⟨r, hr, rfl, hmax⟩
    exact ⟨Nat.one_lt_two_pow (Nat.ne_of_gt hr), ⟨r, rfl⟩, hmax⟩

theorem checkFftSize_of_not_legal (h : ¬ legalFftLen p n) : checkFftSize p n = some .fftSize := by
  rw [← checkFftSize_eq_none_iff, checkFftSize] at h
  rw [checkFftSize, if_pos (Decidable.byContradiction fun hpass => h (if_neg hpass))]

/-- FFT is permitted in every mode, so its length check is the one it can fail. -/
theorem issueError_fft (n : BitVec 24) (s : State) :
    issueError (.fft n) (ownCheck (.fft n) s) s = checkFftSize s.params n.toNat := rfl

/-- Settles O9: an illegal length fails the one check of FFT. -/
theorem fftRefusesIllegalLengths : Obligations.FftRefusesIllegalLengths := by
  intro n s hb hn
  rw [exec_eq_runCommand, runCommand_refused hb ((issueError_fft n s).trans (checkFftSize_of_not_legal hn))]
  rfl

end Sys2Proof.Machine
end

/-! ## Bit reversal -/

section
namespace Sys2Proof.Machine

theorem bitReverse_lt (r i : Nat) : bitReverse r i < 2 ^ r := by
  induction r generalizing i with
  | zero => exact Nat.one_pos
  | succ r ih =>
    have hlow := ih (i / 2)
    have hhigh : i % 2 * 2 ^ r ≤ 1 * 2 ^ r := Nat.mul_le_mul_right _ (by omega)
    simp only [bitReverse]
    omega

/-- Bit `b` of the reversed index is bit `r−1−b` of the index, and there is no bit from `r` on (40_spectral R91). -/
theorem testBit_bitReverse (r i b : Nat) :
    (bitReverse r i).testBit b = (decide (b < r) && i.testBit (r - 1 - b)) := by
  induction r generalizing i with
  | zero => simp [bitReverse]
  | succ r ih =>
    rw [bitReverse, Nat.mul_comm, Nat.testBit_two_pow_mul_add _ (bitReverse_lt r _)]
    obtain hlt | rfl | hgt := Nat.lt_trichotomy b r
    · have hsucc : r + 1 - 1 - b = r - 1 - b + 1 := by omega
      rw [if_pos hlt, ih, Nat.testBit_div_two, hsucc]
      simp [hlt, Nat.lt_succ_of_lt hlt]
    · simp [Nat.testBit_zero]
    · have hlow : (i % 2).testBit (b - r) = false :=
        Nat.testBit_lt_two_pow (Nat.lt_of_lt_of_le (Nat.mod_lt i (by decide)) (Nat.le_pow (by omega)))
      rw [if_neg (by omega), hlow, decide_eq_false (by omega), Bool.false_and]

theorem bitReverse_bitReverse {r i : Nat} (hi : i < 2 ^ r) : bitReverse r (bitReverse r i) = i := by
  refine Nat.eq_of_testBit_eq fun b => ?_
  rw [testBit_bitReverse, testBit_bitReverse]
  obtain hlt | hge := Nat.lt_or_ge b r
  · have hback : r - 1 - (r - 1 - b) = b := by omega
    have hmirror : r - 1 - b < r := by omega
    simp [hlt, hback, hmirror]
  · have hnone : i.testBit b = false :=
      Nat.testBit_lt_two_pow (Nat.lt_of_lt_of_le hi (Nat.pow_le_pow_right (by decide) hge))
    rw [hnone, decide_eq_false (by omega), Bool.false_and]

@[simp] theorem bitReversePermute_length (r : Nat) (xs : List Cplx) :
    (bitReversePermute r xs).length = xs.length := by
  simp [bitReversePermute]

theorem bitReversePermute_getElem? {r i : Nat} {xs : List Cplx} (hi : i < 2 ^ r) (hlen : xs.length = 2 ^ r) :
    (bitReversePermute r xs)[i]? = xs[bitReverse r i]? := by
  have hrev : bitReverse r i < xs.length := hlen ▸ bitReverse_lt r i
  simp [bitReversePermute, hlen, hi, List.getElem?_eq_getElem hrev]

/-- Settles O11: the bits of the reversed index are the index's own, mirrored, so mirroring them again restores it. -/
theorem fftPermutesByBitReversal : Obligations.FftPermutesByBitReversal := by
  intro r i xs hi hlen
  refine ⟨bitReverse_lt r i, fun b hb => ?_, bitReverse_bitReverse hi, bitReversePermute_getElem? hi hlen⟩
  rw [testBit_bitReverse, decide_eq_true hb, Bool.true_and]

end Sys2Proof.Machine
end

/-! ## The stages of the transform -/

section
namespace Sys2Proof.Machine

variable {wlen u t : Cplx} {xs : List Cplx} {h jj : Nat}

/-! ### One block -/

/-- Butterfly `jj` from the twiddle number `j` on combines the elements `jj` of both halves with the twiddle number
`j + jj`. -/
theorem butterflies_getElem? (j : Nat) {us ts : List Cplx} (hu : us[jj]? = some u) (ht : ts[jj]? = some t) :
    (butterflies wlen (rollingTwiddle wlen j) us ts).1[jj]?
        = some (cplxAdd u (cplxMul t (rollingTwiddle wlen (j + jj))))
      ∧ (butterflies wlen (rollingTwiddle wlen j) us ts).2[jj]?
        = some (cplxSub u (cplxMul t (rollingTwiddle wlen (j + jj)))) := by
  induction us generalizing j jj ts with
  | nil => simp at hu
  | cons u0 us ih =>
    cases ts with
    | nil => simp at ht
    | cons t0 ts =>
      cases jj with
      | zero =>
        obtain rfl : u0 = u := by simpa using hu
        obtain rfl : t0 = t := by simpa using ht
        simp [butterflies]
      | succ jj =>
        have hnext := ih (j + 1) (by simpa using hu) (by simpa using ht)
        rw [Nat.add_right_comm, Nat.add_assoc] at hnext
        simpa [butterflies, rollingTwiddle] using hnext

/-- A block's twiddle starts at 1. -/
theorem fftBlock_eq (wlen : Cplx) (h : Nat) (xs : List Cplx) :
    fftBlock wlen h xs = (butterflies wlen (rollingTwiddle wlen 0) (xs.take h) (xs.drop h)).1
      ++ (butterflies wlen (rollingTwiddle wlen 0) (xs.take h) (xs.drop h)).2 := rfl

/-- The two halves of a whole block give as many butterflies as each holds. -/
theorem blockButterflies_length (w : Cplx) (hlen : xs.length = 2 * h) :
    (butterflies wlen w (xs.take h) (xs.drop h)).1.length = h
      ∧ (butterflies wlen w (xs.take h) (xs.drop h)).2.length = h := by
  obtain ⟨h1, h2⟩ := butterflies_length wlen w (xs.take h) (xs.drop h)
  have hmin : min (xs.take h).length (xs.drop h).length = h := by
    rw [List.length_take, List.length_drop]
    omega
  exact ⟨h1.trans hmin, h2.trans hmin⟩

theorem fftBlock_length (hlen : xs.length = 2 * h) : (fftBlock wlen h xs).length = 2 * h := by
  obtain ⟨h1, h2⟩ := blockButterflies_length (wlen := wlen) (rollingTwiddle wlen 0) hlen
  rw [fftBlock_eq, List.length_append, h1, h2, Nat.two_mul]

/-- Butterfly `jj` of a block (40_spectral R93). -/
theorem fftBlock_getElem? (hlen : xs.length = 2 * h) (hj : jj < h) (hu : xs[jj]? = some u) (ht : xs[jj + h]? = some t) :
    (fftBlock wlen h xs)[jj]? = some (cplxAdd u (cplxMul t (rollingTwiddle wlen jj)))
      ∧ (fftBlock wlen h xs)[jj + h]? = some (cplxSub u (cplxMul t (rollingTwiddle wlen jj))) := by
  obtain ⟨h1, -⟩ := blockButterflies_length (wlen := wlen) (rollingTwiddle wlen 0) hlen
  obtain ⟨hadd, hsub⟩ := butterflies_getElem? (wlen := wlen) 0
    (us := xs.take h) (ts := xs.drop h) (by rw [List.getElem?_take_of_lt hj, hu])
    (by rw [List.getElem?_drop, Nat.add_comm, ht])
  rw [Nat.zero_add] at hadd hsub
  rw [fftBlock_eq]
  constructor
  · rw [List.getElem?_append_left (by omega), hadd]
  · rw [List.getElem?_append_right (by omega), h1, Nat.add_sub_cancel, hsub]

/-! ### The blocks of a stage -/

theorem fftBlocks_length {n : Nat} (hlen : xs.length = n * (2 * h)) : (fftBlocks wlen h n xs).length = xs.length := by
  induction n generalizing xs with
  | zero => rfl
  | succ n ih =>
    rw [Nat.succ_mul] at hlen
    have hhead : (xs.take (2 * h)).length = 2 * h := by rw [List.length_take]; omega
    have htail : (xs.drop (2 * h)).length = n * (2 * h) := by rw [List.length_drop]; omega
    rw [fftBlocks, List.length_append, fftBlock_length hhead, ih htail, htail]
    omega

/-- Block `b` of a stage is the block computed from the elements that stood there. -/
theorem fftBlocks_getElem? {n b i : Nat} (hlen : xs.length = n * (2 * h)) (hb : b < n) (hi : i < 2 * h) :
    (fftBlocks wlen h n xs)[b * (2 * h) + i]?
      = (fftBlock wlen h ((xs.drop (b * (2 * h))).take (2 * h)))[i]? := by
  induction n generalizing xs b with
  | zero => exact absurd hb (Nat.not_lt_zero b)
  | succ n ih =>
    rw [Nat.succ_mul] at hlen
    have hhead : (fftBlock wlen h (xs.take (2 * h))).length = 2 * h :=
      fftBlock_length (by rw [List.length_take]; omega)
    cases b with
    | zero =>
      rw [fftBlocks, List.getElem?_append_left (by omega)]
      simp
    | succ b =>
      have hnext := ih (xs := xs.drop (2 * h)) (b := b) (by rw [List.length_drop]; omega) (Nat.lt_of_succ_lt_succ hb)
      rw [List.drop_drop] at hnext
      have hskip : (b + 1) * (2 * h) + i = 2 * h + (b * (2 * h) + i) := by rw [Nat.succ_mul]; omega
      rw [fftBlocks, List.getElem?_append_right (by omega), hhead, hskip, Nat.add_sub_cancel_left, hnext,
        Nat.succ_mul b, Nat.add_comm (2 * h)]

/-- Butterfly `jj` of block `b`. -/
theorem fftBlocks_butterfly {n b : Nat} (hlen : xs.length = n * (2 * h)) (hb : b < n) (hj : jj < h)
    (hu : xs[b * (2 * h) + jj]? = some u) (ht : xs[b * (2 * h) + jj + h]? = some t) :
    (fftBlocks wlen h n xs)[b * (2 * h) + jj]? = some (cplxAdd u (cplxMul t (rollingTwiddle wlen jj)))
      ∧ (fftBlocks wlen h n xs)[b * (2 * h) + jj + h]? = some (cplxSub u (cplxMul t (rollingTwiddle wlen jj))) := by
  have hfit : b * (2 * h) + 2 * h ≤ xs.length := hlen ▸ Nat.succ_mul b _ ▸ Nat.mul_le_mul_right _ hb
  have hblock : ((xs.drop (b * (2 * h))).take (2 * h)).length = 2 * h := by
    rw [List.length_take, List.length_drop]
    omega
  rw [Nat.add_assoc] at ht ⊢
  rw [fftBlocks_getElem? hlen hb (by omega), fftBlocks_getElem? hlen hb (by omega)]
  refine fftBlock_getElem? hblock hj ?_ ?_
  · rw [List.getElem?_take_of_lt (by omega), List.getElem?_drop, hu]
  · rw [List.getElem?_take_of_lt (by omega), List.getElem?_drop, ht]

/-! ### The stages -/

variable {cos sin : F64 → F64} {r k : Nat}

/-- `2^r` elements are `2^(r−(k+1))` blocks of the stage of size `2^(k+1)`. -/
theorem stage_blocks (hk : k < r) : 2 ^ r = 2 ^ (r - (k + 1)) * (2 * 2 ^ k) := by
  rw [← Nat.pow_succ', ← Nat.pow_add, Nat.sub_add_cancel hk]

theorem fftStage_eq (hlen : xs.length = 2 ^ r) (hk : k < r) :
    fftStage cos sin xs k
      = fftBlocks (baseTwiddle cos sin (2 ^ (k + 1))) (2 ^ k) (2 ^ (r - (k + 1))) xs := by
  rw [fftStage, hlen, Nat.pow_div hk (by decide)]

theorem fftStage_length (hlen : xs.length = 2 ^ r) (hk : k < r) : (fftStage cos sin xs k).length = 2 ^ r := by
  rw [fftStage_eq hlen hk, fftBlocks_length (hlen.trans (stage_blocks hk)), hlen]

/-- Butterfly `jj` of block `b` of a stage (40_spectral R92, R93). -/
theorem fftStage_getElem? {b : Nat} (hlen : xs.length = 2 ^ r) (hk : k < r) (hb : b < 2 ^ (r - (k + 1)))
    (hj : jj < 2 ^ k) (hu : xs[b * 2 ^ (k + 1) + jj]? = some u) (ht : xs[b * 2 ^ (k + 1) + jj + 2 ^ k]? = some t) :
    (fftStage cos sin xs k)[b * 2 ^ (k + 1) + jj]?
        = some (cplxAdd u (cplxMul t (rollingTwiddle (baseTwiddle cos sin (2 ^ (k + 1))) jj)))
      ∧ (fftStage cos sin xs k)[b * 2 ^ (k + 1) + jj + 2 ^ k]?
        = some (cplxSub u (cplxMul t (rollingTwiddle (baseTwiddle cos sin (2 ^ (k + 1))) jj))) := by
  have hsize : 2 * 2 ^ k = 2 ^ (k + 1) := Nat.pow_succ'.symm
  rw [fftStage_eq hlen hk]
  rw [← hsize] at hu ht
  have hfly := fftBlocks_butterfly (wlen := baseTwiddle cos sin (2 ^ (k + 1))) (hlen.trans (stage_blocks hk))
    hb hj hu ht
  rwa [hsize] at hfly

/-- The elements after the first `k` stages of the transform. -/
def fftAfter (cos sin : F64 → F64) (r : Nat) (xs : List Cplx) (k : Nat) : List Cplx :=
  (List.range k).foldl (fftStage cos sin) (bitReversePermute r xs)

theorem fftAfter_succ (k : Nat) :
    fftAfter cos sin r xs (k + 1) = fftStage cos sin (fftAfter cos sin r xs k) k := by
  rw [fftAfter, List.range_succ, List.foldl_append]
  rfl

theorem fftAfter_length (hlen : xs.length = 2 ^ r) (hk : k ≤ r) : (fftAfter cos sin r xs k).length = 2 ^ r := by
  induction k with
  | zero => exact (bitReversePermute_length r xs).trans hlen
  | succ k ih => rw [fftAfter_succ, fftStage_length (ih (Nat.le_of_lt hk)) hk]

theorem fftTransform_length (hlen : xs.length = 2 ^ r) : (fftTransform cos sin r xs).length = 2 ^ r :=
  fftAfter_length hlen (Nat.le_refl r)

/-- Settles O10: the lists after each stage, each stage by its blocks and each block by its butterflies. -/
theorem fftBlockIsItsButterflies : Obligations.FftBlockIsItsButterflies := by
  refine ⟨fun cos sin r xs hlen => ⟨fftAfter cos sin r xs, rfl, rfl, fun k hk => ?_⟩, fun _ _ => ⟨rfl, rfl, rfl⟩⟩
  have hbefore : (fftAfter cos sin r xs k).length = 2 ^ r := fftAfter_length hlen (Nat.le_of_lt hk)
  rw [fftAfter_succ]
  exact ⟨fftStage_length hbefore hk, fun b jj u t hb hj hu ht => fftStage_getElem? hbefore hk hb hj hu ht⟩

end Sys2Proof.Machine
end

/-! ## FFT on the FX window -/

section
namespace Sys2Proof.Machine

/-! ### Stored elements read back -/

/-- In canonical form the bytes just stored read back. -/
theorem State.bytes_putBytes {s : State} (hm : s.mem.wf) (a : Nat) (bs : List Byte) :
    (s.putBytes a bs).bytes a bs.length = bs := by
  rw [State.bytes_eq_map _ (Memory.put_wf hm a bs)]
  refine List.ext_getElem (by simp) fun i _ hi => ?_
  simp [hi]

/-- A word is its four bytes (20_memory R52). -/
theorem append_bytesOfWord (v : Word) :
    v.extractLsb' 24 8 ++ v.extractLsb' 16 8 ++ v.extractLsb' 8 8 ++ v.extractLsb' 0 8 = v := by
  have hhigh : v.extractLsb' 24 8 ++ v.extractLsb' 16 8 = v.extractLsb' 16 16 :=
    BitVec.extractLsb'_append_extractLsb'_eq_extractLsb' rfl
  rw [hhigh]
  exact append_three_fields (m := 16) (k := 8) (n := 8) v

/-- A binary64 value is its two words, the low one first (20_memory R52). -/
theorem f64sOfBytes_bytesOfF64_append (v : F64) (bs : List Byte) :
    f64sOfBytes (bytesOfF64 v ++ bs) = v :: f64sOfBytes bs := by
  have hwords : v.extractLsb' 32 32 ++ v.extractLsb' 0 32 = v :=
    (BitVec.extractLsb'_append_extractLsb'_eq_extractLsb' rfl).trans BitVec.extractLsb'_eq_self
  simp only [bytesOfF64, bytesOfWord, List.cons_append, List.nil_append, f64sOfBytes]
  rw [append_bytes_eq_append_word, append_bytesOfWord, append_bytesOfWord, hwords]

theorem f64sOfBytes_bytesOfF64s (vs : List F64) : f64sOfBytes (bytesOfF64s vs) = vs := by
  induction vs with
  | nil => rfl
  | cons v vs ih => rw [bytesOfF64s, f64sOfBytes_bytesOfF64_append, ih]

theorem cplxOfF64s_f64sOfCplx (xs : List Cplx) : cplxOfF64s (f64sOfCplx xs) = xs := by
  induction xs with
  | nil => rfl
  | cons x xs ih => rw [f64sOfCplx, cplxOfF64s, ih]

theorem bytesOfFx_length (xs : List Cplx) : (bytesOfF64s (f64sOfCplx xs)).length = 16 * xs.length := by
  rw [bytesOfF64s_length, f64sOfCplx_length]
  omega

/-- Elements stored in FX read back (20_memory R61). -/
theorem State.fx_putFx {s : State} (hm : s.mem.wf) {xs : List Cplx} {n : Nat} (hlen : xs.length = n) :
    (s.putFx xs).fx n = xs := by
  rw [State.fx, State.putFx, ← hlen, ← bytesOfFx_length, State.bytes_putBytes hm, f64sOfBytes_bytesOfF64s,
    cplxOfF64s_f64sOfCplx]

/-- Storing `n` elements in FX leaves every byte outside them. -/
theorem State.byte_putFx_outside (s : State) {xs : List Cplx} {n a : Nat} (hlen : xs.length = n)
    (ha : a < fftBase ∨ fftBase + 16 * n ≤ a) : (s.putFx xs).byte a = s.byte a :=
  s.byte_put_outside _ _ a (by rwa [bytesOfFx_length, hlen])

/-! ### The command -/

/-- FFT of a legal length stores the transform and sets DONE (40_spectral R90, R94). -/
theorem exec_fft {s : State} {n : BitVec 24} {r : Nat} (hb : s.busy = false) (hr : 1 ≤ r) (hn : n.toNat = 2 ^ r)
    (hmax : n.toNat ≤ s.params.fftNmax) :
    exec (.fft n) s = .next { s.putFx (fftTransform f64Cos f64Sin r (s.fx n.toNat)) with done := true } := by
  have hlog : n.toNat.log2 = r := by rw [hn, Nat.log2_two_pow]
  have hlegal : legalFftLen s.params n.toNat := ⟨r, hr, hn, hmax⟩
  have hdone : (commandEffect (.fft n) (s.start (encode (.fft n)))).complete
      = { effectFft n s with pending := none, done := true } := rfl
  rw [exec_eq_runCommand, runCommand_accepted hb ((issueError_fft n s).trans (checkFftSize_eq_none_iff.mpr hlegal)),
    hdone, ← s.busy_eq_false_iff.mp hb, effectFft, hlog]
  rfl

/-- Settles O8: the transform is as long as the input, so storing it replaces those elements and no other byte. -/
theorem fftTransformsItsElements : Obligations.FftTransformsItsElements := by
  intro n r s hb hm hr hn hmax
  have hlen : (fftTransform f64Cos f64Sin r (s.fx n.toNat)).length = n.toNat :=
    (fftTransform_length ((s.fx_length hm _).trans hn)).trans hn.symm
  exact ⟨_, exec_fft hb hr hn hmax, State.fx_putFx hm hlen, fun a ha => s.byte_putFx_outside hlen ha, rfl⟩

end Sys2Proof.Machine
end

/-! ## The argument checks of FMDEMOD and MAG -/

section
namespace Sys2Proof.Machine

variable {s : State}

/-- The block length check passes the lengths of 41_demod R100 and no other. -/
theorem checkIqLen_eq_none_iff : checkIqLen s = none ↔ legalIqLen s.params s.iqLen := by
  refine ⟨checkIqLen_eq_none, fun ⟨heven, hcap⟩ => ?_⟩
  simp [checkIqLen, heven, hcap]

theorem checkIqLen_of_not_legal (h : ¬ legalIqLen s.params s.iqLen) : checkIqLen s = some .iqLen := by
  cases hcheck : checkIqLen s with
  | none => exact absurd (checkIqLen_eq_none_iff.mp hcheck) h
  | some e => rw [checkIqLen_eq_some hcheck]

theorem checkFmdemod_of_legal (f : BitVec 16) (h : legalIqLen s.params s.iqLen) :
    checkFmdemod f s = if f = 0 then some .decim else none := by
  rw [checkFmdemod, checkIqLen_eq_none_iff.mpr h]

/-- The block length is checked before the decimation factor (41_demod R100). -/
theorem checkFmdemod_of_not_legal (f : BitVec 16) (h : ¬ legalIqLen s.params s.iqLen) :
    checkFmdemod f s = some .iqLen := by
  rw [checkFmdemod, checkIqLen_of_not_legal h]

/-- A legal command in a mode that permits it can fail its own check only (45_system R170). -/
theorem issueError_of_permitted {i : Instr} (hwf : i.wellFormed = true) (hmode : permitted i s.mode = true)
    (own : Option ErrCode) : issueError i own s = own := by
  simp [issueError, hwf, hmode]

theorem issueError_fmdemod (f : BitVec 16) (hmode : s.mode = .fm) :
    issueError (.fmdemod f) (ownCheck (.fmdemod f) s) s = checkFmdemod f s :=
  issueError_of_permitted rfl (by rw [hmode]; rfl) _

theorem issueError_mag (hmode : s.mode = .surv) : issueError .mag (ownCheck .mag s) s = checkIqLen s :=
  issueError_of_permitted rfl (by rw [hmode]; rfl) _

/-- A command that fails a check on an idle block records the check's error and nothing else (45_system R170). -/
theorem exec_refused {i : Instr} {e : ErrCode} (hb : s.busy = false)
    (he : issueError i (ownCheck i s) s = some e) : exec i s = .next (s.recorded e) :=
  (exec_eq_runCommand i s).trans (runCommand_refused hb he)

/-- Settles O15: in its own mode each command's argument check is the one it can fail. -/
theorem blockCommandsCheckTheirArguments : Obligations.BlockCommandsCheckTheirArguments := by
  refine fun s hb => ⟨fun f hmode hlen => ?_, fun hmode hlen => ?_, fun hmode hlen => ?_⟩
  · exact exec_refused hb ((issueError_fmdemod f hmode).trans (checkFmdemod_of_not_legal f hlen))
  · exact exec_refused hb ((issueError_fmdemod 0 hmode).trans (checkFmdemod_of_legal 0 hlen))
  · exact exec_refused hb ((issueError_mag hmode).trans (checkIqLen_of_not_legal hlen))

end Sys2Proof.Machine
end

/-! ## The boxcar decimator -/

section
namespace Sys2Proof.Machine

/-- Output `m` is the mean of the `m`-th group of `f` differences (41_demod R104). -/
theorem boxcar_getElem? {f n m : Nat} (hm : m < n) (ds : List F64) :
    (boxcar f n ds)[m]? = some (f64Div (((ds.drop (m * f)).take f).foldl f64Add 0) (f64OfNat f)) := by
  induction n generalizing m ds with
  | zero => exact absurd hm (Nat.not_lt_zero m)
  | succ n ih =>
    cases m with
    | zero => simp [boxcar]
    | succ m =>
      rw [boxcar, List.getElem?_cons_succ, ih (Nat.lt_of_succ_lt_succ hm), List.drop_drop, Nat.succ_mul,
        Nat.add_comm f]

/-- Settles O14: output `m` is the first one of the outputs left after `m` groups of `F` differences. -/
theorem boxcarDividesOrderedSums : Obligations.BoxcarDividesOrderedSums :=
  fun f n ds => ⟨boxcar_length f n ds, fun _ hm => boxcar_getElem? hm ds⟩

end Sys2Proof.Machine
end

/-! ## The FM discriminator -/

section
namespace Sys2Proof.Machine

variable {atan2 : F64 → F64 → F64}

@[simp] theorem phaseDiffs_length (last : F64) (ps : List (Byte × Byte)) :
    (phaseDiffs atan2 last ps).1.length = ps.length := by
  induction ps generalizing last with
  | nil => rfl
  | cons p ps ih => simp [phaseDiffs, ih]

/-- Difference `k` is pair `k`'s phase less the phase before it, the carried one for the first pair (41_demod R102). -/
theorem phaseDiffs_getElem? {ps : List (Byte × Byte)} {k : Nat} {p : Byte × Byte} (hp : ps[k]? = some p) (last : F64) :
    (phaseDiffs atan2 last ps).1[k]?
      = some (wrapPhase (f64Sub (pairPhase atan2 p) (((last :: ps.map (pairPhase atan2))[k]?).getD 0))) := by
  induction ps generalizing last k with
  | nil => simp at hp
  | cons q ps ih =>
    cases k with
    | zero =>
      obtain rfl : q = p := by simpa using hp
      simp [phaseDiffs]
    | succ k => simpa [phaseDiffs] using ih (by simpa using hp) (pairPhase atan2 q)

/-- The last phase after a block is its last pair's, or the carried one when it has no pair (41_demod R103). -/
theorem phaseDiffs_snd (last : F64) (ps : List (Byte × Byte)) :
    (phaseDiffs atan2 last ps).2 = ((ps.map (pairPhase atan2)).getLast?).getD last := by
  induction ps generalizing last with
  | nil => rfl
  | cons p ps ih => rw [phaseDiffs, ih, List.map_cons, List.getLast?_cons, Option.getD_some]

/-- Settles O13: the phase and the wrap written out are the model's own; the differences go by the place of the pair. -/
theorem fmDifferencesFollowThePhases : Obligations.FmDifferencesFollowThePhases := fun _ last ps =>
  ⟨fun _ => rfl, phaseDiffs_length last ps, fun _ _ hp => phaseDiffs_getElem? hp last, phaseDiffs_snd last ps⟩

end Sys2Proof.Machine
end

/-! ## FMDEMOD on the IQ and AUDIO windows -/

section
namespace Sys2Proof.Machine

variable {s : State}

/-! ### The pairs of a block -/

/-- Bytes taken two by two are the pairs at every second offset. -/
theorem pairsOfBytes_map_range' (f : Nat → Byte) (a n : Nat) :
    pairsOfBytes ((List.range' a (2 * n)).map f) = (List.range' a n 2).map (fun x => (f x, f (x + 1))) := by
  induction n generalizing a with
  | zero => rfl
  | succ n ih => simp [Nat.mul_succ, List.range'_succ, pairsOfBytes, ih]

/-- In canonical form the pairs of a legal block are the bytes at even offsets, each with the next (10_state R35). -/
theorem State.iqPairs_eq_map (hm : s.mem.wf) (hlen : legalIqLen s.params s.iqLen) :
    s.iqPairs = (List.range' iqBase (s.iqLen.toNat / 2) 2).map (fun x => (s.byte x, s.byte (x + 1))) := by
  obtain ⟨heven, -⟩ := hlen
  rw [State.iqPairs, State.bytes_eq_map s hm, ← pairsOfBytes_map_range',
    Nat.mul_div_cancel' (Nat.dvd_of_mod_eq_zero heven)]

theorem State.iqPairs_getElem? (hm : s.mem.wf) (hlen : legalIqLen s.params s.iqLen) {k : Nat}
    (hk : k < s.iqLen.toNat / 2) :
    s.iqPairs[k]? = some (s.byte (iqBase + 2 * k), s.byte (iqBase + (2 * k + 1))) := by
  simp [State.iqPairs_eq_map hm hlen, hk, Nat.add_assoc]

/-! ### Stored audio read back -/

/-- Samples stored in AU read back (20_memory R62). -/
theorem State.audio_putAudio (hm : s.mem.wf) {vs : List F64} {n : Nat} (hlen : vs.length = n) :
    (s.putAudio vs).audio n = vs := by
  rw [State.audio, State.putAudio, ← hlen, ← bytesOfF64s_length, State.bytes_putBytes hm, f64sOfBytes_bytesOfF64s]

/-- Storing `n` samples in AU leaves every byte outside them. -/
theorem State.byte_putAudio_outside (s : State) {vs : List F64} {n a : Nat} (hlen : vs.length = n)
    (ha : a < audioBase ∨ audioBase + 8 * n ≤ a) : (s.putAudio vs).byte a = s.byte a :=
  s.byte_put_outside _ _ a (by rwa [bytesOfF64s_length, hlen])

/-! ### The command -/

/-- How many samples FMDEMOD makes of a block (41_demod R104). -/
def State.audioCount (s : State) (f : BitVec 16) : Nat := s.iqLen.toNat / 2 / f.toNat

/-- The samples FMDEMOD makes of a block (41_demod R101–R104). -/
def State.demodulated (s : State) (f : BitVec 16) : List F64 :=
  boxcar f.toNat (s.audioCount f) (phaseDiffs f64Atan2 s.lastPhase s.iqPairs).1

theorem State.demodulated_length (s : State) (f : BitVec 16) : (s.demodulated f).length = s.audioCount f :=
  boxcar_length ..

/-- There are no more samples than bytes, so AUDIO_LEN holds their number. -/
theorem State.toNat_audioCount (s : State) (f : BitVec 16) :
    (BitVec.ofNat 32 (s.audioCount f)).toNat = s.audioCount f := by
  have hle : s.audioCount f ≤ s.iqLen.toNat := Nat.le_trans (Nat.div_le_self ..) (Nat.div_le_self ..)
  rw [BitVec.toNat_ofNat, Nat.mod_eq_of_lt (Nat.lt_of_le_of_lt hle s.iqLen.isLt)]

/-- FMDEMOD's effect through the named samples, their number and the last pair's phase. -/
theorem effectFmdemod_eq (f : BitVec 16) (s : State) :
    effectFmdemod f s = { s.putAudio (s.demodulated f) with
      audioLen := BitVec.ofNat 32 (s.audioCount f)
      lastPhase := ((s.iqPairs.map (pairPhase f64Atan2)).getLast?).getD s.lastPhase } := by
  rw [← phaseDiffs_snd, State.demodulated, State.audioCount, ← s.iqPairs_length]
  rfl

/-- FMDEMOD with legal arguments in mode FM has its effect and sets DONE (41_demod R100, R105). -/
theorem exec_fmdemod {f : BitVec 16} (hb : s.busy = false) (hmode : s.mode = .fm)
    (hlen : legalIqLen s.params s.iqLen) (hf : f ≠ 0) :
    exec (.fmdemod f) s = .next { effectFmdemod f s with done := true } := by
  have hpass : issueError (.fmdemod f) (ownCheck (.fmdemod f) s) s = none :=
    (issueError_fmdemod f hmode).trans ((checkFmdemod_of_legal f hlen).trans (if_neg hf))
  have hdone : (commandEffect (.fmdemod f) (s.start (encode (.fmdemod f)))).complete
      = { effectFmdemod f s with pending := none, done := true } := rfl
  rw [exec_eq_runCommand, runCommand_accepted hb hpass, hdone, ← s.busy_eq_false_iff.mp hb]
  rfl

/-- Settles O12: the effect stores exactly the samples it counts, so they read back and no other byte changes. -/
theorem fmdemodWritesTheAudio : Obligations.FmdemodWritesTheAudio := by
  intro f s hb hmode hlen hf hm
  have hcount := s.toNat_audioCount f
  have hsamples := s.demodulated_length f
  refine ⟨_, exec_fmdemod hb hmode hlen hf, s.iqPairs_length, fun k hk => State.iqPairs_getElem? hm hlen hk, ?_⟩
  rw [effectFmdemod_eq, hcount]
  exact ⟨rfl, State.audio_putAudio hm hsamples, rfl, fun a ha => s.byte_putAudio_outside hsamples ha, rfl⟩

end Sys2Proof.Machine
end

/-! ## The magnitude table -/

section
namespace Sys2Proof.Machine

variable {p : Params}

/-! ### The integer square root -/

/-- From a part `r` whose missing bits are below `2^k`, the bit search ends at the integer square root. -/
theorem isqrtFrom_spec {n : Nat} (k : Nat) {r : Nat} (hlow : r * r ≤ n) (hhigh : n < (r + 2 ^ k) * (r + 2 ^ k)) :
    isqrtFrom n k r * isqrtFrom n k r ≤ n ∧ n < (isqrtFrom n k r + 1) * (isqrtFrom n k r + 1) := by
  induction k generalizing r with
  | zero => exact ⟨hlow, hhigh⟩
  | succ k ih =>
    rw [Nat.pow_succ, Nat.mul_two, ← Nat.add_assoc] at hhigh
    rw [isqrtFrom]
    split
    case isTrue hbit => exact ih hbit hhigh
    case isFalse hbit => exact ih hlow (Nat.lt_of_not_le hbit)

theorem isqrt_spec {n : Nat} (hn : n < 2 ^ 40) : isqrt n * isqrt n ≤ n ∧ n < (isqrt n + 1) * (isqrt n + 1) :=
  isqrtFrom_spec 20 (Nat.zero_le n) (by omega)

theorem isqrt_lt_of_lt_mul_self {n k : Nat} (hn : n < 2 ^ 40) (hk : n < k * k) : isqrt n < k := by
  obtain ⟨hlow, -⟩ := isqrt_spec hn
  exact Nat.lt_of_not_le fun hle => Nat.not_le_of_lt hk (Nat.le_trans (Nat.mul_le_mul hle hle) hlow)

/-- Half the integer root of `n`, rounded up, is the number nearest to `√n / 2`: `2m − 1 ≤ √n < 2m + 1`, squared
(42_magnitude R110). -/
theorem half_isqrt_rounds {n m : Nat} (hn : n < 2 ^ 40) (hm : m = (isqrt n + 1) / 2) :
    n < (2 * m + 1) * (2 * m + 1) ∧ (2 * m - 1) * (2 * m - 1) ≤ n := by
  obtain ⟨hlow, hhigh⟩ := isqrt_spec hn
  have hup : isqrt n + 1 ≤ 2 * m + 1 := by omega
  have hdown : 2 * m - 1 ≤ isqrt n := by omega
  exact ⟨Nat.lt_of_lt_of_le hhigh (Nat.mul_le_mul hup hup), Nat.le_trans (Nat.mul_le_mul hdown hdown) hlow⟩

/-! ### The entries -/

/-- The square of twice the scaled root that an entry rounds (42_magnitude R110). -/
def magSquare (p : Params) (a b : Nat) : Nat := 4 * (a * a + b * b) * (p.magScale * p.magScale)

/-- At distances up to 128 the square grows with the scale alone. -/
theorem magSquare_le {a b c : Nat} (ha : a ≤ 128) (hb : b ≤ 128) (hc : p.magScale ≤ c) :
    magSquare p a b ≤ 131072 * (c * c) := by
  have haa := Nat.mul_le_mul ha ha
  have hbb := Nat.mul_le_mul hb hb
  exact Nat.mul_le_mul (by omega) (Nat.mul_le_mul hc hc)

theorem Params.magScale_le (h : p.legal) : p.magScale ≤ 362 := by
  obtain ⟨-, -, -, -, ⟨-, hscale⟩, -⟩ := h
  exact hscale

/-- At the bounds of R1 the square is within the 40 bits the bit search covers. -/
theorem magSquare_lt (hp : p.legal) {a b : Nat} (ha : a ≤ 128) (hb : b ≤ 128) : magSquare p a b < 2 ^ 40 := by
  have hsquare := magSquare_le ha hb (Params.magScale_le hp)
  omega

theorem magLut_eq (p : Params) (a b : Nat) : magLut p a b = (isqrt (magSquare p a b) + 1) / 2 := rfl

/-- An entry is at most `m` where `2m + 1` is past the root of the largest square at the scale. -/
theorem magLut_le (hp : p.legal) {a b c m : Nat} (ha : a ≤ 128) (hb : b ≤ 128) (hc : p.magScale ≤ c)
    (hm : 131072 * (c * c) < (2 * m + 1) * (2 * m + 1)) : magLut p a b ≤ m := by
  have hroot := isqrt_lt_of_lt_mul_self (magSquare_lt hp ha hb) (Nat.lt_of_le_of_lt (magSquare_le ha hb hc) hm)
  rw [magLut_eq]
  omega

theorem magLut_lt (hp : p.legal) {a b : Nat} (ha : a ≤ 128) (hb : b ≤ 128) : magLut p a b < 2 ^ 16 :=
  Nat.lt_of_le_of_lt (magLut_le (m := 65529) hp ha hb (Params.magScale_le hp) (by decide)) (by decide)

/-! ### The lookup -/

theorem axis_eq_natAbs (p : Params) (x : Byte) : axis p x = ((x.toNat : Int) - (p.magCenter : Int)).natAbs := by
  unfold axis
  omega

/-- With the centre at 127 or 128 a byte is at most 128 away from it (42_magnitude R111). -/
theorem axis_le (hp : p.legal) (x : Byte) : axis p x ≤ 128 := by
  obtain ⟨-, -, -, hcenter, -⟩ := hp
  have hbyte := x.isLt
  unfold axis
  omega

theorem pairMag_lt (hp : p.legal) (x : Byte × Byte) : pairMag p x < 2 ^ 16 :=
  magLut_lt hp (axis_le hp x.1) (axis_le hp x.2)

/-- Settles O17: an entry is the halved root of its square; its bounds hold by the largest square at the scale. -/
theorem magnitudeIsTheRoundedRoot : Obligations.MagnitudeIsTheRoundedRoot := by
  refine fun p hp => ⟨fun x => ?_, fun a b ha hb => ?_⟩
  · rw [← axis_eq_natAbs, ← axis_eq_natAbs]
    exact ⟨axis_le hp x.1, axis_le hp x.2, rfl⟩
  · obtain ⟨hup, hdown⟩ := half_isqrt_rounds (magSquare_lt hp ha hb) (magLut_eq p a b)
    exact ⟨hup, .inr hdown, magLut_lt hp ha hb,
      fun hscale => magLut_le hp ha hb (Nat.le_of_eq hscale) (by decide)⟩

end Sys2Proof.Machine
end

/-! ## MAG on the MAG window -/

section
namespace Sys2Proof.Machine

variable {s : State}

/-! ### Stored samples read back -/

/-- A sample's word holds its 16 bits in the two low bytes (20_memory R60). -/
theorem toNat_low_bytes_of_sample {x : Nat} (hx : x < 2 ^ 16) :
    ((BitVec.ofNat 32 x).extractLsb' 8 8 ++ (BitVec.ofNat 32 x).extractLsb' 0 8).toNat = x := by
  have hlow : (BitVec.ofNat 32 x).extractLsb' 8 8 ++ (BitVec.ofNat 32 x).extractLsb' 0 8
      = (BitVec.ofNat 32 x).extractLsb' 0 16 := BitVec.extractLsb'_append_extractLsb'_eq_extractLsb' rfl
  rw [hlow, BitVec.extractLsb'_toNat, BitVec.toNat_ofNat, Nat.shiftRight_zero]
  omega

theorem samplesOfBytes_bytesOfSamples {xs : List Nat} (h : ∀ x ∈ xs, x < 2 ^ 16) :
    samplesOfBytes (bytesOfSamples xs) = xs := by
  induction xs with
  | nil => rfl
  | cons x xs ih =>
    obtain ⟨hx, hxs⟩ := List.forall_mem_cons.mp h
    simp only [bytesOfSamples, bytesOfWord, List.cons_append, List.nil_append, samplesOfBytes]
    rw [toNat_low_bytes_of_sample hx, ih hxs]

theorem samplesOfBytes_lt : ∀ (bs : List Byte), ∀ x ∈ samplesOfBytes bs, x < 2 ^ 16
  | b0 :: b1 :: _ :: _ :: rest =>
    List.forall_mem_cons.mpr ⟨(b1 ++ b0).isLt, samplesOfBytes_lt rest⟩
  | [] | [_] | [_, _] | [_, _, _] => List.forall_mem_nil _

/-- Samples of 16 bits stored in W read back, MAG_LEN set to their number (20_memory R60). -/
theorem State.samples_putSamples (hm : s.mem.wf) {xs : List Nat} (hxs : ∀ x ∈ xs, x < 2 ^ 16) {len : Word}
    (hlen : len.toNat = xs.length) : ({ s.putSamples xs with magLen := len } : State).samples = xs := by
  have hbytes := State.bytes_putBytes hm magBase (bytesOfSamples xs)
  rw [bytesOfSamples_length] at hbytes
  calc ({ s.putSamples xs with magLen := len } : State).samples
      = samplesOfBytes ((s.putSamples xs).bytes magBase (4 * len.toNat)) := rfl
    _ = xs := by rw [hlen, State.putSamples, hbytes, samplesOfBytes_bytesOfSamples hxs]

/-- Storing `n` samples in W leaves every byte outside them. -/
theorem State.byte_putSamples_outside (s : State) {xs : List Nat} {n a : Nat} (hlen : xs.length = n)
    (ha : a < magBase ∨ magBase + 4 * n ≤ a) : (s.putSamples xs).byte a = s.byte a :=
  s.byte_put_outside _ _ a (by rwa [bytesOfSamples_length, hlen])

/-! ### The window MAG builds -/

/-- How many samples MAG drops from the front of the window (42_magnitude R112). -/
def State.magDropped (s : State) : Nat := s.magLen.toNat - min 239 s.magLen.toNat

/-- The window MAG builds: the samples kept, then the block's magnitudes (42_magnitude R112). -/
def State.magWindow (s : State) : List Nat := s.samples.drop s.magDropped ++ s.iqPairs.map (pairMag s.params)

/-- How many samples that window holds. -/
def State.magCount (s : State) : Nat := min 239 s.magLen.toNat + s.iqLen.toNat / 2

theorem State.magWindow_length (hm : s.mem.wf) : s.magWindow.length = s.magCount := by
  simp only [State.magWindow, State.magDropped, State.magCount, List.length_append, List.length_drop,
    s.samples_length hm, List.length_map, s.iqPairs_length]
  omega

theorem State.magWindow_lt (hp : s.params.legal) : ∀ x ∈ s.magWindow, x < 2 ^ 16 := by
  refine List.forall_mem_append.mpr ⟨fun x hx => ?_, List.forall_mem_map.mpr fun q _ => pairMag_lt hp q⟩
  exact samplesOfBytes_lt _ x (List.mem_of_mem_drop hx)

/-- The window's samples are counted in 32 bits: at most 239 and one for every two bytes. -/
theorem State.toNat_magCount (s : State) : (BitVec.ofNat 32 s.magCount).toNat = s.magCount := by
  have hiq := s.iqLen.isLt
  rw [BitVec.toNat_ofNat, State.magCount]
  omega

/-- MAG's effect through the named window, the number of its samples and the number of samples dropped. -/
theorem effectMag_eq (s : State) :
    effectMag s = { s.putSamples s.magWindow with
      magLen := BitVec.ofNat 32 s.magCount
      scanPos := BitVec.ofNat 32 (s.scanPos.toNat - s.magDropped) } := by
  rw [State.magCount, ← s.iqPairs_length, ← List.length_map (f := pairMag s.params)]
  rfl

/-! ### The command -/

/-- MAG with a legal block in mode SURV has its effect and sets DONE (42_magnitude R112). -/
theorem exec_mag (hb : s.busy = false) (hmode : s.mode = .surv) (hlen : legalIqLen s.params s.iqLen) :
    exec .mag s = .next { effectMag s with done := true } := by
  have hpass : issueError .mag (ownCheck .mag s) s = none :=
    (issueError_mag hmode).trans (checkIqLen_eq_none_iff.mpr hlen)
  have hdone : (commandEffect .mag (s.start (encode .mag))).complete
      = { effectMag s with pending := none, done := true } := rfl
  rw [exec_eq_runCommand, runCommand_accepted hb hpass, hdone, ← s.busy_eq_false_iff.mp hb]
  rfl

/-- Settles O16: the effect stores exactly the samples it counts, each of 16 bits, so they read back and no other byte
changes. -/
theorem magBuildsTheWindow : Obligations.MagBuildsTheWindow := by
  intro s hp hb hmode hlen hm
  have hcount := s.toNat_magCount
  have hwindow := State.magWindow_length hm
  have hscan : (BitVec.ofNat 32 (s.scanPos.toNat - s.magDropped)).toNat = s.scanPos.toNat - s.magDropped := by
    have hpos := s.scanPos.isLt
    rw [BitVec.toNat_ofNat]
    omega
  refine ⟨_, exec_mag hb hmode hlen, ?_⟩
  rw [effectMag_eq]
  exact ⟨State.samples_putSamples hm (State.magWindow_lt hp) (hcount.trans hwindow.symm), hcount, hscan,
    fun a ha => s.byte_putSamples_outside (hwindow.trans hcount.symm) ha, rfl⟩

end Sys2Proof.Machine
end

/-! ## The message FIFO under a push -/

section
namespace Sys2Proof.Machine

/-- Settles O24: a full FIFO of at least one record drops its head, any other drops nothing. -/
theorem pushKeepsTheNewestRecords : Obligations.PushKeepsTheNewestRecords := by
  intro s r hdepth hlen
  by_cases hfull : s.mq.length = s.params.msgDepth
  · have hne : s.mq ≠ [] := List.ne_nil_of_length_pos (hfull ▸ hdepth)
    have hdrop : s.mq.tail ++ [r] = (s.mq ++ [r]).drop (s.mq.length + 1 - s.params.msgDepth) := by
      rw [hfull, Nat.add_sub_cancel_left, List.drop_one, List.tail_append_of_ne_nil hne]
    rw [s.pushRecord_full r hfull, hdrop]
    simp [hfull]
  · have hnone : s.mq.length + 1 - s.params.msgDepth = 0 := by omega
    rw [s.pushRecord_room r hfull, hnone]
    simp [hfull]

end Sys2Proof.Machine
end

/-! ## The preamble test and the out-of-phase test -/

section
namespace Sys2Proof.Machine

theorem sampleAt_eq (w : List Nat) (k : Nat) : sampleAt w k = (w[k]?).getD 0 := List.getD_eq_getElem?_getD

theorem sampleAt_drop (w : List Nat) (j k : Nat) : sampleAt (w.drop j) k = (w[j + k]?).getD 0 := by
  rw [sampleAt_eq, List.getElem?_drop]

theorem patternTest_iff (m : List Nat) : patternTest m = true ↔
    sampleAt m 0 > sampleAt m 1 ∧ sampleAt m 1 < sampleAt m 2 ∧ sampleAt m 2 > sampleAt m 3 ∧ sampleAt m 3 < sampleAt m 0
      ∧ sampleAt m 4 < sampleAt m 0 ∧ sampleAt m 5 < sampleAt m 0 ∧ sampleAt m 6 < sampleAt m 0
      ∧ sampleAt m 7 > sampleAt m 8 ∧ sampleAt m 8 < sampleAt m 9 ∧ sampleAt m 9 > sampleAt m 6 := by
  simp only [patternTest, Bool.and_eq_true, decide_eq_true_eq, and_assoc]

theorem preambleTest_iff (p : Params) (m : List Nat) : preambleTest p m = true ↔
    patternTest m = true ∧ sampleAt m 4 < highLevel p m ∧ sampleAt m 5 < highLevel p m ∧ sampleAt m 11 < highLevel p m
      ∧ sampleAt m 12 < highLevel p m ∧ sampleAt m 13 < highLevel p m ∧ sampleAt m 14 < highLevel p m := by
  simp only [preambleTest, Bool.and_eq_true, List.all_eq_true, List.forall_mem_cons, decide_eq_true_eq,
    List.not_mem_nil, false_implies, implies_true, and_true]

theorem outOfPhase_iff (p : Params) (w : List Nat) (j : Nat) : outOfPhase p w j = true ↔
    sampleAt w (j + 3) > sampleAt w (j + 2) / p.oopDiv ∨ sampleAt w (j + 10) > sampleAt w (j + 9) / p.oopDiv
      ∨ sampleAt w (j + 6) > sampleAt w (j + 7) / p.oopDiv ∨ sampleAt w (j - 1) > sampleAt w (j + 1) / p.oopDiv := by
  simp only [outOfPhase, Bool.or_eq_true, decide_eq_true_eq, or_assoc]

/-- Settles O60: each test is its comparisons, and sample `k` from offset `j` on is sample `j + k`. -/
theorem preambleAndPhaseTestsAreTheirComparisons : Obligations.PreambleAndPhaseTestsAreTheirComparisons := by
  intro p w j _
  refine ⟨?_, fun _ => ?_⟩
  · rw [preambleTest_iff, patternTest_iff]
    simp only [highLevel, sampleAt_drop]
  · rw [outOfPhase_iff]
    simp only [sampleAt_eq]

end Sys2Proof.Machine
end

/-! ## Slicing and packing -/

section
namespace Sys2Proof.Machine

theorem sliceBit_spec (lo hi : Nat) :
    (sliceBit lo hi = .one ↔ hi < lo) ∧ (sliceBit lo hi = .zero ↔ lo < hi) ∧ (sliceBit lo hi = .amb ↔ lo = hi) := by
  unfold sliceBit
  obtain hlt | rfl | hgt := Nat.lt_trichotomy lo hi
  · simp [hlt, Nat.lt_asymm hlt, Nat.ne_of_lt hlt]
  · simp
  · simp [hgt, Nat.lt_asymm hgt, Nat.ne_of_gt hgt]

theorem sliceBits_length : ∀ xs : List Nat, (sliceBits xs).length = xs.length / 2
  | [] => rfl
  | [_] => by simp [sliceBits]
  | lo :: hi :: rest => by
    simp only [sliceBits, List.length_cons, sliceBits_length rest]
    omega

/-- Bit `b` is sliced from samples `2b` and `2b + 1` (43_detector R123). -/
theorem sliceBits_getElem? : ∀ {xs : List Nat} {b lo hi : Nat}, xs[2 * b]? = some lo → xs[2 * b + 1]? = some hi →
    (sliceBits xs)[b]? = some (sliceBit lo hi)
  | [], _, _, _, hlo, _ => by simp at hlo
  | [_], _, _, _, _, hhi => by simp at hhi
  | x :: y :: rest, 0, lo, hi, hlo, hhi => by
    obtain rfl : x = lo := by simpa using hlo
    obtain rfl : y = hi := by simpa using hhi
    rfl
  | x :: y :: rest, b + 1, lo, hi, hlo, hhi => by
    simpa [sliceBits] using sliceBits_getElem? (xs := rest) (b := b) (by simpa [Nat.mul_succ] using hlo)
      (by simpa [Nat.mul_succ] using hhi)

theorem dataRegion_length {w : List Nat} {j : Nat} (h : j + 240 ≤ w.length) : (dataRegion w j).length = 224 := by
  simp only [dataRegion, List.length_take, List.length_drop, Config.win, Config.pre]
  omega

/-- The data region starts past the preamble (43_detector R123). -/
theorem dataRegion_getElem? (w : List Nat) (j : Nat) {k : Nat} (hk : k < 224) :
    (dataRegion w j)[k]? = w[j + 16 + k]? := by
  have hk' : k < Config.win - Config.pre := hk
  rw [dataRegion, List.getElem?_take_of_lt hk', List.getElem?_drop]
  rfl

/-- The number that the sliced bits write in binary, the first on the air most significant (43_detector R125). -/
def sliceNumber (bits : List Slice) : Nat :=
  bits.foldl (fun acc b => 2 * acc + (if b = Slice.one then 1 else 0)) 0

theorem packBits_eq (bits : List Slice) : packBits bits = BitVec.ofNat 112 (sliceNumber bits) := rfl

theorem sliceNumber_append (bits : List Slice) (x : Slice) :
    sliceNumber (bits ++ [x]) = 2 * sliceNumber bits + (if x = Slice.one then 1 else 0) := by
  simp [sliceNumber]

/-- A list of `n + 1` slices is its last one after `n` others. -/
theorem exists_append_singleton {bits : List Slice} {n : Nat} (h : n + 1 = bits.length) :
    ∃ init x, bits = init ++ [x] ∧ n = init.length := by
  have hne : bits ≠ [] := List.ne_nil_of_length_pos (by omega)
  refine ⟨bits.dropLast, bits.getLast hne, (List.dropLast_concat_getLast hne).symm, ?_⟩
  rw [List.length_dropLast, ← h, Nat.add_sub_cancel]

/-- Bit `i` of the number is the sliced bit `i` places before the last. -/
theorem testBit_sliceNumber {bits : List Slice} {b i : Nat} (h : b + i + 1 = bits.length) :
    (sliceNumber bits).testBit i = decide (bits[b]? = some .one) := by
  induction i generalizing bits with
  | zero =>
    obtain ⟨init, x, rfl, rfl⟩ := exists_append_singleton h
    rw [sliceNumber_append, Nat.testBit_zero, List.getElem?_concat_length]
    by_cases hx : x = .one
    · simp only [hx, if_true, Nat.mul_add_mod_self_left]
    · simp only [hx, if_false, Nat.add_zero, Nat.mul_mod_right, Option.some.injEq]
      rfl
  | succ i ih =>
    obtain ⟨init, x, rfl, hlen⟩ := exists_append_singleton h
    have hhalf : (2 * sliceNumber init + if x = Slice.one then 1 else 0) / 2 = sliceNumber init := by split <;> omega
    rw [sliceNumber_append, Nat.testBit_succ, hhalf, ih (by omega), List.getElem?_append_left (by omega)]

/-- Frame bit `b` is bit `b` of the slices (00_scope R5, 43_detector R125). -/
theorem fbit_packBits {bits : List Slice} (hlen : bits.length = 112) {b : Nat} (hb : b < 112) :
    fbit (packBits bits) b = decide (bits[b]? = some .one) := by
  rw [← testBit_sliceNumber (bits := bits) (b := b) (i := 112 - 1 - b) (by omega)]
  have hi : 112 - 1 - b < 112 := by omega
  rw [fbit, BitVec.getMsbD, packBits_eq, BitVec.getLsbD_ofNat, decide_eq_true hb, decide_eq_true hi, Bool.true_and,
    Bool.true_and]

/-- Settles O21: the two samples of a bit stand in the data region at twice its number. -/
theorem slicedBitsArePacked : Obligations.SlicedBitsArePacked := by
  intro w j b lo hi hwin hb hlo hhi
  have hlo' : (dataRegion w j)[2 * b]? = some lo := (dataRegion_getElem? w j (by omega)).trans hlo
  have hhi' : (dataRegion w j)[2 * b + 1]? = some hi := (dataRegion_getElem? w j (by omega)).trans hhi
  refine ⟨?_, ⟨sliceBit lo hi, sliceBits_getElem? hlo' hhi', sliceBit_spec lo hi⟩, fun bits hlen => fbit_packBits hlen hb⟩
  rw [sliceBits_length, dataRegion_length hwin]

end Sys2Proof.Machine
end

/-! ## The phase correction -/

section
namespace Sys2Proof.Machine

@[simp] theorem correctFrom_length (a : Nat) (rest : List Nat) : (correctFrom a rest).length = rest.length + 1 := by
  fun_induction correctFrom a rest with
  | case1 a b c rest ih => simp [ih]
  | case2 rest a h => rfl

@[simp] theorem correctFrom_zero (a : Nat) (rest : List Nat) : (correctFrom a rest)[0]? = some a := by
  unfold correctFrom
  split <;> rfl

/-- The second sample of a bit is left alone (43_detector R127). -/
theorem correctFrom_odd (a : Nat) (rest : List Nat) {t : Nat} (ht : t % 2 = 1) :
    (correctFrom a rest)[t]? = (a :: rest)[t]? := by
  fun_induction correctFrom a rest generalizing t with
  | case1 a b c rest ih =>
    obtain _ | _ | _ | k := t
    · simp at ht
    · rfl
    · simp at ht
    · simpa using ih (t := k + 1) (by omega)
  | case2 rest a h => rfl

/-- The first sample of the next bit is scaled as the corrected bit before it says (43_detector R127). -/
theorem correctFrom_scales (a : Nat) (rest : List Nat) {t x y z : Nat} (ht : t % 2 = 0)
    (hx : (a :: rest)[t + 2]? = some x) (hy : (correctFrom a rest)[t]? = some y)
    (hz : (correctFrom a rest)[t + 1]? = some z) :
    (correctFrom a rest)[t + 2]? = some (if z < y then x * 5 / 4 else x * 4 / 5) := by
  fun_induction correctFrom a rest generalizing t with
  | case1 a b c rest ih =>
    obtain _ | _ | k := t
    · obtain rfl : c = x := by simpa using hx
      obtain rfl : a = y := by simpa using hy
      obtain rfl : b = z := by simpa using hz
      exact correctFrom_zero ..
    · simp at ht
    · simpa using ih (t := k) (by omega) (by simpa using hx) (by simpa using hy) (by simpa using hz)
  | case2 rest a h =>
    match rest with
    | [] => simp at hx
    | [_] => simp at hx
    | b :: c :: rest => exact (h b c rest rfl).elim

/-- Settles O22: each property of the correction from the first sample on, and no sample to correct in an empty region. -/
theorem correctionScalesSequentially : Obligations.CorrectionScalesSequentially
  | [] => ⟨rfl, rfl, fun _ _ => rfl, fun _ _ _ _ _ hx => by simp at hx⟩
  | a :: rest => ⟨correctFrom_length a rest, correctFrom_zero a rest, fun _ ht => correctFrom_odd a rest ht,
      fun _ _ _ _ ht hx hy hz => correctFrom_scales a rest ht hx hy hz⟩

end Sys2Proof.Machine
end

/-! ## The attempts at an offset, and the turn there -/

section
namespace Sys2Proof.Machine

variable {w region : List Nat} {j : Nat} {s : State} {r : Decoded}

/-! ### The attempts -/

/-- When an attempt is accepted, and the decode it gives (43_detector R124, R128). -/
theorem attempt_eq_some_iff : attempt region s = some r ↔
    ambiguousCount (sliceBits region) ≤ ambigMax s.ctrl ∧
      r = decodeFrame s.params s.ctrl s.now s.cache (packBits (sliceBits region)) ∧ r.status.ok = true := by
  simp only [attempt, Option.ite_none_left_eq_some, Option.ite_none_right_eq_some, Option.some.injEq, Nat.not_lt,
    gt_iff_lt]
  refine and_congr_right fun _ => ⟨?_, ?_⟩
  · rintro ⟨hok, rfl⟩
    exact ⟨rfl, hok⟩
  · rintro ⟨rfl, hok⟩
    exact ⟨hok, rfl⟩

theorem attempt_pc (h : attempt region s = some r) : r.status.pc = false := by
  obtain ⟨-, rfl, -⟩ := attempt_eq_some_iff.mp h
  rfl

theorem decodeFrame_cw (p : Params) (c : Ctrl) (now : Word) (cache : Cache) (f : Frame) :
    (decodeFrame p c now cache f).status.cw = ((decodeFrame p c now cache f).status.ok
      && selfIdentifying (decodeFrame p c now cache f).status.df) := rfl

/-- An accepted attempt writes the cache for the formats 11 and 17 (44_decoder R153). -/
theorem attempt_cw (h : attempt region s = some r) : r.status.cw = selfIdentifying r.status.df := by
  obtain ⟨-, rfl, hok⟩ := attempt_eq_some_iff.mp h
  rw [decodeFrame_cw, hok, Bool.true_and]

/-- A decode that the corrected attempt found (43_detector R128). -/
def Decoded.phaseCorrected (r : Decoded) : Decoded := { r with status := { r.status with pc := true } }

@[simp] theorem Decoded.phaseCorrected_cw (r : Decoded) : r.phaseCorrected.status.cw = r.status.cw := rfl

@[simp] theorem Decoded.phaseCorrected_df (r : Decoded) : r.phaseCorrected.status.df = r.status.df := rfl

/-- Which attempt an offset takes (43_detector R120, R128). -/
theorem attempts_eq_some_iff : attempts w j s = some r ↔
    attempt (dataRegion w j) s = some r ∨
      (attempt (dataRegion w j) s = none ∧ 1 ≤ j ∧ outOfPhase s.params w j = true ∧
        ∃ q, attempt (correctSamples (dataRegion w j)) s = some q ∧ r = q.phaseCorrected) := by
  unfold attempts
  cases hfirst : attempt (dataRegion w j) s with
  | some q => simp
  | none =>
    simp only [Option.ite_none_right_eq_some, Bool.and_eq_true, decide_eq_true_eq, Option.map_eq_some_iff, reduceCtorEq,
      false_or, true_and, and_assoc, Decoded.phaseCorrected, eq_comm (a := r)]

/-- Settles O23: acceptance and the choice of the attempt are their own characterisations. -/
theorem correctedAttemptOnlyAfterReject : Obligations.CorrectedAttemptOnlyAfterReject := by
  refine fun w region j s r => ⟨attempt_eq_some_iff, attempts_eq_some_iff, fun h => ?_⟩
  obtain ⟨hvalid, -⟩ := attempt_accepted h
  exact ⟨attempt_pc h, hvalid⟩

/-- Of the frames an offset accepts, those of the formats 11 and 17 write the cache (44_decoder R153). -/
theorem attempts_cw (h : attempts w j s = some r) : r.status.cw = selfIdentifying r.status.df := by
  obtain h | ⟨-, -, -, q, hq, rfl⟩ := attempts_eq_some_iff.mp h
  · exact attempt_cw h
  · simpa using attempt_cw hq

/-! ### The turn -/

theorem scanOffset_of_reject (h : preambleTest s.params (w.drop j) = false ∨ attempts w j s = none) :
    scanOffset w j s = (s, j + 1) := by
  unfold scanOffset
  obtain h | h := h
  · rw [h]
    rfl
  · rw [h, ite_self]

theorem scanOffset_of_accept (hp : preambleTest s.params (w.drop j) = true) (hr : attempts w j s = some r) :
    scanOffset w j s = (acceptFrame r j s, j + 16 + 2 * frameBits r.status.long) := by
  rw [scanOffset, hp, hr]
  rfl

/-- All a turn can do. -/
theorem scanOffset_cases (w : List Nat) (j : Nat) (s : State) :
    ((preambleTest s.params (w.drop j) = false ∨ attempts w j s = none) ∧ scanOffset w j s = (s, j + 1)) ∨
      ∃ r, preambleTest s.params (w.drop j) = true ∧ attempts w j s = some r ∧
        scanOffset w j s = (acceptFrame r j s, j + 16 + 2 * frameBits r.status.long) := by
  cases hp : preambleTest s.params (w.drop j) with
  | false => exact .inl ⟨.inl rfl, scanOffset_of_reject (.inl hp)⟩
  | true =>
    cases hr : attempts w j s with
    | none => exact .inl ⟨.inr rfl, scanOffset_of_reject (.inr hr)⟩
    | some r => exact .inr ⟨r, rfl, rfl, scanOffset_of_accept hp hr⟩

theorem two_mul_frameBits (long : Bool) : 2 * frameBits long = if long = true then 2 * 112 else 2 * 56 := by
  cases long <;> rfl

theorem selfIdentifying_iff (df : BitVec 5) : selfIdentifying df = true ↔ df = 11 ∨ df = 17 := by
  simp [selfIdentifying]

/-- Settles O20: a turn rejects or accepts, and CW of an accepted frame is its format's. -/
theorem scanOffsetRejectsOrAccepts : Obligations.ScanOffsetRejectsOrAccepts := by
  refine fun w j s => ⟨scanOffset_of_reject, fun r hp hr => ?_⟩
  have hcache : cacheAfter s.params s.cache s.now r
      = if r.status.df = 11 ∨ r.status.df = 17 then s.cache.insert s.params s.now r.aa else s.cache := by
    simp only [cacheAfter, attempts_cw hr, selfIdentifying_iff]
  rw [scanOffset_of_accept hp hr, acceptFrame, hcache, two_mul_frameBits]

end Sys2Proof.Machine
end

/-! ## The scan loop -/

section
namespace Sys2Proof.Machine

variable {w : List Nat} {len j : Nat} {s : State}

/-! ### What the loop leaves alone -/

/-- `t` is `s` but for the FIFO, its drops and the cache. -/
def State.ScannedTo (s t : State) : Prop :=
  t = { s with mq := t.mq, msgDrops := t.msgDrops, msgOvf := t.msgOvf, cache := t.cache }

theorem State.ScannedTo.refl (s : State) : s.ScannedTo s := rfl

theorem State.ScannedTo.trans {s t u : State} (h : s.ScannedTo t) (h' : t.ScannedTo u) : s.ScannedTo u := by
  unfold State.ScannedTo at *
  rw [h'.trans (by rw [h])]

theorem acceptFrame_scannedTo (r : Decoded) (j : Nat) (s : State) : s.ScannedTo (acceptFrame r j s) := by
  unfold acceptFrame State.pushRecord
  dsimp only
  split <;> rfl

theorem scanOffset_scannedTo (w : List Nat) (j : Nat) (s : State) : s.ScannedTo (scanOffset w j s).1 := by
  obtain ⟨-, h⟩ | ⟨r, -, -, h⟩ := scanOffset_cases w j s <;> rw [h]
  · exact .refl s
  · exact acceptFrame_scannedTo r j s

theorem scanLoop_scannedTo (w : List Nat) (len fuel j : Nat) (s : State) :
    s.ScannedTo (scanLoop w len fuel j s).1 := by
  induction fuel generalizing j s with
  | zero => exact .refl s
  | succ fuel ih =>
    unfold scanLoop
    split
    · exact (scanOffset_scannedTo w j s).trans (ih ..)
    · exact .refl s

/-- The samples a scan reads stay while it runs. -/
theorem State.ScannedTo.samples_eq {t : State} (h : s.ScannedTo t) : t.samples = s.samples := by
  rw [h]
  rfl

/-! ### What the loop does not look at -/

/-- `s` with another command in flight and another SCAN_POS: the registers the scan loop does not look at. -/
def State.withPendingAndPos (s : State) (p : Option Word) (pos : Word) : State := { s with pending := p, scanPos := pos }

theorem acceptFrame_withPendingAndPos (r : Decoded) (j : Nat) (s : State) (p : Option Word) (pos : Word) :
    acceptFrame r j (s.withPendingAndPos p pos) = (acceptFrame r j s).withPendingAndPos p pos := by
  unfold acceptFrame State.pushRecord State.withPendingAndPos
  dsimp only
  split <;> rfl

theorem scanOffset_withPendingAndPos (w : List Nat) (j : Nat) (s : State) (p : Option Word) (pos : Word) :
    scanOffset w j (s.withPendingAndPos p pos)
      = ((scanOffset w j s).1.withPendingAndPos p pos, (scanOffset w j s).2) := by
  obtain ⟨hrej, h⟩ | ⟨r, hp, hr, h⟩ := scanOffset_cases w j s <;> rw [h]
  · exact scanOffset_of_reject hrej
  · rw [← acceptFrame_withPendingAndPos]
    exact scanOffset_of_accept hp hr

theorem scanLoop_withPendingAndPos (w : List Nat) (len fuel j : Nat) (s : State) (p : Option Word) (pos : Word) :
    scanLoop w len fuel j (s.withPendingAndPos p pos)
      = ((scanLoop w len fuel j s).1.withPendingAndPos p pos, (scanLoop w len fuel j s).2) := by
  induction fuel generalizing j s with
  | zero => rfl
  | succ fuel ih =>
    rw [scanLoop, scanLoop, scanOffset_withPendingAndPos]
    split
    · exact ih ..
    · rfl

/-! ### Where the loop ends -/

theorem lt_scanOffset_next (w : List Nat) (j : Nat) (s : State) : j < (scanOffset w j s).2 := by
  obtain ⟨-, h⟩ | ⟨r, -, -, h⟩ := scanOffset_cases w j s <;> rw [h] <;> dsimp only <;> omega

theorem scanLoop_of_window (h : j + 240 ≤ len) (w : List Nat) (fuel : Nat) (s : State) :
    scanLoop w len (fuel + 1) j s = scanLoop w len fuel (scanOffset w j s).2 (scanOffset w j s).1 := if_pos h

theorem scanLoop_of_no_window (h : len < j + 240) (w : List Nat) (fuel : Nat) (s : State) :
    scanLoop w len fuel j s = (s, j) := by
  cases fuel with
  | zero => rfl
  | succ fuel => exact if_neg (Nat.not_le_of_lt h)

theorem le_scanLoop_next (w : List Nat) (len fuel j : Nat) (s : State) : j ≤ (scanLoop w len fuel j s).2 := by
  induction fuel generalizing j s with
  | zero => exact Nat.le_refl j
  | succ fuel ih =>
    by_cases h : j + 240 ≤ len
    · rw [scanLoop_of_window h]
      exact Nat.le_trans (Nat.le_of_lt (lt_scanOffset_next w j s)) (ih ..)
    · exact Nat.le_of_eq (congrArg Prod.snd (scanLoop_of_no_window (Nat.lt_of_not_le h) ..)).symm

/-- With turns enough to reach the end of the window, the loop leaves no whole window (43_detector R131). -/
theorem lt_scanLoop_next_add {fuel : Nat} (hfuel : len ≤ j + fuel) (w : List Nat) (s : State) :
    len < (scanLoop w len fuel j s).2 + 240 := by
  induction fuel generalizing j s with
  | zero => exact Nat.lt_of_le_of_lt hfuel (Nat.lt_add_of_pos_right (by decide))
  | succ fuel ih =>
    by_cases h : j + 240 ≤ len
    · have hnext := lt_scanOffset_next w j s
      rw [scanLoop_of_window h]
      exact ih (by omega) _
    · rw [scanLoop_of_no_window (Nat.lt_of_not_le h)]
      exact Nat.lt_of_not_le h

/-- With turns enough, one more changes nothing. -/
theorem scanLoop_fuel_succ {fuel : Nat} (hfuel : len ≤ j + fuel) (w : List Nat) (s : State) :
    scanLoop w len (fuel + 1) j s = scanLoop w len fuel j s := by
  induction fuel generalizing j s with
  | zero =>
    have h : len < j + 240 := by omega
    rw [scanLoop_of_no_window h, scanLoop_of_no_window h]
  | succ fuel ih =>
    by_cases h : j + 240 ≤ len
    · have hnext := lt_scanOffset_next w j s
      rw [scanLoop_of_window h, scanLoop_of_window h, ih (by omega)]
    · rw [scanLoop_of_no_window (Nat.lt_of_not_le h), scanLoop_of_no_window (Nat.lt_of_not_le h)]

end Sys2Proof.Machine
end

/-! ## SCAN -/

section
namespace Sys2Proof.Machine

variable {s : State}

/-- The scan loop as SCAN runs it in `s` from offset `j` on. -/
def State.scanFrom (s : State) (j : Nat) : State × Nat := scanLoop s.samples s.magLen.toNat s.magLen.toNat j s

theorem scanFrom_scannedTo (s : State) (j : Nat) : s.ScannedTo (s.scanFrom j).1 := scanLoop_scannedTo ..

/-- Where a scan from `j` ends fits SCAN_POS. -/
theorem scanFrom_next_lt {j : Nat} (hj : j < 2 ^ 32) : (s.scanFrom j).2 < 2 ^ 32 := by
  by_cases h : j + 240 ≤ s.magLen.toNat
  · exact Nat.lt_of_le_of_lt (scanLoop_next_le s.samples (Nat.le_of_add_right_le h) _ s) s.magLen.isLt
  · rwa [State.scanFrom, scanLoop_of_no_window (Nat.lt_of_not_le h)]

/-- With a whole window left, a scan is the turn there and the scan from where the turn ends (43_detector R120). -/
theorem scanFrom_of_window {j : Nat} (h : j + 240 ≤ s.magLen.toNat) :
    s.scanFrom j = (scanOffset s.samples j s).1.scanFrom (scanOffset s.samples j s).2 := by
  have hnext := lt_scanOffset_next s.samples j s
  obtain ⟨n, hn⟩ : ∃ n, s.magLen.toNat = n + 1 := ⟨s.magLen.toNat - 1, by omega⟩
  have henough : s.magLen.toNat ≤ (scanOffset s.samples j s).2 + n := by omega
  rw [State.scanFrom, State.scanFrom, (scanOffset_scannedTo s.samples j s).samples_eq, scanOffset_magLen]
  calc scanLoop s.samples s.magLen.toNat s.magLen.toNat j s
      = scanLoop s.samples s.magLen.toNat (n + 1) j s := by rw [← hn]
    _ = scanLoop s.samples s.magLen.toNat n (scanOffset s.samples j s).2 (scanOffset s.samples j s).1 :=
        scanLoop_of_window h ..
    _ = scanLoop s.samples s.magLen.toNat (n + 1) (scanOffset s.samples j s).2 (scanOffset s.samples j s).1 :=
        (scanLoop_fuel_succ henough ..).symm
    _ = _ := by rw [← hn]

/-- `s` after a scan from offset `j` on: SCAN_POS takes the scan's end. -/
def State.scannedFrom (s : State) (j : Nat) : State :=
  { (s.scanFrom j).1 with scanPos := BitVec.ofNat 32 (s.scanFrom j).2 }

/-- A scan changes the FIFO, its drops, the cache and SCAN_POS alone. -/
theorem scannedFrom_frame (s : State) (j : Nat) : s.scannedFrom j = { s with
    mq := (s.scannedFrom j).mq, msgDrops := (s.scannedFrom j).msgDrops, msgOvf := (s.scannedFrom j).msgOvf,
    cache := (s.scannedFrom j).cache, scanPos := (s.scannedFrom j).scanPos } := by
  rw [State.scannedFrom, scanFrom_scannedTo s j]

theorem scannedFrom_pending (s : State) (j : Nat) : (s.scannedFrom j).pending = s.pending := by
  rw [scannedFrom_frame]

/-- SCAN's effect does not depend on the command in flight. -/
theorem effectScan_withPendingAndPos (s : State) (p : Option Word) (pos : Word) :
    effectScan (s.withPendingAndPos p pos) = { s.scannedFrom pos.toNat with pending := p } := by
  have hloop : (s.withPendingAndPos p pos).scanFrom pos.toNat
      = ((s.scanFrom pos.toNat).1.withPendingAndPos p pos, (s.scanFrom pos.toNat).2) := scanLoop_withPendingAndPos ..
  calc effectScan (s.withPendingAndPos p pos)
      = (s.withPendingAndPos p pos).scannedFrom pos.toNat := rfl
    _ = { s.scannedFrom pos.toNat with pending := p } := by rw [State.scannedFrom, hloop]; rfl

/-- SCAN from any SCAN_POS in mode SURV scans from there and sets DONE (43_detector R120, R131). -/
theorem exec_scan (hb : s.busy = false) (hmode : s.mode = .surv) (pos : Word) :
    exec .scan { s with scanPos := pos } = .next { s.scannedFrom pos.toNat with done := true } := by
  have hpass : issueError .scan (ownCheck .scan s) { s with scanPos := pos } = none :=
    issueError_of_permitted rfl (by rw [hmode]; rfl) _
  have hpend : (s.scannedFrom pos.toNat).pending = none :=
    (scannedFrom_pending ..).trans (s.busy_eq_false_iff.mp hb)
  have heffect := congrArg State.complete (effectScan_withPendingAndPos s (some (encode .scan)) pos)
  calc exec .scan { s with scanPos := pos }
      = .next (effectScan (s.withPendingAndPos (some (encode .scan)) pos)).complete :=
        (exec_eq_runCommand ..).trans (runCommand_accepted hb hpass)
    _ = .next { s.scannedFrom pos.toNat with pending := none, done := true } := congrArg _ heffect
    _ = .next { s.scannedFrom pos.toNat with done := true } := by rw [← hpend]

/-- Settles O18: the scan's frame, and its end between SCAN_POS and MAG_LEN with no whole window left. -/
theorem scanAdvancesItsPosition : Obligations.ScanAdvancesItsPosition := by
  intro s hb hmode
  have hend : (s.scannedFrom s.scanPos.toNat).scanPos.toNat = (s.scanFrom s.scanPos.toNat).2 :=
    Nat.mod_eq_of_lt (scanFrom_next_lt s.scanPos.isLt)
  refine ⟨_, exec_scan hb hmode s.scanPos, ?_, ?_, fun hle => ?_⟩
  · rw [scannedFrom_frame]
  · rw [hend]
    exact lt_scanLoop_next_add (Nat.le_add_left ..) _ _
  · rw [hend]
    exact ⟨le_scanLoop_next .., scanLoop_next_le _ hle _ _⟩

/-- Settles O19: one unrolling of the loop; the turn ends within the window, so SCAN_POS holds where. -/
theorem scanIsItsLoop : Obligations.ScanIsItsLoop := by
  intro s hb hmode
  have hscan := exec_scan hb hmode s.scanPos
  refine ⟨fun hwin => hscan.trans ?_, fun hend => hscan.trans ?_⟩
  · have hframe := scanOffset_scannedTo s.samples s.scanPos.toNat s
    have hbusy : (scanOffset s.samples s.scanPos.toNat s).1.busy = false := by rw [hframe]; exact hb
    have hsurv : (scanOffset s.samples s.scanPos.toNat s).1.mode = .surv := by rw [hframe]; exact hmode
    have hpos : (BitVec.ofNat 32 (scanOffset s.samples s.scanPos.toNat s).2).toNat
        = (scanOffset s.samples s.scanPos.toNat s).2 :=
      Nat.mod_eq_of_lt (Nat.lt_of_le_of_lt (Nat.le_trans (scanOffset_next_le ..) hwin) s.magLen.isLt)
    rw [exec_scan hbusy hsurv, hpos, State.scannedFrom, scanFrom_of_window hwin, State.scannedFrom]
  · rw [State.scannedFrom, State.scanFrom, scanLoop_of_no_window hend, BitVec.ofNat_toNat, BitVec.setWidth_eq]

end Sys2Proof.Machine
end

/-! ## The CRC-24 on single bits -/

section
namespace Sys2Proof.Machine

/-! ### Frame bits -/

/-- The frame with bit `q` alone set (00_scope R5). -/
def unitFrame (q : Nat) : Frame := 1#112 <<< (111 - q)

theorem fbit_unitFrame {q : Nat} (hq : q < 112) (p : Nat) : fbit (unitFrame q) p = decide (p = q) := by
  rw [fbit, unitFrame, BitVec.getMsbD_shiftLeft, BitVec.getMsbD_one, decide_eq_true (p := 0 < 112) (by decide),
    Bool.and_true]
  exact decide_eq_decide.mpr (by omega)

@[simp] theorem fbit_xor (f g : Frame) (p : Nat) : fbit (f ^^^ g) p = (fbit f p ^^ fbit g p) := BitVec.getMsbD_xor

theorem flip_eq_xor (f : Frame) (p : Nat) : flip f p = f ^^^ unitFrame p := rfl

theorem fbit_flip (f : Frame) {p : Nat} (hp : p < 112) (q : Nat) :
    fbit (flip f p) q = (fbit f q != decide (q = p)) :=
  (fbit_xor f (unitFrame p) q).trans (congrArg (fbit f q ^^ ·) (fbit_unitFrame hp q))

/-- Two frames with the same bits are equal. -/
theorem frame_ext {f g : Frame} (h : ∀ p, p < 112 → fbit f p = fbit g p) : f = g := BitVec.eq_of_getMsbD_eq h

theorem frameBits_true : frameBits true = 112 := rfl

theorem frameBits_false : frameBits false = 56 := rfl

theorem frameBits_le (long : Bool) : frameBits long ≤ 112 := by cases long <;> decide

theorem frameBits_ge (long : Bool) : 56 ≤ frameBits long := by cases long <;> decide

/-- A part of a frame holds its bits in their order. -/
theorem getMsbD_extractLsb'_frame (f : Frame) {start len q : Nat} (hend : start + len ≤ 112) (hq : q < len) :
    (f.extractLsb' start len).getMsbD q = fbit f (112 - (start + len) + q) := by
  rw [BitVec.getMsbD_extractLsb', decide_eq_true hq, decide_eq_true (by omega), Bool.true_and, Bool.true_and, fbit]
  congr 1
  omega

/-! ### The parity field -/

/-- The parity field is the last 24 bits of the frame's length (44_decoder R143). -/
theorem getMsbD_parityField (f : Frame) (long : Bool) {q : Nat} (hq : q < 24) :
    (parityField f long).getMsbD q = fbit f (frameBits long - 24 + q) := by
  cases long with
  | true => exact getMsbD_extractLsb'_frame f (start := 0) (by decide) hq
  | false => exact getMsbD_extractLsb'_frame f (start := 56) (by decide) hq

theorem parityField_xor (f g : Frame) (long : Bool) :
    parityField (f ^^^ g) long = parityField f long ^^^ parityField g long := by
  cases long <;> exact BitVec.extractLsb'_xor

/-- Below `x^24` nothing is reduced. -/
theorem xPowMod_eq_shift {n : Nat} (hn : n < 24) : xPowMod n = 1#24 <<< n := by
  decide +revert

/-- A parity bit alone is its own power of `x`; the other bits are not in the parity field. -/
theorem parityField_unitFrame {q : Nat} (long : Bool) (hq : q < 112) :
    parityField (unitFrame q) long
      = if frameBits long ≤ q + 24 ∧ q < frameBits long then xPowMod (frameBits long - 1 - q) else 0 := by
  have hlow := frameBits_ge long
  refine BitVec.eq_of_getMsbD_eq fun i hi => ?_
  rw [getMsbD_parityField _ _ hi, fbit_unitFrame hq]
  split
  next h =>
    rw [xPowMod_eq_shift (by omega), BitVec.getMsbD_shiftLeft, BitVec.getMsbD_one,
      decide_eq_true (p := 0 < 24) (by decide), Bool.and_true]
    exact decide_eq_decide.mpr (by omega)
  next h =>
    exact (decide_eq_false (by omega)).trans BitVec.getMsbD_zero.symm

/-! ### The CRC -/

theorem crcFrom_xor (f g : Frame) (p : Nat) (ts : List Word24) :
    crcFrom (f ^^^ g) p ts = crcFrom f p ts ^^^ crcFrom g p ts := by
  induction ts generalizing p with
  | nil => exact BitVec.xor_self.symm
  | cons t ts ih =>
    have hentry : (if fbit (f ^^^ g) p then t else 0)
        = (if fbit f p then t else 0) ^^^ (if fbit g p then t else 0) := by
      rw [fbit_xor]
      cases fbit f p <;> cases fbit g p <;> simp
    rw [crcFrom, crcFrom, crcFrom, ih, hentry]
    ac_rfl

theorem crc24_xor (f g : Frame) (long : Bool) : crc24 (f ^^^ g) long = crc24 f long ^^^ crc24 g long :=
  crcFrom_xor ..

/-- The CRC of one bit is its table entry. -/
theorem crcFrom_unitFrame {q : Nat} (hq : q < 112) (p : Nat) (ts : List Word24) :
    crcFrom (unitFrame q) p ts = if p ≤ q then (ts[q - p]?).getD 0 else 0 := by
  induction ts generalizing p with
  | nil => simp [crcFrom]
  | cons t ts ih =>
    rw [crcFrom, fbit_unitFrame hq, ih]
    obtain hlt | rfl | hgt := Nat.lt_trichotomy p q
    · have hsub : q - p = q - (p + 1) + 1 := by omega
      simp [Nat.ne_of_lt hlt, Nat.le_of_lt hlt, Nat.succ_le_of_lt hlt, hsub]
    · rw [decide_eq_true rfl, if_pos rfl, if_neg (Nat.not_succ_le_self p), if_pos (Nat.le_refl p), Nat.sub_self]
      exact BitVec.xor_zero
    · simp [Nat.ne_of_gt hgt, Nat.not_le_of_lt hgt, Nat.not_le_of_lt (Nat.lt_succ_of_lt hgt)]

/-- The table holds the powers of `x` modulo the generator, and zeros for the parity bits (44_decoder R140). -/
theorem crcTable_eq : crcTable = (List.range 88).map (fun q => xPowMod (111 - q)) ++ List.replicate 24 0 := by
  decide +kernel

theorem crcTable_getD (q : Nat) : (crcTable[q]?).getD 0 = if q < 88 then xPowMod (111 - q) else 0 := by
  rw [crcTable_eq]
  by_cases hq : q < 88
  · simp [List.getElem?_append_left, hq]
  · rw [List.getElem?_append_right (by simpa using hq), List.getElem?_replicate, if_neg hq]
    split <;> rfl

/-- The CRC of one bit: a data bit gives a power of `x` modulo the generator, any other bit nothing. -/
theorem crc24_unitFrame {q : Nat} (long : Bool) (hq : q < 112) :
    crc24 (unitFrame q) long = if q + 24 < frameBits long then xPowMod (frameBits long - 1 - q) else 0 := by
  rw [crc24, crcFrom_unitFrame hq, if_pos (Nat.zero_le q), Nat.sub_zero]
  cases long with
  | true =>
    have hdata : q < 88 ↔ q + 24 < 112 := by omega
    rw [if_pos rfl, crcTable_getD, frameBits_true]
    exact ite_congr (propext hdata) (fun _ => rfl) (fun _ => rfl)
  | false =>
    have hdata : 56 + q < 88 ↔ q + 24 < 56 := by omega
    have hexp : 111 - (56 + q) = 56 - 1 - q := by omega
    rw [if_neg Bool.false_ne_true, List.getElem?_drop, crcTable_getD, frameBits_false, hexp]
    exact ite_congr (propext hdata) (fun _ => rfl) (fun _ => rfl)

/-! ### The syndrome -/

theorem syndrome_xor (f g : Frame) (long : Bool) : syndrome (f ^^^ g) long = syndrome f long ^^^ syndrome g long := by
  rw [syndrome, syndrome, syndrome, parityField_xor, crc24_xor]
  ac_rfl

/-- The syndrome of every bit of a frame, data or parity, is its power of `x` (44_decoder R157). -/
theorem syndrome_unitFrame {q : Nat} {long : Bool} (hq : q < frameBits long) :
    syndrome (unitFrame q) long = xPowMod (frameBits long - 1 - q) := by
  have hlt : q < 112 := Nat.lt_of_lt_of_le hq (frameBits_le long)
  rw [syndrome, parityField_unitFrame long hlt, crc24_unitFrame long hlt]
  by_cases hdata : q + 24 < frameBits long
  · rw [if_neg (by omega), if_pos hdata]
    exact BitVec.zero_xor
  · rw [if_pos (by omega), if_neg hdata]
    exact BitVec.xor_zero

theorem crcMatches_iff (f : Frame) (long : Bool) : crcMatches f long = true ↔ syndrome f long = 0 := by
  rw [crcMatches, beq_iff_eq, syndrome]
  exact BitVec.xor_eq_zero_iff.symm

theorem crcMatches_eq_false_iff (f : Frame) (long : Bool) :
    crcMatches f long = false ↔ parityField f long ≠ crc24 f long := by
  rw [crcMatches, beq_eq_false_iff_ne]

/-- Settles O26: by the CRC and the parity field of one bit, of which both are sums. -/
theorem crcIsLinear : Obligations.CrcIsLinear := by
  intro f g long q
  have hlen := frameBits_le long
  refine ⟨crc24_xor f g long, rfl, fun hq => ?_, fun hq hlt => ?_, getMsbD_parityField f long, rfl,
    syndrome_xor f g long⟩
  · have hexp : 111 - q - (112 - frameBits long) = frameBits long - 1 - q := by omega
    rw [hexp]
    exact crc24_unitFrame long (Nat.lt_of_lt_of_le hq hlen)
  · exact (crc24_unitFrame long hlt).trans (if_neg (by omega))

end Sys2Proof.Machine
end

/-! ## Sums of powers of x modulo the generator -/

section
namespace Sys2Proof.Machine

/-! ### Multiplication by x -/

/-- `x · v mod G(x)`, one step of `xPowMod` (44_decoder R140). -/
def mulX (v : Word24) : Word24 := if v.msb = true then (v <<< 1) ^^^ 0xFFF409 else v <<< 1

theorem xPowMod_succ (n : Nat) : xPowMod (n + 1) = mulX (xPowMod n) := rfl

/-- Two subtractions of the generator cancel. -/
theorem xor_xor_xor_cancel (u v w : Word24) : (u ^^^ w) ^^^ (v ^^^ w) = u ^^^ v := by
  have hpair : (u ^^^ w) ^^^ (v ^^^ w) = (u ^^^ v) ^^^ (w ^^^ w) := by ac_rfl
  rw [hpair, BitVec.xor_self, BitVec.xor_zero]

theorem mulX_xor (u v : Word24) : mulX (u ^^^ v) = mulX u ^^^ mulX v := by
  simp only [mulX, BitVec.msb_xor, BitVec.shiftLeft_xor_distrib]
  cases u.msb <;> cases v.msb
  · rfl
  · exact BitVec.xor_assoc ..
  · simp only [Bool.xor_false, if_true, Bool.false_eq_true, if_false]
    ac_rfl
  · exact (xor_xor_xor_cancel ..).symm

/-- Multiplication by `x` loses nothing, since the generator has a constant term. -/
theorem eq_zero_of_mulX {v : Word24} (h : mulX v = 0) : v = 0 := by
  unfold mulX at h
  split at h
  next =>
    have hbit := congrArg (·.getLsbD 0) h
    simp at hbit
  next hmsb =>
    refine BitVec.eq_of_getLsbD_eq fun i hi => ?_
    by_cases hlast : i = 23
    · subst hlast
      simpa [BitVec.msb_eq_getLsbD_last] using hmsb
    · have hbit := congrArg (·.getLsbD (i + 1)) h
      simpa [show i + 1 < 24 by omega, BitVec.getLsbD_eq_getElem hi] using hbit

/-! ### Sums of words -/

/-- The exclusive-or of a list of words. -/
def xorSum (l : List Word24) : Word24 := l.foldr (· ^^^ ·) 0

@[simp] theorem xorSum_nil : xorSum [] = 0 := rfl

@[simp] theorem xorSum_cons (v : Word24) (l : List Word24) : xorSum (v :: l) = v ^^^ xorSum l := rfl

theorem xorSum_perm {l l' : List Word24} (h : l.Perm l') : xorSum l = xorSum l' :=
  h.foldr_eq' (fun _ _ _ _ _ => by ac_rfl) 0

theorem xorSum_map_mulX (l : List Word24) : xorSum (l.map mulX) = mulX (xorSum l) := by
  induction l with
  | nil => rfl
  | cons v l ih => rw [List.map_cons, xorSum_cons, xorSum_cons, ih, mulX_xor]

/-- The sum of the powers of `x` with these exponents, modulo the generator. -/
def powSum (l : List Nat) : Word24 := xorSum (l.map xPowMod)

theorem powSum_perm {l l' : List Nat} (h : l.Perm l') : powSum l = powSum l' := xorSum_perm (h.map _)

/-- Different members of a list, in some order, are a part of it in its order. -/
theorem exists_perm_sublist_of_nodup {α : Type} [DecidableEq α] {l ts : List α} (hnodup : l.Nodup)
    (hmem : ∀ a ∈ l, a ∈ ts) : ∃ l' : List α, l'.Perm l ∧ l'.Sublist ts := by
  induction ts generalizing l with
  | nil => exact ⟨[], by rw [List.eq_nil_iff_forall_not_mem.mpr fun a ha => List.not_mem_nil (hmem a ha)], .refl _⟩
  | cons t ts ih =>
    have hrest : ∀ a ∈ l.erase t, a ∈ ts := fun a ha => by
      obtain ⟨hne, hal⟩ := hnodup.mem_erase_iff.mp ha
      exact (List.mem_cons.mp (hmem a hal)).resolve_left hne
    obtain ⟨l', hperm, hsub⟩ := ih (hnodup.erase t) hrest
    by_cases ht : t ∈ l
    · exact ⟨t :: l', (hperm.cons t).trans (List.perm_cons_erase ht).symm, hsub.cons_cons t⟩
    · exact ⟨l', List.erase_of_not_mem ht ▸ hperm, hsub.cons t⟩

/-- Different numbers stay different under a function that tells those of the list apart. -/
theorem nodup_map_of_inj {α β : Type} {g : α → β} {l : List α} (hnodup : l.Nodup)
    (hinj : ∀ a ∈ l, ∀ b ∈ l, g a = g b → a = b) : (l.map g).Nodup :=
  List.pairwise_map.mpr (hnodup.imp_of_mem fun ha hb hne h => hne (hinj _ ha _ hb h))

/-- If a sum of powers with all exponents raised by `m` is zero, so is the sum itself. -/
theorem powSum_eq_zero_of_shift {l : List Nat} (m : Nat) (h : powSum (l.map (· + m)) = 0) : powSum l = 0 := by
  induction m with
  | zero => simpa using h
  | succ m ih =>
    have hstep : (mulX ∘ xPowMod) ∘ (· + m) = xPowMod ∘ (· + (m + 1)) := funext fun n => (xPowMod_succ (n + m)).symm
    refine ih (eq_zero_of_mulX ?_)
    rwa [powSum, ← xorSum_map_mulX, List.map_map, List.map_map, hstep, ← List.map_map]

/-! ### No four powers below x^112 sum to zero -/

/-- The powers `x^1 .. x^111`. -/
def higherPowers : List Word24 := (List.range' 1 111).map xPowMod

/-- The low halves of the words of a list, as a set of bits. -/
def lowHalves (l : List Word24) : Nat := l.foldr (fun v m => m ||| 1 <<< (v.toNat % 2 ^ 16)) 0

/-- Membership in a list whose `lowHalves` are `m`: the words are compared only when the low half occurs. -/
def hasWord (l : List Word24) (m : Nat) (v : Word24) : Bool := m.testBit (v.toNat % 2 ^ 16) && l.contains v

theorem testBit_lowHalves {l : List Word24} {v : Word24} (h : v ∈ l) :
    (lowHalves l).testBit (v.toNat % 2 ^ 16) = true := by
  induction l with
  | nil => cases h
  | cons w l ih =>
    rw [lowHalves, List.foldr_cons, ← lowHalves, Nat.testBit_or, Bool.or_eq_true]
    obtain rfl | h := List.mem_cons.mp h
    · exact .inr (by simp [Nat.testBit_shiftLeft])
    · exact .inl (ih h)

theorem hasWord_iff {l : List Word24} {v : Word24} : hasWord l (lowHalves l) v = true ↔ v ∈ l := by
  rw [hasWord, Bool.and_eq_true, List.contains_iff_mem]
  exact ⟨And.right, fun h => ⟨testBit_lowHalves h, h⟩⟩

/-- No sum of `v` and `k` of the listed words passes the test `p`. -/
def noSumPasses (p : Word24 → Bool) : Nat → List Word24 → Word24 → Bool
  | 0, _, v => !p v
  | _ + 1, [], _ => true
  | k + 1, t :: ts, v => noSumPasses p k ts (v ^^^ t) && noSumPasses p (k + 1) ts v

theorem not_passes_of_sublist {p : Word24 → Bool} {k : Nat} {ts l : List Word24} {v : Word24}
    (h : noSumPasses p k ts v = true) (hsub : l.Sublist ts) (hlen : l.length = k) : p (v ^^^ xorSum l) = false := by
  induction hsub generalizing k v with
  | slnil =>
    subst hlen
    simpa [noSumPasses] using h
  | @cons l ts t hsub ih =>
    cases k with
    | zero =>
      obtain rfl := List.eq_nil_of_length_eq_zero hlen
      simpa [noSumPasses] using h
    | succ k =>
      rw [noSumPasses, Bool.and_eq_true] at h
      obtain ⟨-, hskip⟩ := h
      exact ih hskip hlen
  | @cons_cons l ts t hsub ih =>
    subst hlen
    rw [List.length_cons, noSumPasses, Bool.and_eq_true] at h
    obtain ⟨htake, -⟩ := h
    rw [xorSum_cons, ← BitVec.xor_assoc]
    exact ih htake rfl

/-- The computation behind the distance property (44_decoder R157): 1 and at most two of `x^1 .. x^111` never sum to
another of them. -/
theorem no_power_is_sum :
    ∀ k < 3, noSumPasses (hasWord higherPowers (lowHalves higherPowers)) k higherPowers 1 = true := by
  decide +kernel

/-- `1` and at most three different powers from `x^1` to `x^111` have no zero sum: one of them would be the sum of `1`
and the others. -/
theorem powSum_zero_cons_ne_zero {l : List Nat} (hnodup : l.Nodup) (hlen : l.length ≤ 3)
    (hbound : ∀ n ∈ l, 1 ≤ n ∧ n < 112) : powSum (0 :: l) ≠ 0 := by
  have hrange : ∀ n ∈ l, n ∈ List.range' 1 111 := fun n hn => by
    have := hbound n hn
    exact List.mem_range'_1.mpr (by omega)
  cases l with
  | nil => decide
  | cons c l =>
    intro hzero
    have hsum : 1 ^^^ powSum l = xPowMod c := by
      have hmove : 1 ^^^ (xPowMod c ^^^ powSum l) = (1 ^^^ powSum l) ^^^ xPowMod c := by ac_rfl
      exact BitVec.xor_eq_zero_iff.mp (hmove.symm.trans hzero)
    have hmem : xPowMod c ∈ higherPowers := List.mem_map_of_mem (hrange c List.mem_cons_self)
    obtain ⟨-, hnodup⟩ := List.nodup_cons.mp hnodup
    obtain ⟨l', hperm, hsub⟩ :=
      exists_perm_sublist_of_nodup hnodup fun n hn => hrange n (List.mem_cons_of_mem c hn)
    have hlen' : l'.length < 3 := Nat.lt_of_le_of_lt (Nat.le_of_eq hperm.length_eq) hlen
    have hcheck := not_passes_of_sublist (no_power_is_sum l'.length hlen') (hsub.map xPowMod) (List.length_map _)
    rw [← powSum, powSum_perm hperm, hsum, hasWord_iff.mpr hmem] at hcheck
    cases hcheck

/-- The distance property (44_decoder R157): at most four different powers of `x` below `x^112` have no zero sum. -/
theorem powSum_ne_zero {l : List Nat} (hne : l ≠ []) (hnodup : l.Nodup) (hlen : l.length ≤ 4)
    (hbound : ∀ n ∈ l, n < 112) : powSum l ≠ 0 := by
  have hmin : ∀ n ∈ l, l.min hne ≤ n := fun n hn => List.min_le_of_mem hn
  have hperm : l.Perm (l.min hne :: l.erase (l.min hne)) := List.perm_cons_erase (List.min_mem hne)
  generalize l.min hne = m at hmin hperm
  generalize l.erase m = rest at hperm
  obtain ⟨hnotin, hnodup'⟩ := List.nodup_cons.mp (hperm.nodup hnodup)
  have hlen' : rest.length ≤ 3 := Nat.le_of_succ_le_succ (Nat.le_trans (Nat.le_of_eq hperm.length_eq.symm) hlen)
  have hsep : ∀ n ∈ rest, m < n ∧ n < 112 := fun n hn => by
    have hn' : n ∈ l := hperm.mem_iff.mpr (List.mem_cons_of_mem m hn)
    have hdiff : n ≠ m := fun h => hnotin (h ▸ hn)
    exact ⟨Nat.lt_of_le_of_ne (hmin n hn') hdiff.symm, hbound n hn'⟩
  have hshift : (0 :: rest.map (· - m)).map (· + m) = m :: rest := by
    rw [List.map_cons, Nat.zero_add, List.map_map]
    exact congrArg _ ((List.map_congr_left fun n hn => Nat.sub_add_cancel (Nat.le_of_lt (hsep n hn).1)).trans
      (List.map_id' _))
  intro hzero
  rw [powSum_perm hperm, ← hshift] at hzero
  refine powSum_zero_cons_ne_zero ?_ (by rwa [List.length_map]) ?_ (powSum_eq_zero_of_shift m hzero)
  · refine nodup_map_of_inj hnodup' fun x hx y hy hxy => ?_
    have := hsep x hx
    have := hsep y hy
    omega
  · intro d hd
    obtain ⟨n, hn, rfl⟩ := List.mem_map.mp hd
    have := hsep n hn
    omega

end Sys2Proof.Machine
end

/-! ## Frames with few inverted bits -/

section
namespace Sys2Proof.Machine

variable {f : Frame} {long : Bool} {p q : Nat}

theorem flip_flip (f : Frame) (p : Nat) : flip (flip f p) p = f := by
  rw [flip_eq_xor, flip_eq_xor, BitVec.xor_assoc, BitVec.xor_self, BitVec.xor_zero]

theorem flip_comm (f : Frame) (p q : Nat) : flip (flip f p) q = flip (flip f q) p := by
  simp only [flip_eq_xor]
  ac_rfl

theorem flip_flip_flip_flip (f : Frame) (p q : Nat) : flip (flip (flip (flip f p) q) p) q = f := by
  rw [flip_comm (flip f p) q p, flip_flip, flip_flip]

/-- Inverting bits adds their powers of `x` to the syndrome (44_decoder R157). -/
theorem syndrome_flips {l : List Nat} (hl : ∀ p ∈ l, p < frameBits long) (f : Frame) :
    syndrome (l.foldl flip f) long = syndrome f long ^^^ powSum (l.map (frameBits long - 1 - ·)) := by
  induction l generalizing f with
  | nil => exact BitVec.xor_zero.symm
  | cons p l ih =>
    obtain ⟨hp, hl⟩ := List.forall_mem_cons.mp hl
    rw [List.foldl_cons, ih hl, flip_eq_xor, syndrome_xor, syndrome_unitFrame hp, BitVec.xor_assoc]
    rfl

/-- A valid frame with one to four of its bits inverted is not valid (44_decoder R157). -/
theorem not_crcMatches_flips {l : List Nat} (hl : ∀ p ∈ l, p < frameBits long) (hne : l ≠ []) (hnodup : l.Nodup)
    (hlen : l.length ≤ 4) (hf : crcMatches f long = true) : crcMatches (l.foldl flip f) long = false := by
  have hle := frameBits_le long
  rw [← Bool.not_eq_true, crcMatches_iff, syndrome_flips hl, (crcMatches_iff f long).mp hf]
  refine fun h => powSum_ne_zero (mt List.map_eq_nil_iff.mp hne) ?_ (by rwa [List.length_map]) ?_
    (BitVec.zero_xor.symm.trans h)
  · refine nodup_map_of_inj hnodup fun x hx y hy hxy => ?_
    have := hl x hx
    have := hl y hy
    omega
  · intro d hd
    obtain ⟨n, -, rfl⟩ := List.mem_map.mp hd
    omega

/-- A list with a repetition holds some member twice, and the rest. -/
theorem exists_perm_cons_cons_of_not_nodup {l : List Nat} (h : ¬ l.Nodup) : ∃ a rest, l.Perm (a :: a :: rest) := by
  induction l with
  | nil => exact absurd List.nodup_nil h
  | cons a l ih =>
    by_cases ha : a ∈ l
    · exact ⟨a, l.erase a, (List.perm_cons_erase ha).cons a⟩
    · obtain ⟨b, rest, hperm⟩ := ih fun hl => h (List.nodup_cons.mpr ⟨ha, hl⟩)
      exact ⟨b, a :: rest, (hperm.cons a).trans ((List.Perm.swap b a _).trans ((List.Perm.swap b a _).cons b))⟩

/-- At most four inversions that leave a valid frame valid cancel in pairs: the CRC-24's minimum distance is above four
(44_decoder R157). -/
theorem even_count_of_crcMatches {l : List Nat} (hl : ∀ p ∈ l, p < frameBits long) (hlen : l.length ≤ 4)
    (hf : crcMatches f long = true) (h : crcMatches (l.foldl flip f) long = true) (r : Nat) : l.count r % 2 = 0 := by
  induction hn : l.length using Nat.strongRecOn generalizing l with
  | ind n ih =>
    by_cases hnodup : l.Nodup
    · have hnil : l = [] := by
        refine Decidable.byContradiction fun hne => ?_
        rw [not_crcMatches_flips hl hne hnodup hlen hf] at h
        cases h
      rw [hnil, List.count_nil]
    · obtain ⟨p, rest, hperm⟩ := exists_perm_cons_cons_of_not_nodup hnodup
      have hcancel : l.foldl flip f = rest.foldl flip f := by
        rw [hperm.foldl_eq' (fun p _ q _ g => flip_comm g p q) f, List.foldl_cons, List.foldl_cons, flip_flip]
      have hlen' : l.length = rest.length + 2 := hperm.length_eq
      have hmem : ∀ q ∈ rest, q ∈ l := fun q hq =>
        hperm.mem_iff.mpr (List.mem_cons_of_mem p (List.mem_cons_of_mem p hq))
      have hrest := ih rest.length (by omega) (fun q hq => hl q (hmem q hq)) (by omega) (hcancel ▸ h) rfl
      rw [hperm.count_eq, List.count_cons, List.count_cons]
      omega

/-- So each inverted bit is inverted again. -/
theorem mem_rest_of_crcMatches {l rest : List Nat} (hperm : l.Perm (p :: rest)) (hl : ∀ p ∈ l, p < frameBits long)
    (hlen : l.length ≤ 4) (hf : crcMatches f long = true) (h : crcMatches (l.foldl flip f) long = true) :
    p ∈ rest := by
  have heven := even_count_of_crcMatches hl hlen hf h p
  rw [hperm.count_eq, List.count_cons_self] at heven
  exact List.count_pos_iff.mp (by omega)

/-! ### What the searches find -/

theorem singleSearch_some (h : singleSearch f long = some p) :
    p < frameBits long ∧ crcMatches (flip f p) long = true :=
  ⟨List.mem_range.mp (List.mem_of_find?_eq_some h), List.find?_some (p := fun p => crcMatches (flip f p) long) h⟩

theorem singleSearch_none (h : singleSearch f long = none) (hp : p < frameBits long) :
    crcMatches (flip f p) long = false := by
  simpa using List.find?_eq_none.mp h p (List.mem_range.mpr hp)

theorem pairSearch_some (h : pairSearch f long = some (p, q)) :
    p < q ∧ q < frameBits long ∧ crcMatches (flip (flip f p) q) long = true := by
  obtain ⟨p', hp, hmap⟩ := List.exists_of_findSome?_eq_some h
  obtain ⟨q', hq, heq⟩ := Option.map_eq_some_iff.mp hmap
  obtain ⟨rfl, rfl⟩ : p = p' ∧ q = q' := Prod.mk.inj heq.symm
  have hp := List.mem_range.mp hp
  have hmem := List.mem_range'_1.mp (List.mem_of_find?_eq_some hq)
  exact ⟨by omega, by omega, List.find?_some (p := fun q => crcMatches (flip (flip f p) q) long) hq⟩

theorem pairSearch_none (h : pairSearch f long = none) (hpq : p < q) (hq : q < frameBits long) :
    crcMatches (flip (flip f p) q) long = false := by
  have hp := List.findSome?_eq_none_iff.mp h p (List.mem_range.mpr (by omega))
  rw [Option.map_eq_none_iff] at hp
  simpa using List.find?_eq_none.mp hp q (List.mem_range'_1.mpr (by omega))

/-- A valid frame with one bit inverted is corrected there (44_decoder R146, R157). -/
theorem singleSearch_flip (hf : crcMatches f long = true) (hp : p < frameBits long) :
    singleSearch (flip f p) long = some p := by
  cases h : singleSearch (flip f p) long with
  | none =>
    have hno := singleSearch_none h hp
    rw [flip_flip, hf] at hno
    cases hno
  | some r =>
    obtain ⟨hr, hmatch⟩ := singleSearch_some h
    have hmem := mem_rest_of_crcMatches (l := [p, r]) (.refl _) (by simp [hp, hr]) (by simp) hf hmatch
    rw [List.mem_singleton.mp hmem]

/-- One more inverted bit makes no valid frame of one with two errors. -/
theorem singleSearch_flip_flip (hf : crcMatches f long = true) (hpq : p < q) (hq : q < frameBits long) :
    singleSearch (flip (flip f p) q) long = none := by
  cases h : singleSearch (flip (flip f p) q) long with
  | none => rfl
  | some r =>
    obtain ⟨hr, hmatch⟩ := singleSearch_some h
    have hp : p < frameBits long := Nat.lt_trans hpq hq
    have hl : ∀ x ∈ [p, q, r], x < frameBits long := by simp [hp, hq, hr]
    have hagain_p := mem_rest_of_crcMatches (.refl _) hl (by simp) hf hmatch
    have hagain_q := mem_rest_of_crcMatches (.swap q p [r]) hl (by simp) hf hmatch
    simp only [List.mem_cons, List.not_mem_nil, or_false] at hagain_p hagain_q
    omega

/-- A valid frame with two bits inverted is corrected there (44_decoder R147, R157). -/
theorem pairSearch_flip_flip (hf : crcMatches f long = true) (hpq : p < q) (hq : q < frameBits long) :
    pairSearch (flip (flip f p) q) long = some (p, q) := by
  have hp : p < frameBits long := Nat.lt_trans hpq hq
  cases h : pairSearch (flip (flip f p) q) long with
  | none =>
    have hno := pairSearch_none h hpq hq
    rw [flip_flip_flip_flip, hf] at hno
    cases hno
  | some c =>
    obtain ⟨p', q'⟩ := c
    obtain ⟨hpq', hq', hmatch⟩ := pairSearch_some h
    have hl : ∀ x ∈ [p, q, p', q'], x < frameBits long := by simp [hp, hq, hq', Nat.lt_trans hpq' hq']
    have hagain_p := mem_rest_of_crcMatches (.refl _) hl (by simp) hf hmatch
    have hagain_q := mem_rest_of_crcMatches (.swap q p [p', q']) hl (by simp) hf hmatch
    simp only [List.mem_cons, List.not_mem_nil, or_false] at hagain_p hagain_q
    obtain ⟨rfl, rfl⟩ : p' = p ∧ q' = q := by omega
    rfl

end Sys2Proof.Machine
end

/-! ## What correction does -/

section
namespace Sys2Proof.Machine

variable {c : Ctrl} {df : BitVec 5} {f : Frame} {long : Bool} {r : Corrected}

/-- What correction found for the frame `f` (44_decoder R145–R147): it matched, no search found a repair, or one did at
one bit or at two. -/
inductive CorrectionCase (c : Ctrl) (df : BitVec 5) (long : Bool) (f : Frame) : Corrected → Prop
  | matched (h : crcMatches f long = true) : CorrectionCase c df long f (uncorrected true f)
  | rejected (h : crcMatches f long = false) : CorrectionCase c df long f (uncorrected false f)
  | oneBit (p : Nat) (h : crcMatches f long = false) (hfix : c.fix = true) (hdf : selfIdentifying df = true)
      (hp : singleSearch f long = some p) :
      CorrectionCase c df long f { ok := true, frame := flip f p, ncorr := 1, e0 := BitVec.ofNat 8 p, e1 := 0xFF }
  | twoBits (p q : Nat) (h : crcMatches f long = false) (hfix : c.fix = true) (haggr : c.aggr = true) (hdf : df = 17)
      (hpq : pairSearch f long = some (p, q)) :
      CorrectionCase c df long f { ok := true, frame := flip (flip f p) q, ncorr := 2, e0 := BitVec.ofNat 8 p,
                                   e1 := BitVec.ofNat 8 q }

/-- All correction can do. -/
theorem correctFrame_cases (c : Ctrl) (df : BitVec 5) (long : Bool) (f : Frame) :
    CorrectionCase c df long f (correctFrame c df long f) := by
  unfold correctFrame
  split
  next h => exact .matched h
  next h =>
    have hno : crcMatches f long = false := Bool.not_eq_true _ ▸ h
    split
    next hen =>
      obtain ⟨hfix, hdf⟩ := (Bool.and_eq_true _ _).mp hen
      split
      next p hp => exact .oneBit p hno hfix hdf hp
      next =>
        split
        next hen2 =>
          obtain ⟨haggr, h17⟩ := (Bool.and_eq_true _ _).mp hen2
          split
          next p q hpq => exact .twoBits p q hno hfix haggr (beq_iff_eq.mp h17) hpq
          next => exact .rejected hno
        next => exact .rejected hno
    next => exact .rejected hno

theorem correctFrame_oneBit {p : Nat} (h : crcMatches f long = false) (hfix : c.fix = true)
    (hdf : selfIdentifying df = true) (hp : singleSearch f long = some p) : correctFrame c df long f
      = { ok := true, frame := flip f p, ncorr := 1, e0 := BitVec.ofNat 8 p, e1 := 0xFF } := by
  simp [correctFrame, h, hfix, hdf, hp]

theorem correctFrame_twoBits {p q : Nat} (h : crcMatches f long = false) (hfix : c.fix = true) (haggr : c.aggr = true)
    (hnone : singleSearch f long = none) (hpq : pairSearch f long = some (p, q)) : correctFrame c 17 long f
      = { ok := true, frame := flip (flip f p) q, ncorr := 2, e0 := BitVec.ofNat 8 p, e1 := BitVec.ofNat 8 q } := by
  simp [correctFrame, h, hfix, haggr, hnone, hpq, selfIdentifying]

/-- A result is marked as matching exactly when the final frame does (44_decoder R145). -/
theorem CorrectionCase.ok_eq (hr : CorrectionCase c df long f r) : r.ok = crcMatches r.frame long := by
  cases hr with
  | matched h => exact h.symm
  | rejected h => exact h.symm
  | oneBit p _ _ _ hp =>
    obtain ⟨-, hmatch⟩ := singleSearch_some hp
    exact hmatch.symm
  | twoBits p q _ _ _ _ hpq =>
    obtain ⟨-, -, hmatch⟩ := pairSearch_some hpq
    exact hmatch.symm

theorem CorrectionCase.ncorr_of_rejected (hr : CorrectionCase c df long f r) (h : r.ok = false) : r.ncorr = 0 := by
  cases hr with
  | matched | rejected => rfl
  | oneBit | twoBits => cases h

/-- Correction inverts no bit past the frame's length. -/
theorem CorrectionCase.fbit_past_length (hr : CorrectionCase c df long f r) {q : Nat} (hq : frameBits long ≤ q) :
    fbit r.frame q = fbit f q := by
  have hle := frameBits_le long
  have hkeep : ∀ {g : Frame} {p : Nat}, p < frameBits long → fbit (flip g p) q = fbit g q := fun {g p} hp => by
    rw [fbit_flip g (by omega), decide_eq_false (by omega), Bool.bne_false]
  cases hr with
  | matched | rejected => rfl
  | oneBit p _ _ _ hp =>
    obtain ⟨hlt, -⟩ := singleSearch_some hp
    exact hkeep hlt
  | twoBits p p' _ _ _ _ hpq =>
    obtain ⟨hlt, hlt', -⟩ := pairSearch_some hpq
    exact (hkeep hlt').trans (hkeep (Nat.lt_trans hlt hlt'))

/-! ### The frame that is decoded -/

theorem frameOf_true (f : Frame) : frameOf f true = f := rfl

/-- A frame is cut to its length (44_decoder R156). -/
theorem fbit_frameOf (f : Frame) (long : Bool) (q : Nat) :
    fbit (frameOf f long) q = (decide (q < frameBits long) && fbit f q) := by
  cases long with
  | true =>
    by_cases hq : q < 112
    · rw [frameOf_true, frameBits_true, decide_eq_true hq, Bool.true_and]
    · rw [frameOf_true, frameBits_true, decide_eq_false hq, Bool.false_and]
      exact BitVec.getMsbD_of_ge _ _ (Nat.le_of_not_lt hq)
  | false =>
    have hcut : frameOf f false = (f >>> 56) <<< 56 := rfl
    have hge : ¬ q + 56 < 56 := Nat.not_lt_of_le (Nat.le_add_left 56 q)
    rw [hcut, fbit, BitVec.getMsbD_shiftLeft, BitVec.getMsbD_ushiftRight, decide_eq_false hge, Nat.add_sub_cancel,
      frameBits_false, Bool.not_false, Bool.true_and]
    exact congrArg (· && fbit f q) (decide_eq_decide.mpr (by omega))

/-- A frame that ends at its length keeps so with a bit inverted within it. -/
theorem frameOf_flip {p : Nat} (hf : frameOf f long = f) (hp : p < frameBits long) :
    frameOf (flip f p) long = flip f p := by
  have hle := frameBits_le long
  refine frame_ext fun q _ => ?_
  have hbit := congrArg (fbit · q) hf
  simp only [fbit_frameOf] at hbit
  rw [fbit_frameOf, fbit_flip f (by omega)]
  by_cases hq : q < frameBits long
  · rw [decide_eq_true hq, Bool.true_and]
  · rw [decide_eq_false hq, Bool.false_and] at hbit ⊢
    rw [← hbit, decide_eq_false (by omega)]
    rfl

/-- What matching and correcting the received buffer `cf` found. -/
def corrected (c : Ctrl) (cf : Frame) : Corrected :=
  correctFrame c (downlinkFormat cf) (longFormat (downlinkFormat cf)) (frameOf cf (longFormat (downlinkFormat cf)))

section
variable (g : Params) (c : Ctrl) (now : Word) (cache : Cache) (cf : Frame)

theorem corrected_cases : CorrectionCase c (downlinkFormat cf) (longFormat (downlinkFormat cf))
    (frameOf cf (longFormat (downlinkFormat cf))) (corrected c cf) := correctFrame_cases ..

theorem decodeFrame_ncorr : (decodeFrame g c now cache cf).status.ncorr = (corrected c cf).ncorr := rfl

theorem decodeFrame_e0 : (decodeFrame g c now cache cf).e0 = (corrected c cf).e0 := rfl

theorem decodeFrame_e1 : (decodeFrame g c now cache cf).e1 = (corrected c cf).e1 := rfl

theorem decodeFrame_frame : (decodeFrame g c now cache cf).frame = (corrected c cf).frame := rfl

theorem decodeFrame_long :
    (decodeFrame g c now cache cf).status.long = longFormat (downlinkFormat cf) := rfl

/-- A frame that does not match is accepted through the cache alone (44_decoder R145, R148). -/
theorem decodeFrame_ap_iff : (decodeFrame g c now cache cf).status.ap = true ↔ (corrected c cf).ok = false
    ∧ addressParity (downlinkFormat cf) = true
    ∧ cache.recent g now (syndrome (corrected c cf).frame (longFormat (downlinkFormat cf))) = true := by
  rw [← and_assoc, ← Bool.not_eq_true', ← Bool.and_eq_true, ← Bool.and_eq_true]
  rfl

theorem decodeFrame_ok : (decodeFrame g c now cache cf).status.ok
    = ((corrected c cf).ok || (decodeFrame g c now cache cf).status.ap) := rfl

end

/-- A decode reports what matching and correcting found. -/
theorem decodeFrame_of_corrected (g : Params) (now : Word) (cache : Cache) {cf f : Frame} {n : BitVec 2} {e0 e1 : Byte}
    (h : corrected c cf = { ok := true, frame := f, ncorr := n, e0 := e0, e1 := e1 }) :
    (decodeFrame g c now cache cf).status.ok = true ∧ (decodeFrame g c now cache cf).status.ncorr = n
      ∧ (decodeFrame g c now cache cf).e0 = e0 ∧ (decodeFrame g c now cache cf).e1 = e1
      ∧ (decodeFrame g c now cache cf).frame = f := by
  rw [decodeFrame_ok, decodeFrame_ncorr, decodeFrame_e0, decodeFrame_e1, decodeFrame_frame, h]
  exact ⟨Bool.true_or _, rfl, rfl, rfl, rfl⟩

/-! ### Repaired frames -/

/-- Settles O27: the flipped frame does not match, and the search finds the flipped bit alone. -/
theorem singleBitErrorIsRepaired : Obligations.SingleBitErrorIsRepaired := by
  intro g c now cache f long p hcut hf hp hfix hdf hlong
  have hno : crcMatches (flip f p) long = false :=
    not_crcMatches_flips (l := [p]) (by simpa using hp) (by simp) (by simp) (by simp) hf
  have hfound : corrected c (flip f p)
      = { ok := true, frame := f, ncorr := 1, e0 := BitVec.ofNat 8 p, e1 := 0xFF } := by
    rw [corrected, hlong, frameOf_flip hcut hp, correctFrame_oneBit hno hfix hdf (singleSearch_flip hf hp), flip_flip]
  exact decodeFrame_of_corrected g now cache hfound

/-- Settles O28: no single bit repairs two errors, and the pair search finds the two flipped bits alone. -/
theorem doubleBitErrorIsRepaired : Obligations.DoubleBitErrorIsRepaired := by
  intro g c now cache f p q hf hpq hq hfix haggr hdf
  have hno : crcMatches (flip (flip f p) q) true = false :=
    not_crcMatches_flips (l := [p, q]) (by simp [frameBits_true, hq, Nat.lt_trans hpq hq]) (by simp)
      (by simpa using Nat.ne_of_lt hpq) (by simp) hf
  have hfound : corrected c (flip (flip f p) q)
      = { ok := true, frame := f, ncorr := 2, e0 := BitVec.ofNat 8 p, e1 := BitVec.ofNat 8 q } := by
    rw [corrected, hdf]
    refine (correctFrame_twoBits hno hfix haggr (singleSearch_flip_flip hf hpq hq)
      (pairSearch_flip_flip hf hpq hq)).trans ?_
    rw [flip_flip_flip_flip]
  exact decodeFrame_of_corrected g now cache hfound

/-- Settles O30: by the cases of correction. -/
theorem correctionNeedsItsEnables : Obligations.CorrectionNeedsItsEnables := by
  refine ⟨?_, fbit_frameOf, fun f p q hp => fbit_flip f hp q⟩
  rintro g c now cache cf r rfl
  have hcase := corrected_cases c cf
  have hle := frameBits_le (longFormat (downlinkFormat cf))
  simp only [decodeFrame_long, decodeFrame_ok, decodeFrame_ncorr, decodeFrame_e0, decodeFrame_e1, decodeFrame_frame]
  generalize corrected c cf = r at hcase ⊢
  generalize longFormat (downlinkFormat cf) = long at hcase hle ⊢
  generalize frameOf cf long = f at hcase ⊢
  cases hcase with
  | matched h => simp [uncorrected]
  | rejected h => simp [uncorrected, (crcMatches_eq_false_iff f long).mp h]
  | oneBit p h hfix hdf hp =>
    obtain ⟨hlt, -⟩ := singleSearch_some hp
    have hnat : p % 256 = p := Nat.mod_eq_of_lt (by omega)
    simpa [(crcMatches_eq_false_iff f long).mp h, hfix, hnat, hlt] using (selfIdentifying_iff _).mp hdf
  | twoBits p q h hfix haggr hdf hpq =>
    obtain ⟨hlt, hlt', -⟩ := pairSearch_some hpq
    have hnat : p % 256 = p := Nat.mod_eq_of_lt (by omega)
    have hnat' : q % 256 = q := Nat.mod_eq_of_lt (by omega)
    simp [(crcMatches_eq_false_iff f long).mp h, hfix, haggr, hdf, hnat, hnat', hlt, hlt']

/-! ### What a decode reports -/

/-- The downlink format is the top five bits of byte 0 (44_decoder R142). -/
theorem toNat_downlinkFormat (f : Frame) : (downlinkFormat f).toNat = (frameByte f 0).toNat / 8 := by
  rw [downlinkFormat, frameByte, if_pos (by decide), BitVec.extractLsb'_toNat, BitVec.extractLsb'_toNat,
    Nat.shiftRight_eq_div_pow, Nat.shiftRight_eq_div_pow]
  omega

theorem getMsbD_downlinkFormat (f : Frame) {q : Nat} (hq : q < 5) : (downlinkFormat f).getMsbD q = fbit f q :=
  (getMsbD_extractLsb'_frame f (start := 107) (by decide) hq).trans (congrArg (fbit f) (Nat.zero_add q))

theorem getMsbD_frameByte (f : Frame) {k q : Nat} (hk : k < 14) (hq : q < 8) :
    (frameByte f k).getMsbD q = fbit f (8 * k + q) := by
  have hpos : 7 - (8 - 1 - q) = q := by omega
  rw [BitVec.getMsbD, decide_eq_true hq, Bool.true_and, getLsbD_frameByte f k (by omega), decide_eq_true hk,
    Bool.true_and, hpos]

theorem frameBytes_eq (f : Frame) : frameByte f 1 ++ frameByte f 2 ++ frameByte f 3 = f.extractLsb' 80 24 := by
  have hhigh : f.extractLsb' 96 8 ++ f.extractLsb' 88 8 = f.extractLsb' 88 16 :=
    BitVec.extractLsb'_append_extractLsb'_eq_extractLsb' rfl
  calc frameByte f 1 ++ frameByte f 2 ++ frameByte f 3
      = f.extractLsb' 96 8 ++ f.extractLsb' 88 8 ++ f.extractLsb' 80 8 := rfl
    _ = f.extractLsb' 88 16 ++ f.extractLsb' 80 8 := by rw [hhigh]
    _ = f.extractLsb' 80 24 := BitVec.extractLsb'_append_extractLsb'_eq_extractLsb' rfl

theorem longFormat_iff (df : BitVec 5) : longFormat df = true ↔ 16 ≤ df.toNat := by
  decide +revert

theorem addressParity_iff (df : BitVec 5) : addressParity df = true ↔ df.toNat ∈ addressParityFormats := by
  decide +revert

/-- The address in the address-parity formats (44_decoder R149). -/
theorem frameAddress_of_parity {df : BitVec 5} (h : addressParity df = true) (long : Bool) (f : Frame) :
    frameAddress df long f = syndrome f long := if_pos h

/-- Settles O29: the result is marked as matching exactly when the final frame does, and what does not match is accepted
through the cache alone. -/
theorem acceptedFramesMatchOrAreConfirmed : Obligations.AcceptedFramesMatchOrAreConfirmed := by
  rintro g c now cache cf r rfl
  have hcase := corrected_cases c cf
  have hmatch : (corrected c cf).ok = true
      ↔ (decodeFrame g c now cache cf).crcf = (decodeFrame g c now cache cf).crcc := by
    rw [hcase.ok_eq]
    exact beq_iff_eq
  have haa : addressParity (downlinkFormat cf) = true → (decodeFrame g c now cache cf).aa
      = syndrome (corrected c cf).frame (longFormat (downlinkFormat cf)) := fun hdf => frameAddress_of_parity hdf ..
  have hap := decodeFrame_ap_iff g c now cache cf
  refine ⟨toNat_downlinkFormat cf, fun q hq => getMsbD_downlinkFormat cf hq,
    fun k q hk hq => getMsbD_frameByte cf hk hq, rfl, longFormat_iff _, rfl, rfl, fun q hq => ?_, fun hdf => ?_,
    fun hdf => ?_, fun hacc => ?_, ?_, fun hrej => ?_⟩
  · have hpast : ¬ q < frameBits (longFormat (downlinkFormat cf)) := Nat.not_lt_of_le hq
    rw [decodeFrame_frame, hcase.fbit_past_length hq, fbit_frameOf, decide_eq_false hpast, Bool.false_and]
  · exact frameAddress_of_parity ((addressParity_iff _).mpr hdf) ..
  · rw [frameBytes_eq]
    exact if_neg (mt (addressParity_iff _).mp hdf)
  · cases hm : (corrected c cf).ok with
    | true => exact .inl ⟨by simp [← Bool.not_eq_true, hap, hm], hmatch.mp hm⟩
    | false =>
      have hap1 : (decodeFrame g c now cache cf).status.ap = true := by simpa [decodeFrame_ok, hm] using hacc
      obtain ⟨-, hdf, hseen⟩ := hap.mp hap1
      exact .inr ⟨hap1, fun h => by simp [hmatch.mpr h] at hm, hcase.ncorr_of_rejected hm,
        (addressParity_iff _).mp hdf, haa hdf ▸ hseen⟩
  · rw [decodeFrame_cw, Bool.and_eq_true, selfIdentifying_iff]
    rfl
  · obtain ⟨hm, hap0⟩ := Bool.or_eq_false_iff.mp ((decodeFrame_ok g c now cache cf).symm.trans hrej)
    refine ⟨hap0, fun h => by simp [hmatch.mpr h] at hm, fun hdf => ?_⟩
    have hdf := (addressParity_iff _).mpr hdf
    simpa [← Bool.not_eq_true, hap, hm, hdf, haa hdf] using hap0

end Sys2Proof.Machine
end

/-! ## The cache and its slot function -/

section
namespace Sys2Proof.Machine

variable {c : Cache} {g : Params} {a : Word24} {ts now : Word}

/-! ### Lookup and insertion -/

/-- An age modulo `2^32`, in plain arithmetic (44_decoder R151). -/
theorem toNat_age (now ts : Word) : (now - ts).toNat = (now.toNat + 2 ^ 32 - ts.toNat) % 2 ^ 32 := by
  rw [BitVec.toNat_sub]
  congr 1
  have := ts.isLt
  omega

/-- When an address is recently seen (44_decoder R151). -/
theorem Cache.recent_iff : c.recent g now a = true ↔ ∃ e, c.slot (slotOf g a) = some e ∧ e.addr = a ∧
    (now.toNat + 2 ^ 32 - e.ts.toNat) % 2 ^ 32 ≤ 60 := by
  unfold Cache.recent
  cases c.slot (slotOf g a) with
  | none => simp
  | some e => simp only [Bool.and_eq_true, beq_iff_eq, decide_eq_true_eq, toNat_age, Config.icaoTtl, Option.some.injEq,
      exists_eq_left']

theorem Cache.slot_cons (x : Nat × CacheEntry) (c : Cache) (i : Nat) :
    Cache.slot (x :: c) i = if x.1 = i then some x.2 else c.slot i := by
  by_cases h : x.1 = i <;> simp [Cache.slot, h]

theorem Cache.slot_append (c d : Cache) (i : Nat) : Cache.slot (c ++ d) i = (c.slot i).or (d.slot i) := by
  simp only [Cache.slot, List.find?_append, Option.map_or]

/-- Slots picked out by their number are kept whole. -/
theorem Cache.slot_filter (p : Nat → Bool) (c : Cache) (i : Nat) :
    Cache.slot (c.filter (fun x => p x.1)) i = if p i = true then c.slot i else none := by
  induction c with
  | nil => simp [Cache.slot]
  | cons x c ih =>
    rw [List.filter_cons]
    by_cases hx : x.1 = i
    · subst hx
      split <;> simp_all [Cache.slot_cons]
    · split <;> simp [Cache.slot_cons, hx, ih]

/-- What each slot holds after an insertion (44_decoder R152). -/
theorem Cache.slot_insert (c : Cache) (g : Params) (ts : Word) (a : Word24) (i : Nat) :
    (c.insert g ts a).slot i = if slotOf g a = i then some { addr := a, ts := ts } else c.slot i := by
  have hlow := c.slot_filter (fun k => decide (k < slotOf g a)) i
  have hhigh := c.slot_filter (fun k => decide (slotOf g a < k)) i
  simp only [Cache.insert, Cache.slot_append, Cache.slot_cons, hlow, hhigh, decide_eq_true_eq]
  obtain hlt | heq | hgt := Nat.lt_trichotomy i (slotOf g a)
  · rw [if_pos hlt, if_neg (Nat.ne_of_gt hlt), if_neg (Nat.lt_asymm hlt), Option.or_none, if_neg (Nat.ne_of_gt hlt)]
  · rw [if_neg (Nat.not_lt_of_le (Nat.le_of_eq heq.symm)), Option.none_or, if_pos heq.symm, if_pos heq.symm]
  · rw [if_neg (Nat.lt_asymm hgt), Option.none_or, if_neg (Nat.ne_of_lt hgt), if_pos hgt, if_neg (Nat.ne_of_lt hgt)]

theorem Cache.recent_insert_same :
    (c.insert g ts a).recent g now a = true ↔ (now.toNat + 2 ^ 32 - ts.toNat) % 2 ^ 32 ≤ 60 := by
  simp [Cache.recent_iff, Cache.slot_insert]

/-- Settles O32: by the slot an insertion writes and the slots it leaves. -/
theorem insertedAddressIsRecentForItsTtl : Obligations.InsertedAddressIsRecentForItsTtl := by
  intro g c ts now a b
  refine ⟨Cache.recent_iff, (c.slot_insert g ts a _).trans (if_pos rfl),
    fun i hi => (c.slot_insert g ts a i).trans (if_neg hi.symm), Cache.recent_insert_same, fun hne hslot => ?_⟩
  rw [← Bool.not_eq_true, Cache.recent_iff, hslot, Cache.slot_insert, if_pos rfl]
  rintro ⟨e, he, haddr, -⟩
  obtain rfl := Option.some.inj he
  exact hne haddr.symm

/-! ### The slot function -/

theorem toNat_hashRound (h : Word) :
    (hashRound h).toNat = ((h.toNat >>> 16) ^^^ h.toNat) * 0x045D9F3B % 2 ^ 32 := by
  rw [hashRound, BitVec.toNat_mul, BitVec.toNat_xor, BitVec.toNat_ushiftRight]
  rfl

/-- Settles O34: each round of the hash is its arithmetic, and the low ten bits are the remainder by 1024. -/
theorem slotFunctionIsTheDefault : Obligations.SlotFunctionIsTheDefault := by
  refine fun g a => ⟨fun hdefault => ?_, slotOf_lt g a⟩
  have hwide : (a.setWidth 32).toNat = a.toNat := BitVec.toNat_setWidth_of_le (by decide)
  have hmask : ∀ n : Nat, n % Config.icaoSlots = n &&& 0x3FF := fun n => (Nat.and_two_pow_sub_one_eq_mod n 10).symm
  simp only [slotOf, hdefault, icaoHash, hmask, BitVec.toNat_xor, BitVec.toNat_ushiftRight, toNat_hashRound, hwide]

end Sys2Proof.Machine
end

/-! ## CRC, DECODE and PROBE -/

section
namespace Sys2Proof.Machine

variable {s : State}

/-- A command that passes its checks, with an effect that leaves PENDING, completes on an idle block with its effect and
DONE (45_system R173). -/
theorem exec_completes {i : Instr} {t : State} (hb : s.busy = false) (hpass : issueError i (ownCheck i s) s = none)
    (heffect : commandEffect i (s.start (encode i)) = t.start (encode i)) (ht : t.busy = false) :
    exec i s = .next { t with done := true } := by
  rw [exec_eq_runCommand, runCommand_accepted hb hpass, heffect, State.complete_start _ _ ht]

/-- Settles O33: the effect is the lookup and the slot number. -/
theorem probeReportsTheSlot : Obligations.ProbeReportsTheSlot := by
  intro a s hb
  exact ⟨{ recent := s.cache.recent s.params s.now a, slot := BitVec.ofNat 10 (slotOf s.params a) }, Cache.recent_iff,
    Nat.mod_eq_of_lt (slotOf_lt s.params a),
    exec_completes (t := effectProbe a s) hb (issueError_of_permitted rfl rfl _) rfl hb⟩

/-- Settles O31: the effect is the decode of FRAME_IN and its cache write. -/
theorem decodeReportsTheInputFrame : Obligations.DecodeReportsTheInputFrame := by
  intro s hb hmode
  have hexec : exec .decode s = .next { effectDecode s with done := true } :=
    exec_completes hb (issueError_of_permitted rfl (by rw [hmode]; rfl) _) rfl hb
  refine ⟨_, rfl, rfl, rfl, hexec.trans ?_⟩
  simp only [effectDecode, cacheAfter, decodeFrame_cw, Bool.and_eq_true, selfIdentifying_iff]
  rfl

theorem wellFormed_crc {lsel : BitVec 2} (h : lsel.toNat < 3) : (Instr.crc lsel).wellFormed = true := by
  decide +revert

theorem crcLong_iff {lsel : BitVec 2} {df : BitVec 5} (h : lsel.toNat < 3) :
    crcLong lsel df = true ↔ lsel.toNat = 2 ∨ (lsel.toNat = 0 ∧ 16 ≤ df.toNat) := by
  decide +revert

/-- Settles O25: LSEL = 3 is no command; any other selects the length whose CRC and parity field are compared. -/
theorem crcChecksTheInputFrame : Obligations.CrcChecksTheInputFrame := by
  refine fun lsel s hb =>
    ⟨fun hlt => ⟨crcLong lsel (downlinkFormat s.frameIn), crcLong_iff hlt, ?_⟩, fun hsel => ?_⟩
  · have hmatch : ∀ long, decide (crc24 s.frameIn long = parityField s.frameIn long) = crcMatches s.frameIn long :=
      fun _ => decide_eq_decide.mpr eq_comm
    rw [hmatch]
    exact exec_completes (t := effectCrc lsel s) hb (issueError_of_permitted (wellFormed_crc hlt) rfl _) rfl hb
  · obtain rfl : lsel = 3 := BitVec.eq_of_toNat_eq hsel
    exact exec_refused hb rfl

end Sys2Proof.Machine
end

/-! ## Which steps write the cache and the FIFO -/

section
namespace Sys2Proof.Machine

variable {s t : State}

/-- `t` has the FIFO and, but for DECODE, the cache of `s`, as a turn that executes the command `run`, if any, other
than SCAN leaves them (44_decoder R153, 10_state R37). -/
def State.KeepsDecodes (s t : State) (run : Option Instr) : Prop :=
  run ≠ some .scan → (run ≠ some .decode → t.cache = s.cache) ∧ t.mq = s.mq

theorem State.KeepsDecodes.of_eq {run : Option Instr} (hcache : t.cache = s.cache) (hmq : t.mq = s.mq) :
    s.KeepsDecodes t run := fun _ => ⟨fun _ => hcache, hmq⟩

/-- Of the commands' effects SCAN's alone reaches the FIFO, and SCAN's and DECODE's the cache. -/
theorem commandEffect_keepsDecodes (i : Instr) (s : State) : s.KeepsDecodes (commandEffect i s) (some i) := by
  cases i with
  | scan => exact fun h => absurd rfl h
  | decode => exact fun _ => ⟨fun h => absurd rfl h, rfl⟩
  | nop | fft | fmdemod | mag | crc | probe => exact .of_eq rfl rfl

theorem exec_keepsDecodes {i : Instr} (h : exec i s = .next t) : s.KeepsDecodes t (some i) := by
  rw [exec_eq_runCommand] at h
  obtain ⟨-, rfl⟩ | ⟨-, e, -, rfl⟩ | ⟨-, -, rfl⟩ := runCommand_cases h
  · exact .of_eq rfl rfl
  · exact .of_eq rfl rfl
  · exact commandEffect_keepsDecodes i (s.start (encode i))

theorem issue_keepsDecodes (i : Instr) (s : State) : s.KeepsDecodes (issue i s) none := by
  obtain ⟨-, h⟩ | ⟨-, e, -, h⟩ | ⟨-, -, h⟩ := issue_cases i s <;> rw [h] <;> exact .of_eq rfl rfl

/-- A sequencer's turn executes the command in flight. -/
theorem sequencerTurn_keepsDecodes (h : sequencerTurn s = .next t) : s.KeepsDecodes t s.inFlight := by
  cases hb : s.busy with
  | false =>
    rw [sequencerTurn_idle hb] at h
    obtain rfl := Host.Outcome.next.inj h
    exact .of_eq rfl rfl
  | true =>
    rw [sequencerTurn_busy hb] at h
    obtain ⟨-, rfl⟩ | ⟨w, i, hw, hdec, rfl⟩ := finish_cases h
    · exact .of_eq rfl rfl
    · have hrun : s.inFlight = some i := by
        rw [State.inFlight, show s.pending = some w from hw, Option.bind_some, hdec]
        rfl
      rw [hrun]
      exact commandEffect_keepsDecodes i s.redraw

/-- The command a write of the word `v` to CMD executes: none on a held turn (log 2). -/
def executedWord (held : Bool) (v : Word) : Option Instr := if held then none else (decode v).toOption

theorem issueWord_keepsDecodes {held : Bool} {v : Word} (h : issueWord held v s = .next t) :
    s.KeepsDecodes t (executedWord held v) := by
  cases hdec : decode v with
  | error e =>
    rw [issueWord, hdec] at h
    obtain rfl := Host.Outcome.next.inj h
    exact .of_eq rfl rfl
  | ok i =>
    rw [issueWord_command hdec] at h
    cases held with
    | true =>
      obtain rfl := Host.Outcome.next.inj h
      exact issue_keepsDecodes i s
    | false =>
      have hrun : executedWord false v = some i := by rw [executedWord, hdec]; rfl
      exact hrun ▸ exec_keepsDecodes h

/-- A MODE write resets the pipeline, which is neither the cache nor the FIFO (45_system R174). -/
theorem writeMode_keepsDecodes (s : State) (v : Word) : s.KeepsDecodes (s.writeMode v) none := by
  unfold State.writeMode
  split <;> exact .of_eq rfl rfl

/-- Apart from CMD and MSG_POP, no write reaches the cache or the FIFO. -/
theorem writePlace_keepsDecodes {held : Bool} {q : Place} {v : Word} (hcmd : q ≠ .reg .cmd) (hpop : q ≠ .reg .msgPop)
    (h : writePlace held q v s = .next t) : s.KeepsDecodes t none := by
  cases q with
  | reg r =>
    cases r with
    | mode =>
      obtain rfl := Host.Outcome.next.inj h
      exact writeMode_keepsDecodes s v
    | cmd => exact absurd rfl hcmd
    | msgPop => exact absurd rfl hpop
    | _ =>
      obtain rfl := Host.Outcome.next.inj h
      exact .of_eq rfl rfl
  | _ =>
    obtain rfl := Host.Outcome.next.inj h
    exact .of_eq rfl rfl

/-- The command that a host's access executes, if any. -/
def executedAccess (held : Bool) (a : Access) (s : State) : Option Instr :=
  if s.busy = false ∧ a.place s.params = some (.reg .cmd) ∧ a.kind = .write then executedWord held a.data else none

/-- A host's access keeps cache and FIFO but for the command it executes, or takes the oldest record by a write of
MSG_POP. -/
theorem hostAccess_keepsDecodes {held : Bool} {a : Access} (h : hostAccess held a s = .next t) :
    s.KeepsDecodes t (executedAccess held a s) ∨
      (t.cache = s.cache ∧ t.mq = s.mq.tail ∧ a.kind = .write ∧ a.place s.params = some (.reg .msgPop)) := by
  obtain ⟨-, rfl⟩ | ⟨q, -, -, rfl⟩ | ⟨q, e, -, -, -, rfl⟩ | ⟨q, hq, hk, hok, hw⟩ := hostAccess_cases h
  · exact .inl (.of_eq rfl rfl)
  · exact .inl (.of_eq rfl rfl)
  · exact .inl (.of_eq rfl rfl)
  · obtain ⟨-, hidle⟩ := State.writeRefusal_eq_none hok
    by_cases hpop : q = .reg .msgPop
    · subst hpop
      obtain rfl := Host.Outcome.next.inj hw
      exact .inr ⟨rfl, rfl, hk, hq⟩
    by_cases hcmd : q = .reg .cmd
    · subst hcmd
      have hrun : executedAccess held a s = executedWord held a.data :=
        if_pos ⟨hidle.resolve_left (by decide), hq, hk⟩
      exact .inl (hrun ▸ issueWord_keepsDecodes (s := s.respond 0) hw)
    · have hrun : executedAccess held a s = none := if_neg fun ⟨_, hplace, _⟩ =>
        hcmd (Option.some.inj (hq.symm.trans hplace))
      exact .inl (hrun ▸ writePlace_keepsDecodes (s := s.respond 0) hcmd hpop hw)

/-- `t` has the cache of `s` and its FIFO less the oldest record, by the host's write of MSG_POP (45_system R176). -/
def State.PopsTo (s t : State) : Prop :=
  t.cache = s.cache ∧ t.mq = s.mq.tail ∧
    ∃ a, s.nextAccess = some a ∧ a.kind = .write ∧ a.place s.params = some (.reg .msgPop)

theorem hostTurn_keepsDecodes {held : Bool} {a : Access} {rest : List Turn} (hnext : s.nextAccess = some a)
    (hrun : s.running = executedAccess held a s) (h : hostTurn held a { s with agenda := rest } = .next t) :
    s.KeepsDecodes t s.running ∨ s.PopsTo t := by
  rw [hrun]
  exact (hostAccess_keepsDecodes ((hostTurn_eq held a s rest).symm.trans h)).imp id
    fun ⟨hcache, hmq, hk, hp⟩ => ⟨hcache, hmq, a, hnext, hk, hp⟩

/-- All a step but a reset can do to the cache and the FIFO. -/
theorem step_keepsDecodes (h : step s = .next t) (hreset : s.agenda.head? ≠ some .reset) :
    s.KeepsDecodes t s.running ∨ s.PopsTo t := by
  obtain ⟨-, -, rfl⟩ | ⟨ha, -, ht⟩ | ⟨x, rest, ha, ht⟩ := step_cases h
  · exact .inl (.of_eq rfl rfl)
  · have hrun : s.running = s.inFlight := by rw [State.running, ha]
    exact .inl (hrun ▸ sequencerTurn_keepsDecodes ht)
  · cases x with
    | host a => exact hostTurn_keepsDecodes (by rw [State.nextAccess, ha]) (by rw [State.running, ha]; rfl) ht
    | hostHeld a =>
      exact hostTurn_keepsDecodes (by rw [State.nextAccess, ha]) (by rw [State.running, ha]; exact (ite_self _).symm) ht
    | sequencer =>
      have hrun : s.running = s.inFlight := by rw [State.running, ha]
      exact .inl (hrun ▸ sequencerTurn_keepsDecodes (s := { s with agenda := rest }) ht)
    | reset => exact absurd (by rw [ha]; rfl) hreset

/-- Settles O56: but for MSG_POP a step leaves what the command it executes leaves. -/
theorem onlyDecodingWritesCacheAndFifo : Obligations.OnlyDecodingWritesCacheAndFifo := by
  intro s t hstep hreset hscan
  obtain hkeep | ⟨hcache, hmq, hpop⟩ := step_keepsDecodes hstep hreset
  · obtain ⟨hcache, hmq⟩ := hkeep hscan
    exact ⟨hcache, .inl hmq⟩
  · exact ⟨fun _ => hcache, .inr ⟨hmq, hpop⟩⟩

end Sys2Proof.Machine
end

/-! ## Issue and completion -/

section
namespace Sys2Proof.Machine

variable {s : State}

/-! ### The two steps of a command -/

theorem issue_accepted {i : Instr} (hb : s.busy = false) (h : issueError i (ownCheck i s) s = none) :
    issue i s = s.start (encode i) := by
  simp [issue, hb, h]

theorem issue_refused {i : Instr} {e : ErrCode} (hb : s.busy = false)
    (h : issueError i (ownCheck i s) s = some e) : issue i s = s.recorded e := by
  simp only [issue, hb, h]
  rfl

theorem finish_idle (hb : s.busy = false) : finish s = .next s := by
  simp [finish, s.busy_eq_false_iff.mp hb]

theorem finish_inFlight {w : Word} {i : Instr} (hw : s.pending = some w) (hdec : decode w = .ok i) :
    finish s = .next (commandEffect i s).complete := by
  simp [finish, hw, hdec]

/-- An issue checks the word's form first, so the word it puts in flight is one that `finish` decodes to the command. -/
theorem finish_issue (i : Instr) (hb : s.busy = false) : finish (issue i s) = exec i s := by
  cases hcheck : issueError i (ownCheck i s) s with
  | none =>
    obtain ⟨hwf, -, -⟩ := issueError_eq_none hcheck
    rw [issue_accepted hb hcheck, finish_inFlight (s.start_pending _) (decode_encode hwf), exec_eq_runCommand,
      runCommand_accepted hb hcheck]
  | some e => rw [issue_refused hb hcheck, finish_idle (s := s.recorded e) hb, exec_refused hb hcheck]

/-- Settles O6: by the outcome of the issue checks. -/
theorem finishOfIssueIsTheCommand : Obligations.FinishOfIssueIsTheCommand := by
  refine fun i s hb => ⟨fun hpass => ?_, fun e hfail => issue_refused hb hfail, finish_issue i hb⟩
  rw [issue_accepted hb hpass]
  exact ⟨rfl, rfl⟩

/-! ### The turns that run a command -/

theorem State.busy_of_pending {v : Word} (h : s.pending = some v) : s.busy = true := by
  simp [State.busy, h]

/-- The sequencer's turn executes and completes the command in flight. -/
theorem sequencerTurn_inFlight {v : Word} {i : Instr} (hw : s.pending = some v) (hdec : decode v = .ok i) :
    sequencerTurn s = .next (commandEffect i s.redraw).complete := by
  rw [sequencerTurn_busy (State.busy_of_pending hw), finish_inFlight (s := s.redraw) hw hdec]

theorem step_sequencer {rest : List Turn} (ha : s.agenda = .sequencer :: rest) :
    step s = sequencerTurn { s with agenda := rest } := by
  rw [step, ha]
  rfl

theorem step_no_turn (ha : s.agenda = []) (hb : s.busy = true) : step s = sequencerTurn s := by
  rw [step, ha]
  exact if_pos hb

/-- Settles O5: a write of CMD issues its word, and a busy block's sequencer finishes the one in flight. -/
theorem stepRunsTheDecodedCommand : Obligations.StepRunsTheDecodedCommand := by
  refine fun s rest v i hdec => ⟨fun hb ha => ?_, fun hb ha => ?_, fun hw ha => ?_, fun hw ha => ?_⟩
  · exact (step_cmdTurn (held := false) hb ha).trans (issueWord_command hdec false _)
  · exact (step_cmdTurn (held := true) hb ha).trans (issueWord_command hdec true _)
  · exact (step_sequencer ha).trans (sequencerTurn_inFlight (s := { s with agenda := rest }) hw hdec)
  · exact (step_no_turn ha (State.busy_of_pending hw)).trans (sequencerTurn_inFlight hw hdec)

/-- Settles O7: NOP has no check to fail and no effect. -/
theorem nopSetsDoneAlone : Obligations.NopSetsDoneAlone := fun _ hb =>
  exec_completes hb (issueError_of_permitted rfl rfl _) rfl hb

end Sys2Proof.Machine
end

/-! ## Mode permissions -/

section
namespace Sys2Proof.Machine

variable {s t : State}

/-- The commands and modes that 45_system R171 marks as not permitted. -/
theorem permitted_eq_false_iff {i : Instr} {m : Mode} : permitted i m = false ↔
    (m ≠ .fm ∧ ∃ f, i = .fmdemod f) ∨ (m ≠ .surv ∧ (i = .mag ∨ i = .scan ∨ i = .decode)) := by
  cases i <;> simp [permitted]

theorem issueError_of_not_permitted {i : Instr} (hwf : i.wellFormed = true) (hmode : permitted i s.mode = false)
    (own : Option ErrCode) : issueError i own s = some .mode := by
  simp [issueError, hwf, hmode]

/-- A command's own check raises the codes of its arguments alone (45_system R170). -/
theorem ownCheck_eq_some {i : Instr} {e : ErrCode} (h : ownCheck i s = some e) :
    e = .fftSize ∨ e = .iqLen ∨ e = .decim := by
  cases i with
  | fft n =>
    simp only [ownCheck, checkFftSize, Option.ite_none_right_eq_some, Option.some.injEq] at h
    exact .inl h.2.symm
  | fmdemod f =>
    simp only [ownCheck, checkFmdemod] at h
    cases hlen : checkIqLen s with
    | some e' =>
      simp only [hlen, Option.some.injEq] at h
      exact .inr (.inl (h ▸ checkIqLen_eq_some hlen))
    | none =>
      simp only [hlen, Option.ite_none_right_eq_some, Option.some.injEq] at h
      exact .inr (.inr h.2.symm)
  | mag => exact .inr (.inl (checkIqLen_eq_some h))
  | nop | scan | crc lsel | decode | probe a => cases h

/-- E_MODE is the failure of the mode check and of no other. -/
theorem not_permitted_of_issueError {i : Instr} (h : issueError i (ownCheck i s) s = some .mode) :
    permitted i s.mode = false := by
  unfold issueError at h
  split at h
  · cases h
  · split at h
    case isTrue hmode => simpa using hmode
    case isFalse => exact absurd (ownCheck_eq_some h) (by decide)

theorem State.ScannedTo.errCode_eq (h : s.ScannedTo t) : t.errCode = s.errCode := by
  rw [h]

/-- The effect of a command records no error: it cannot fail (45_system R170). -/
theorem commandEffect_errCode (i : Instr) (s : State) : (commandEffect i s).errCode = s.errCode := by
  cases i with
  | scan => exact (scanFrom_scannedTo s s.scanPos.toNat).errCode_eq
  | nop | fft n | fmdemod f | mag | crc lsel | decode | probe a => rfl

/-- On an idle block a command that brings E_MODE into ERRCODE is one the mode does not permit. -/
theorem not_permitted_of_exec {i : Instr} (hb : s.busy = false) (h : exec i s = .next t) (hs : s.errCode ≠ .mode)
    (ht : t.errCode = .mode) : permitted i s.mode = false := by
  rw [exec_eq_runCommand] at h
  obtain ⟨hbusy, -⟩ | ⟨-, e, he, rfl⟩ | ⟨-, -, rfl⟩ := runCommand_cases h
  · simp [hb] at hbusy
  · obtain rfl : e = .mode := by
      rw [State.raise_errCode] at ht
      split at ht
      · exact absurd ht hs
      · exact ht
    exact not_permitted_of_issueError he
  · exact absurd ((commandEffect_errCode i (s.start (encode i))).symm.trans ht) hs

/-- Settles O35: the mode check alone fails with E_MODE, and the commands R171 restricts are all well-formed. -/
theorem commandsNeedTheirMode : Obligations.CommandsNeedTheirMode := by
  intro s hb
  have hrefused : ∀ i, i.wellFormed = true → permitted i s.mode = false → exec i s = .next (s.recorded .mode) :=
    fun i hwf hmode => exec_refused hb (issueError_of_not_permitted hwf hmode _)
  refine ⟨fun f hmode => ?_, fun hmode => ⟨?_, ?_, ?_⟩, fun i t h hs ht => ?_⟩
  · exact hrefused _ rfl (permitted_eq_false_iff.mpr (.inl ⟨hmode, f, rfl⟩))
  · exact hrefused _ rfl (permitted_eq_false_iff.mpr (.inr ⟨hmode, .inl rfl⟩))
  · exact hrefused _ rfl (permitted_eq_false_iff.mpr (.inr ⟨hmode, .inr (.inl rfl)⟩))
  · exact hrefused _ rfl (permitted_eq_false_iff.mpr (.inr ⟨hmode, .inr (.inr rfl)⟩))
  · exact permitted_eq_false_iff.mp (not_permitted_of_exec hb h hs ht)

end Sys2Proof.Machine
end

/-! ## Writes of registers -/

section
namespace Sys2Proof.Machine

/-! ### The step that writes a register -/

/-- A whole-word write of a register's offset is for that register. -/
theorem place_writeOf_reg {o : Nat} {r : Reg} (p : Params) (v : Word) (h : regAt o = some r) :
    (writeOf o v).place p = some (.reg r) := by
  obtain ⟨hlt, hmod⟩ := regAt_offset h
  rw [writeOf_place p v (by omega) hmod, placeAt, if_pos hlt, h, Option.map_some]

section
variable {s : State} {rest : List Turn} {x : Turn} {o : Nat} {v : Word} {r : Reg} (ha : s.agenda = x :: rest)
  (hx : x.isAccess (writeOf o v)) (hr : regAt o = some r)
include ha hx hr

/-- A write of a register that the block accepts leaves what `writePlace` leaves, on either turn, after the word 0 is
answered. -/
theorem step_write_reg {t : State} (hok : s.writeRefusal (.reg r) = none)
    (hw : ∀ held, writePlace held (.reg r) v (s.answered rest (writeOf o v) 0) = .next t) : step s = .next t := by
  obtain ⟨held, hs⟩ := step_write_accepted ha hx rfl (place_writeOf_reg s.params v hr) hok
  exact hs.trans (hw held)

/-- An idle block accepts a write of any register that is not read-only. -/
theorem step_write_reg_idle {t : State} (hb : s.busy = false) (hro : (Place.reg r).readOnly = false)
    (hw : ∀ held, writePlace held (.reg r) v (s.answered rest (writeOf o v) 0) = .next t) : step s = .next t :=
  step_write_reg ha hx hr (by simp [State.writeRefusal, hro, hb]) hw

/-- While a command runs such a write is refused, unless it is of STATUS (20_memory R64 (a)). -/
theorem step_write_reg_busy (hb : s.busy = true) (hro : (Place.reg r).readOnly = false) (hne : r ≠ .status) :
    step s = .next (s.refusedAccess rest (writeOf o v) .busy) :=
  step_write_refused ha hx rfl (place_writeOf_reg s.params v hr) (by simp [State.writeRefusal, hro, hb, hne])

end

/-! ### MODE, STATUS and MSG_POP -/

/-- The words that name no mode are all but 0, 1 and 3 (10_state R17). -/
theorem modeOfWord_eq_none {v : Word} (h0 : v ≠ 0) (h1 : v ≠ 1) (h3 : v ≠ 3) : modeOfWord v = none := by
  unfold modeOfWord
  split
  case h_1 h => exact absurd (BitVec.eq_of_toNat_eq h) h0
  case h_2 h => exact absurd (BitVec.eq_of_toNat_eq h) h1
  case h_3 h => exact absurd (BitVec.eq_of_toNat_eq h) h3
  case h_4 => rfl

theorem writeMode_of_illegal (s : State) {v : Word} (h0 : v ≠ 0) (h1 : v ≠ 1) (h3 : v ≠ 3) :
    s.writeMode v = s.recorded .mode := by
  rw [State.writeMode, modeOfWord_eq_none h0 h1 h3]
  rfl

/-- Settles O43: the word names a mode or it does not. -/
theorem modeWriteSwitchesAndResets : Obligations.ModeWriteSwitchesAndResets := by
  refine fun s rest x v ha hx => ⟨fun hb => ?_, fun hb m hm => ?_, fun hb h0 h1 h3 => ?_⟩
  · exact step_write_reg_busy (r := .mode) ha hx rfl hb rfl (by decide)
  · refine step_write_reg_idle (r := .mode) ha hx rfl hb rfl fun _ => ?_
    obtain ⟨rfl, rfl⟩ | ⟨rfl, rfl⟩ | ⟨rfl, rfl⟩ := hm <;> rfl
  · exact step_write_reg_idle (r := .mode) ha hx rfl hb rfl fun _ =>
      congrArg Host.Outcome.next (writeMode_of_illegal _ h0 h1 h3)

/-- A STATUS write clears as the bits of its word say (45_system R175). -/
theorem State.writeStatus_eq (s : State) (v : Word) : s.writeStatus v = { s with
    done := if v.getLsbD 1 = true then false else s.done
    err := if v.getLsbD 2 = true then false else s.err
    errCode := if v.getLsbD 2 = true then .noError else s.errCode
    msgOvf := if v.getLsbD 3 = true then false else s.msgOvf } := by
  simp [State.writeStatus, Bool.and_comm]

/-- Settles O44: no write of STATUS is refused. -/
theorem statusWriteClearsItsBits : Obligations.StatusWriteClearsItsBits := by
  intro s rest x v ha hx
  have hok : s.writeRefusal (.reg .status) = none := by simp [State.writeRefusal, Place.readOnly]
  exact step_write_reg (r := .status) ha hx rfl hok fun _ => congrArg Host.Outcome.next (State.writeStatus_eq _ v)

theorem State.popRecord_of_nil {s : State} (h : s.mq = []) : s.popRecord = s := by
  rw [State.popRecord, h, List.tail_nil, ← h]

theorem State.popRecord_of_cons {s : State} {r : Record} {q : List Record} (h : s.mq = r :: q) :
    s.popRecord = { s with mq := q } := by
  rw [State.popRecord, h, List.tail_cons]

/-- Settles O45: by whether there is a record to pop. -/
theorem popRemovesTheOldestRecord : Obligations.PopRemovesTheOldestRecord := by
  refine fun s rest x v ha hx => ⟨fun hb => ?_, fun hb hmq => ?_, fun r q hb hmq => ?_⟩
  · exact step_write_reg_busy (r := .msgPop) ha hx rfl hb rfl (by decide)
  · exact step_write_reg_idle (r := .msgPop) ha hx rfl hb rfl fun _ =>
      congrArg Host.Outcome.next (State.popRecord_of_nil hmq)
  · exact step_write_reg_idle (r := .msgPop) ha hx rfl hb rfl fun _ =>
      congrArg Host.Outcome.next (State.popRecord_of_cons hmq)

/-! ### CTRL -/

/-- One bit of a word in its place is the word under that bit's mask. -/
theorem setWidth_ofBool_getLsbD_shiftLeft (v : Word) (n : Nat) :
    (BitVec.ofBool (v.getLsbD n)).setWidth 32 <<< n = v &&& BitVec.twoPow 32 n := by
  rw [BitVec.and_twoPow]
  cases v.getLsbD n <;> simp [BitVec.twoPow]

/-- What a CTRL write stores reads back as the word's stored bits (10_state R16). -/
theorem ctrlWord_ctrlOfWord (v : Word) : ctrlWord (ctrlOfWord v) = v &&& 0x703 := by
  have hbit0 := setWidth_ofBool_getLsbD_shiftLeft v 0
  rw [BitVec.shiftLeft_zero] at hbit0
  simp only [ctrlWord_eq, ctrlOfWord, hbit0, setWidth_ofBool_getLsbD_shiftLeft, ← BitVec.and_or_distrib_left]
  exact congrArg (v &&& ·) (by decide)

/-! ### FRAME_IN -/

theorem getLsbD_two_pow_sub_one (w n p : Nat) :
    (BitVec.ofNat w (2 ^ n - 1)).getLsbD p = (decide (p < w) && decide (p < n)) := by
  rw [BitVec.getLsbD_ofNat, Nat.testBit_two_pow_sub_one]

/-- The bits of a frame with byte `k` replaced: the new byte's where byte `k` stands, the frame's own elsewhere. -/
theorem getLsbD_setFrameByte (f : Frame) {k : Nat} (hk : k < 14) (b : Byte) {p : Nat} (hp : p < 112) :
    (setFrameByte f k b).getLsbD p =
      if 8 * (13 - k) ≤ p ∧ p < 8 * (13 - k) + 8 then b.getLsbD (p - 8 * (13 - k)) else f.getLsbD p := by
  have hmask : ∀ m, (BitVec.ofNat 112 0xFF).getLsbD m = (decide (m < 112) && decide (m < 8)) :=
    getLsbD_two_pow_sub_one 112 8
  have hrel : p - 8 * (13 - k) < 112 := by omega
  simp only [setFrameByte, if_pos hk, BitVec.getLsbD_or, BitVec.getLsbD_and, BitVec.getLsbD_not,
    BitVec.getLsbD_shiftLeft, BitVec.getLsbD_setWidth, hmask, hp, hrel]
  by_cases hlo : 8 * (13 - k) ≤ p
  · by_cases hhi : p < 8 * (13 - k) + 8
    · have hin : p - 8 * (13 - k) < 8 := by omega
      simp [hlo, hhi, hin, Nat.not_lt.mpr hlo]
    · have hout : 8 ≤ p - 8 * (13 - k) := by omega
      simp [hhi, hout]
  · simp [hlo, Nat.lt_of_not_le hlo]

/-- The frame bit where bit `b` of byte `k` stands. -/
theorem getLsbD_frameByte_eq_getLsbD (f : Frame) {k b : Nat} (hk : k < 14) (hb : b < 8) :
    (frameByte f k).getLsbD b = f.getLsbD (8 * (13 - k) + b) := by
  simp [frameByte, hk, hb]

theorem frameByte_setFrameByte (f : Frame) (k j : Nat) (b : Byte) :
    frameByte (setFrameByte f k b) j = if j = k ∧ k < 14 then b else frameByte f j := by
  by_cases hk : k < 14
  case neg => simp [setFrameByte, hk]
  by_cases hj : j < 14
  case neg => simp [frameByte, hj, show ¬ (j = k ∧ k < 14) by omega]
  apply BitVec.eq_of_getLsbD_eq
  intro p hp
  rw [getLsbD_frameByte_eq_getLsbD _ hj hp, getLsbD_setFrameByte f hk b (by omega)]
  by_cases hjk : j = k
  · subst hjk
    simp [hk, hp]
  · rw [if_neg (by omega), if_neg (by omega), getLsbD_frameByte_eq_getLsbD f hj hp]

/-- A frame register write replaces the bytes of its own word that the frame has (10_state R26). -/
theorem frameByte_setFrameWord (f : Frame) (k j : Nat) {i : Nat} (hi : i < 4) (v : Word) :
    frameByte (setFrameWord f k v) (4 * j + i) =
      if j = k ∧ 4 * k + i < 14 then v.extractLsb' (8 * i) 8 else frameByte f (4 * j + i) := by
  simp only [setFrameWord, frameByte_setFrameByte]
  by_cases h : j = k ∧ 4 * k + i < 14
  · obtain ⟨rfl, hlt⟩ := h
    obtain rfl | rfl | rfl | rfl : i = 0 ∨ i = 1 ∨ i = 2 ∨ i = 3 := by omega
    all_goals simp [hlt]
  · rw [if_neg h, if_neg (by omega), if_neg (by omega), if_neg (by omega), if_neg (by omega)]

/-- A frame register reads the word written to it; word 3 holds the low half alone (10_state R26). -/
theorem frameWord_setFrameWord_same (f : Frame) {k : Nat} (hk : k < 4) (v : Word) :
    frameWord (setFrameWord f k v) k = if k = 3 then v &&& 0xFFFF else v := by
  apply BitVec.eq_of_getLsbD_eq
  intro p hp
  obtain ⟨i, b, hi, hb, rfl⟩ : ∃ i b, i < 4 ∧ b < 8 ∧ p = 8 * i + b := ⟨p / 8, p % 8, by omega, by omega, by omega⟩
  have hmask : (0xFFFF#32).getLsbD (8 * i + b) = decide (i < 2) := by
    rw [show 0xFFFF#32 = BitVec.ofNat 32 (2 ^ 16 - 1) from rfl, getLsbD_two_pow_sub_one, decide_eq_true hp,
      Bool.true_and]
    exact decide_eq_decide.mpr (by omega)
  rw [getLsbD_frameWord _ k hi hb, frameByte_setFrameWord f k k hi v]
  by_cases hlt : 4 * k + i < 14
  · have hlow : k = 3 → i < 2 := by omega
    rw [if_pos ⟨rfl, hlt⟩, BitVec.getLsbD_extractLsb', decide_eq_true hb, Bool.true_and]
    split
    case isTrue hk3 => simp [hmask, hlow hk3]
    case isFalse => rfl
  · obtain ⟨rfl, hhigh⟩ : k = 3 ∧ 2 ≤ i := by omega
    simp [frameByte, hmask, hlt, Nat.not_lt.mpr hhigh]

theorem frameWord_setFrameWord_of_ne (f : Frame) {j k : Nat} (h : j ≠ k) (v : Word) :
    frameWord (setFrameWord f k v) j = frameWord f j := by
  have hbyte : ∀ i, i < 4 → frameByte (setFrameWord f k v) (4 * j + i) = frameByte f (4 * j + i) := fun i hi => by
    rw [frameByte_setFrameWord f k j hi, if_neg fun hjk => h hjk.1]
  have hlow : frameByte (setFrameWord f k v) (4 * j) = frameByte f (4 * j) := hbyte 0 (by decide)
  rw [frameWord, hbyte 3 (by decide), hbyte 2 (by decide), hbyte 1 (by decide), hlow]
  rfl

/-- Settles O46: each write stores what its layout lemma reads back. -/
theorem plainRegistersStoreTheirWord : Obligations.PlainRegistersStoreTheirWord := by
  refine fun s rest x v hb ha => ⟨fun hx => ⟨ctrlOfWord v, ctrlWord_ctrlOfWord v, ?_⟩, fun hx => ?_, fun hx => ?_,
    fun k hk hx => ⟨setFrameWord s.frameIn k v, frameWord_setFrameWord_same _ hk v,
      fun j _ hj => frameWord_setFrameWord_of_ne _ hj v, ?_⟩⟩
  · exact step_write_reg_idle (r := .ctrl) ha hx rfl hb rfl fun _ => rfl
  · exact step_write_reg_idle (r := .now) ha hx rfl hb rfl fun _ => rfl
  · exact step_write_reg_idle (r := .iqLen) ha hx rfl hb rfl fun _ => rfl
  · obtain ⟨hreg, -, -⟩ := regAt_frameRegs ⟨k, hk⟩
    exact step_write_reg_idle ha hx hreg hb rfl fun _ => rfl

end Sys2Proof.Machine
end

/-! ## Every step answers a next state -/

section
namespace Sys2Proof.Machine

variable {s : State}

/-! ### No turn stops the block (60_exceptions R181, R184) -/

theorem exists_exec_next (i : Instr) (s : State) : ∃ t, exec i s = .next t := by
  rw [exec_eq_runCommand]
  cases hb : s.busy with
  | true => exact ⟨_, runCommand_busy hb⟩
  | false =>
    cases hcheck : issueError i (ownCheck i s) s with
    | some e => exact ⟨_, runCommand_refused hb hcheck⟩
    | none => exact ⟨_, runCommand_accepted hb hcheck⟩

/-- A CMD write of a word that is no command raises an error, and does not stop the block (45_system R170). -/
theorem exists_issueWord_next (held : Bool) (v : Word) (s : State) : ∃ t, issueWord held v s = .next t := by
  cases hdec : decode v with
  | error e => exact ⟨s.raise .illegal, by rw [issueWord, hdec]⟩
  | ok i =>
    rw [issueWord_command hdec]
    cases held with
    | true => exact ⟨issue i s, rfl⟩
    | false => exact exists_exec_next i s

theorem exists_writePlace_next (held : Bool) (q : Place) (v : Word) (s : State) :
    ∃ t, writePlace held q v s = .next t := by
  cases q with
  | reg r =>
    cases r with
    | cmd => exact exists_issueWord_next held v s
    | _ => exact ⟨_, rfl⟩
  | _ => exact ⟨_, rfl⟩

theorem exists_hostAccess_next (held : Bool) (a : Access) (s : State) : ∃ t, hostAccess held a s = .next t := by
  unfold hostAccess
  split
  · exact ⟨_, rfl⟩
  · split
    · exact ⟨_, rfl⟩
    · split
      · exact ⟨_, rfl⟩
      · exact exists_writePlace_next ..

theorem exists_hostTurn_next (held : Bool) (a : Access) (s : State) : ∃ t, hostTurn held a s = .next t := by
  unfold hostTurn
  split <;> exact exists_hostAccess_next ..

/-- The sequencer stops only over a word in flight that is no command (log 7). -/
theorem exists_sequencerTurn_next (h : ∀ w, s.pending = some w → ∃ i, decode w = .ok i) :
    ∃ t, sequencerTurn s = .next t := by
  cases hw : s.pending with
  | none => exact ⟨s, sequencerTurn_idle (s.busy_eq_false_iff.mpr hw)⟩
  | some w =>
    obtain ⟨i, hdec⟩ := h w hw
    exact ⟨_, sequencerTurn_inFlight hw hdec⟩

theorem State.Inv.pending_decodes (h : s.Inv) (w : Word) (hw : s.pending = some w) : ∃ i, decode w = .ok i :=
  (h.pendingLegal w hw).imp fun _ ⟨hdec, _⟩ => hdec

/-- Settles O53: only the sequencer's turn can stop the block, and by the invariant the word in flight is a command. -/
theorem stepNeverStops : Obligations.StepNeverStops := by
  intro s h
  unfold step
  split
  · split
    · exact exists_sequencerTurn_next h.pending_decodes
    · exact ⟨s, rfl⟩
  next x rest _ =>
    cases x with
    | host a | hostHeld a => exact exists_hostTurn_next ..
    | sequencer => exact exists_sequencerTurn_next (s := { s with agenda := rest }) h.pending_decodes
    | reset => exact ⟨_, rfl⟩

end Sys2Proof.Machine
end

/-! ## A recorded error keeps its first code -/

section
namespace Sys2Proof.Machine

variable {s t : State}

/-- An error that `s` records stands in `t` with its code (60_exceptions R181). -/
def State.KeepsError (s t : State) : Prop := s.err = true → t.err = true ∧ t.errCode = s.errCode

theorem State.KeepsError.of_eq (herr : t.err = s.err) (hcode : t.errCode = s.errCode) : s.KeepsError t :=
  fun h => ⟨herr.trans h, hcode⟩

/-! ### What records an error, and what leaves it alone -/

/-- Raising another error leaves the first code. -/
theorem raise_keepsError (s : State) (e : ErrCode) : s.KeepsError (s.raise e) := fun h => ⟨rfl, if_pos h⟩

theorem busError_keepsError (s : State) (e : ErrCode) : s.KeepsError (s.busError e) := raise_keepsError s e

theorem State.ScannedTo.err_eq (h : s.ScannedTo t) : t.err = s.err := by
  rw [h]

/-- The effect of a command neither records nor clears an error. -/
theorem commandEffect_err (i : Instr) (s : State) : (commandEffect i s).err = s.err := by
  cases i with
  | scan => exact (scanFrom_scannedTo s s.scanPos.toNat).err_eq
  | nop | fft n | fmdemod f | mag | crc lsel | decode | probe a => rfl

theorem commandEffect_complete_keepsError (i : Instr) (s : State) : s.KeepsError (commandEffect i s).complete :=
  .of_eq (commandEffect_err i s) (commandEffect_errCode i s)

theorem exec_keepsError {i : Instr} (h : exec i s = .next t) : s.KeepsError t := by
  rw [exec_eq_runCommand] at h
  obtain ⟨-, rfl⟩ | ⟨-, e, -, rfl⟩ | ⟨-, -, rfl⟩ := runCommand_cases h
  · exact busError_keepsError s .busy
  · exact raise_keepsError s e
  · exact commandEffect_complete_keepsError i (s.start (encode i))

theorem issue_keepsError (i : Instr) (s : State) : s.KeepsError (issue i s) := by
  obtain ⟨-, h⟩ | ⟨-, e, -, h⟩ | ⟨-, -, h⟩ := issue_cases i s <;> rw [h]
  · exact busError_keepsError s .busy
  · exact raise_keepsError s e
  · exact .of_eq rfl rfl

theorem sequencerTurn_keepsError (h : sequencerTurn s = .next t) : s.KeepsError t := by
  cases hb : s.busy with
  | false =>
    rw [sequencerTurn_idle hb] at h
    obtain rfl := Host.Outcome.next.inj h
    exact .of_eq rfl rfl
  | true =>
    rw [sequencerTurn_busy hb] at h
    obtain ⟨-, rfl⟩ | ⟨w, i, -, -, rfl⟩ := finish_cases h
    · exact .of_eq rfl rfl
    · exact commandEffect_complete_keepsError i s.redraw

/-! ### The host's accesses -/

theorem issueWord_keepsError {held : Bool} {v : Word} (h : issueWord held v s = .next t) : s.KeepsError t := by
  cases hdec : decode v with
  | error e =>
    rw [issueWord, hdec] at h
    obtain rfl := Host.Outcome.next.inj h
    exact raise_keepsError s .illegal
  | ok i =>
    rw [issueWord_command hdec] at h
    cases held with
    | true =>
      obtain rfl := Host.Outcome.next.inj h
      exact issue_keepsError i s
    | false => exact exec_keepsError h

theorem writeMode_keepsError (s : State) (v : Word) : s.KeepsError (s.writeMode v) := by
  unfold State.writeMode
  split
  · exact raise_keepsError s .mode
  · exact .of_eq rfl rfl

/-- A STATUS write with bit 2 clear leaves ERR and ERRCODE (45_system R175). -/
theorem writeStatus_keepsError {v : Word} (hv : ¬ v.getLsbD 2 = true) : s.KeepsError (s.writeStatus v) := by
  rw [State.writeStatus_eq]
  exact .of_eq (if_neg hv) (if_neg hv)

theorem writePlace_keepsError {held : Bool} {q : Place} {v : Word} (hclear : q = .reg .status → ¬ v.getLsbD 2 = true)
    (h : writePlace held q v s = .next t) : s.KeepsError t := by
  cases q with
  | reg r =>
    cases r with
    | mode =>
      obtain rfl := Host.Outcome.next.inj h
      exact writeMode_keepsError s v
    | status =>
      obtain rfl := Host.Outcome.next.inj h
      exact writeStatus_keepsError (hclear rfl)
    | cmd => exact issueWord_keepsError h
    | _ =>
      obtain rfl := Host.Outcome.next.inj h
      exact .of_eq rfl rfl
  | _ =>
    obtain rfl := Host.Outcome.next.inj h
    exact .of_eq rfl rfl

/-- A host's access that clears a recorded error: a STATUS write with bit 2 set (60_exceptions R182). -/
def Access.clearsError (a : Access) (p : Params) : Prop :=
  a.kind = .write ∧ a.place p = some (.reg .status) ∧ a.data.getLsbD 2 = true

theorem hostAccess_keepsError {held : Bool} {a : Access} (hclear : ¬ a.clearsError s.params)
    (h : hostAccess held a s = .next t) : s.KeepsError t := by
  obtain ⟨-, rfl⟩ | ⟨q, -, -, rfl⟩ | ⟨q, e, -, -, -, rfl⟩ | ⟨q, hq, hk, -, hw⟩ := hostAccess_cases h
  · exact busError_keepsError s .bus
  · exact .of_eq rfl rfl
  · exact busError_keepsError s e
  · exact writePlace_keepsError (s := s.respond 0) (fun hstatus hbit => hclear ⟨hk, hstatus ▸ hq, hbit⟩) hw

theorem hostTurn_keepsError {held : Bool} {a : Access} {rest : List Turn} (hclear : ¬ a.clearsError s.params)
    (h : hostTurn held a { s with agenda := rest } = .next t) : s.KeepsError t :=
  hostAccess_keepsError (s := s.tookTurn rest a) hclear ((hostTurn_eq held a s rest).symm.trans h)

/-! ### Steps and runs -/

theorem State.not_access_clearsError {a : Access} (hs : ¬ s.clearsError) (herr : s.err = true)
    (hnext : s.nextAccess = some a) : ¬ a.clearsError s.params :=
  fun ha => hs ⟨herr, .inr ⟨a, hnext, ha⟩⟩

/-- A reset and a STATUS write with bit 2 set alone clear a recorded error (60_exceptions R181, R182). -/
theorem step_keepsError (h : step s = .next t) (hclear : ¬ s.clearsError) : s.KeepsError t := by
  intro herr
  suffices hkeep : s.KeepsError t from hkeep herr
  obtain ⟨-, -, rfl⟩ | ⟨-, -, ht⟩ | ⟨x, rest, ha, ht⟩ := step_cases h
  · exact .of_eq rfl rfl
  · exact sequencerTurn_keepsError ht
  · cases x with
    | host a | hostHeld a =>
      exact hostTurn_keepsError (State.not_access_clearsError hclear herr (by rw [State.nextAccess, ha])) ht
    | sequencer => exact sequencerTurn_keepsError (s := { s with agenda := rest }) ht
    | reset => exact absurd ⟨herr, .inl (by rw [ha]; rfl)⟩ hclear

/-- The last step of a run of `n + 1` steps. -/
theorem exists_step_of_run_succ (M : Host.Core) {n : Nat} {s t : M.State} (h : M.run (n + 1) s = .next t) :
    ∃ u, M.run n s = .next u ∧ M.step u = .next t := by
  induction n generalizing s with
  | zero =>
    refine ⟨s, rfl, ?_⟩
    simp only [Host.Core.run] at h
    split at h
    case h_1 u hu => rw [hu, h]
    case h_2 | h_3 => cases h
  | succ n ih =>
    rw [Host.Core.run] at h
    split at h
    case h_1 u hu =>
      obtain ⟨v, hv, hstep⟩ := ih h
      exact ⟨v, by rw [Host.Core.run, hu]; exact hv, hstep⟩
    case h_2 | h_3 => cases h

/-- An error recorded after `k` steps of a run is recorded as long as no later step clears it. -/
theorem err_of_run {k n : Nat} {u : State} (hk : k ≤ n) (hu : Host.Core.run Sys2Proof.core k s = .next u)
    (herr : u.err = true)
    (hclear : ∀ j v, j < n → Host.Core.run Sys2Proof.core j s = .next v → ¬ v.clearsError)
    (ht : Host.Core.run Sys2Proof.core n s = .next t) : t.err = true := by
  induction n, hk using Nat.le_induction generalizing t with
  | base =>
    obtain rfl := Host.Outcome.next.inj (hu.symm.trans ht)
    exact herr
  | succ n hk ih =>
    obtain ⟨v, hv, hstep⟩ := exists_step_of_run_succ Sys2Proof.core ht
    have hverr : v.err = true := ih (fun j w hj => hclear j w (Nat.lt_succ_of_lt hj)) hv
    exact (step_keepsError hstep (hclear n v n.lt_succ_self hv) hverr).1

/-- Settles O55: a step keeps an error it does not clear, so an error recorded during a clean run would stand at its
end. -/
theorem firstErrorStays : Obligations.FirstErrorStays := by
  refine ⟨fun s t hstep herr hclear => step_keepsError hstep hclear herr, fun s t n hrun k u hk hu => ?_⟩
  obtain ⟨⟨hend, -⟩, hterr, hclear⟩ := hrun
  refine Bool.eq_false_iff.mpr fun herr => ?_
  exact Bool.false_ne_true (hterr.symm.trans (err_of_run hk hu herr hclear hend))

end Sys2Proof.Machine
end

/-! ## Every run comes to its end -/

section
namespace Sys2Proof.Machine

variable {s t : State}

/-! ### What leaves the turns to come alone -/

theorem State.ScannedTo.agenda_eq (h : s.ScannedTo t) : t.agenda = s.agenda := by
  rw [h]

theorem commandEffect_agenda (i : Instr) (s : State) : (commandEffect i s).agenda = s.agenda := by
  cases i with
  | scan => exact (scanFrom_scannedTo s s.scanPos.toNat).agenda_eq
  | nop | fft n | fmdemod f | mag | crc lsel | decode | probe a => rfl

theorem exec_agenda {i : Instr} (h : exec i s = .next t) : t.agenda = s.agenda := by
  rw [exec_eq_runCommand] at h
  obtain ⟨-, rfl⟩ | ⟨-, e, -, rfl⟩ | ⟨-, -, rfl⟩ := runCommand_cases h
  · rfl
  · rfl
  · exact commandEffect_agenda i (s.start (encode i))

theorem issue_agenda (i : Instr) (s : State) : (issue i s).agenda = s.agenda := by
  obtain ⟨-, h⟩ | ⟨-, e, -, h⟩ | ⟨-, -, h⟩ := issue_cases i s <;> rw [h] <;> rfl

theorem sequencerTurn_agenda (h : sequencerTurn s = .next t) : t.agenda = s.agenda := by
  cases hb : s.busy with
  | false =>
    rw [sequencerTurn_idle hb] at h
    obtain rfl := Host.Outcome.next.inj h
    rfl
  | true =>
    rw [sequencerTurn_busy hb] at h
    obtain ⟨-, rfl⟩ | ⟨w, i, -, -, rfl⟩ := finish_cases h
    · rfl
    · exact commandEffect_agenda i s.redraw

theorem issueWord_agenda {held : Bool} {v : Word} (h : issueWord held v s = .next t) : t.agenda = s.agenda := by
  cases hdec : decode v with
  | error e =>
    rw [issueWord, hdec] at h
    obtain rfl := Host.Outcome.next.inj h
    rfl
  | ok i =>
    rw [issueWord_command hdec] at h
    cases held with
    | true =>
      obtain rfl := Host.Outcome.next.inj h
      exact issue_agenda i s
    | false => exact exec_agenda h

theorem writeMode_agenda (s : State) (v : Word) : (s.writeMode v).agenda = s.agenda := by
  unfold State.writeMode
  split <;> rfl

theorem writePlace_agenda {held : Bool} {q : Place} {v : Word} (h : writePlace held q v s = .next t) :
    t.agenda = s.agenda := by
  cases q with
  | reg r =>
    cases r with
    | mode =>
      obtain rfl := Host.Outcome.next.inj h
      exact writeMode_agenda s v
    | cmd => exact issueWord_agenda h
    | _ =>
      obtain rfl := Host.Outcome.next.inj h
      rfl
  | _ =>
    obtain rfl := Host.Outcome.next.inj h
    rfl

theorem hostAccess_agenda {held : Bool} {a : Access} (h : hostAccess held a s = .next t) : t.agenda = s.agenda := by
  obtain ⟨-, rfl⟩ | ⟨q, -, -, rfl⟩ | ⟨q, e, -, -, -, rfl⟩ | ⟨q, -, -, -, hw⟩ := hostAccess_cases h
  · rfl
  · rfl
  · rfl
  · exact writePlace_agenda (s := s.respond 0) hw

theorem hostTurn_agenda {held : Bool} {a : Access} {rest : List Turn}
    (h : hostTurn held a { s with agenda := rest } = .next t) : t.agenda = rest :=
  hostAccess_agenda (s := s.tookTurn rest a) ((hostTurn_eq held a s rest).symm.trans h)

/-! ### Steps and runs -/

/-- A step takes the first of the turns to come and leaves the others (log 1). -/
theorem step_agenda (h : step s = .next t) : t.agenda = s.agenda.tail := by
  obtain ⟨ha, -, rfl⟩ | ⟨ha, -, ht⟩ | ⟨x, rest, ha, ht⟩ := step_cases h
  · rw [ha, List.tail_nil]
  · rw [sequencerTurn_agenda ht, ha, List.tail_nil]
  · rw [ha, List.tail_cons]
    cases x with
    | host a | hostHeld a => exact hostTurn_agenda ht
    | sequencer => exact sequencerTurn_agenda (s := { s with agenda := rest }) ht
    | reset =>
      obtain rfl := Host.Outcome.next.inj ht
      rfl

/-- After the sequencer's turn no command is in flight (45_system R170). -/
theorem sequencerTurn_not_busy (h : sequencerTurn s = .next t) : t.busy = false := by
  cases hb : s.busy with
  | false =>
    rw [sequencerTurn_idle hb] at h
    obtain rfl := Host.Outcome.next.inj h
    exact hb
  | true =>
    rw [sequencerTurn_busy hb] at h
    obtain ⟨hp, rfl⟩ | ⟨w, i, -, -, rfl⟩ := finish_cases h
    · exact s.redraw.busy_eq_false_iff.mpr hp
    · exact State.complete_busy _

/-- With no turn left the block is idle after one step (70_reset R212, log 2). -/
theorem step_not_busy_of_no_turn (ha : s.agenda = []) (h : step s = .next t) : t.busy = false := by
  obtain ⟨-, hb, rfl⟩ | ⟨-, -, ht⟩ | ⟨x, rest, hcons, -⟩ := step_cases h
  · exact hb
  · exact sequencerTurn_not_busy ht
  · rw [ha] at hcons
    cases hcons

/-- A run goes on from the state its first step answers. -/
theorem run_succ_of_step (M : Host.Core) {s u : M.State} (h : M.step s = .next u) (n : Nat) :
    M.run (n + 1) s = M.run n u := by
  rw [Host.Core.run, h]

/-- From a state that meets the invariant a run of any length answers a state, and each step has taken one turn. -/
theorem exists_run_agenda_drop (n : Nat) (h : s.Inv) :
    ∃ t, Host.Core.run Sys2Proof.core n s = .next t ∧ t.agenda = s.agenda.drop n := by
  induction n generalizing s with
  | zero => exact ⟨s, rfl, rfl⟩
  | succ n ih =>
    obtain ⟨u, hu⟩ := stepNeverStops s h
    obtain ⟨hinv, -⟩ := stepKeepsTheInvariant s u h hu
    obtain ⟨t, ht, hagenda⟩ := ih hinv
    exact ⟨t, (run_succ_of_step Sys2Proof.core hu n).trans ht, by rw [hagenda, step_agenda hu, List.drop_tail]⟩

/-- One step more than there are turns to come leaves no turn and no command in flight. -/
theorem exists_run_idle (h : s.Inv) :
    ∃ t, Host.Core.run Sys2Proof.core (s.agenda.length + 1) s = .next t ∧ t.agenda = [] ∧ t.busy = false := by
  obtain ⟨t, ht, hagenda⟩ := exists_run_agenda_drop (s.agenda.length + 1) h
  obtain ⟨u, hu, hstep⟩ := exists_step_of_run_succ Sys2Proof.core ht
  obtain ⟨u', hu', hnone⟩ := exists_run_agenda_drop s.agenda.length h
  obtain rfl := Host.Outcome.next.inj (hu.symm.trans hu')
  rw [List.drop_length] at hnone
  exact ⟨t, ht, hagenda.trans (List.drop_eq_nil_of_le (Nat.le_succ _)), step_not_busy_of_no_turn hnone hstep⟩

/-! ### The first state in which the run is over -/

/-- The run from `s` is over after `n` steps. -/
def State.overAfter (s : State) (n : Nat) : Prop := ∃ t, Host.Core.run Sys2Proof.core n s = .next t ∧ t.runOver

theorem State.runOver_of_no_turn (ha : s.agenda = []) (hb : s.busy = false) : s.runOver :=
  ⟨ha ▸ List.forall_mem_nil _, hb⟩

/-- A run that is over after `m` steps ends, by then. -/
theorem State.overAfter.exists_runEnds {m : Nat} (h : s.overAfter m) : ∃ n t, n ≤ m ∧ s.runEnds n t := by
  classical
  have hex : ∃ n, s.overAfter n := ⟨m, h⟩
  obtain ⟨t, ht, hover⟩ := Nat.find_spec hex
  exact ⟨Nat.find hex, t, Nat.find_min' hex h, ht, hover, fun k u hk hu ho => Nat.find_min hex hk ⟨u, hu, ho⟩⟩

theorem State.runEnds.le_of_runEnds {n n' : Nat} {t t' : State} (h : s.runEnds n t) (h' : s.runEnds n' t') :
    n ≤ n' := by
  obtain ⟨-, -, hfirst⟩ := h
  obtain ⟨ht', hover', -⟩ := h'
  exact Nat.le_of_not_lt fun hlt => hfirst n' t' hlt ht' hover'

/-- A run ends once. -/
theorem State.runEnds.unique {n n' : Nat} {t t' : State} (h : s.runEnds n t) (h' : s.runEnds n' t') :
    n' = n ∧ t' = t := by
  obtain rfl := Nat.le_antisymm (h.le_of_runEnds h') (h'.le_of_runEnds h)
  obtain ⟨ht, -, -⟩ := h
  obtain ⟨ht', -, -⟩ := h'
  exact ⟨rfl, Host.Outcome.next.inj (ht'.symm.trans ht)⟩

/-- Settles O54: each step takes a turn, the step after the last one completes the command in flight, and the run ends
at the first of the states in which it is over. -/
theorem everyRunComesToItsEnd : Obligations.EveryRunComesToItsEnd := by
  intro s h
  obtain ⟨t, ht, hagenda, hbusy⟩ := exists_run_idle h
  have hover : s.overAfter (s.agenda.length + 1) := ⟨t, ht, State.runOver_of_no_turn hagenda hbusy⟩
  obtain ⟨n, u, hn, hend⟩ := hover.exists_runEnds
  exact ⟨⟨n, u, hn, hend, fun _ _ hend' => hend.unique hend'⟩, t, ht, hagenda, hbusy⟩

end Sys2Proof.Machine
end
